-- ==== Sys2Proof/Word.lean ====
section
/-!
DEFINITION. The two word types of the block (00_scope.md R11): a byte of ring data or operand, and the 16-bit
command and response word (30_encoding.md R73, R79).
-/
namespace Sys2Proof

/-- Eight bits: one ring entry, one operand `D8`, one payload element (20_memory.md R56). -/
abbrev Byte := BitVec 8

/-- Sixteen bits: a command word or a response word (30_encoding.md R73, R79). -/
abbrev Word := BitVec 16

end Sys2Proof
end

