-- ==== Sys2Proof/Syntax.lean ====
section
/-!
DEFINITION. The commands of the block, one constructor for each row of spec/opcode_table.json (30_encoding.md R75), with
the ports that issue them and the raw command a port delivers.
-/
namespace Sys2Proof

/-- The seven ports that name an agent (30_encoding.md R74). Port number 7 names none. -/
inductive Port where
  /-- 0: the UART receiver. -/
  | urx
  /-- 1: the UART transmitter. -/
  | utx
  /-- 2: the scheduler. -/
  | sch
  /-- 3: the USB device controller. -/
  | dev
  /-- 4: the control endpoint. -/
  | ctl
  /-- 5: the tick source. -/
  | tck
  /-- 6: the observation port. -/
  | obs
deriving DecidableEq, Repr

/-- A command as it is delivered, whole: a word and a payload (30_encoding.md R71). -/
structure Command where
  word : Word
  payload : List Byte
deriving DecidableEq, Repr

/-- A decoded command. The mnemonics are those of 30_encoding.md R75; a payload is an operand here, decoded into the fields
its rule names. -/
inductive Instr where
  /-- NOP on a port 0 to 6 (R152). -/
  | nop (port : Port)
  /-- RXPUSH b (R93). -/
  | rxpush (b : Byte)
  /-- RXPOP (R94). -/
  | rxpop
  /-- RXOCC (R95). -/
  | rxocc
  /-- TXPUSH b (R97). -/
  | txpush (b : Byte)
  /-- TXPOP (R98). -/
  | txpop
  /-- TXOCC (R99). -/
  | txocc
  /-- RINGRST m: bit 0 selects RX, bit 1 selects TX (R103). -/
  | ringrst (m : BitVec 2)
  /-- INSTEP r: `r` says that the IN endpoint is free (R139). -/
  | instep (r : Bool)
  /-- OUTSTEP n [bytes]: the count is the length of the transfer (R142). -/
  | outstep (bytes : List Byte)
  /-- TICK (R145). -/
  | tick
  /-- CSRRD i (R153). -/
  | csrrd (i : Byte)
  /-- VBUSOFF (R107). -/
  | vbusoff
  /-- VBUSON (R106). -/
  | vbuson
  /-- SUSPEND (R108). -/
  | suspend
  /-- WAKE (R110). -/
  | wake
  /-- EORST (R113). -/
  | eorst
  /-- ADDRESSED (R114). -/
  | addressed
  /-- SETCFG c (R115). -/
  | setcfg (c : Byte)
  /-- GETLC (R124). -/
  | getlc
  /-- SETLC baud, fmt, parity, bits (R126). -/
  | setlc (baud : BitVec 32) (fmt parity bits : Byte)
  /-- SETCLS v (R129). -/
  | setcls (v : BitVec 16)
  /-- SENDBRK v (R130). -/
  | sendbrk (v : BitVec 16)
  /-- CTLUNS.(0x1C + o) [bytes] (R131). -/
  | ctluns (o : BitVec 2) (bytes : List Byte)
deriving DecidableEq, Repr

end Sys2Proof
end

