-- ==== Sys2Proof/Config.lean ====
section
/-!
DEFINITION. What an implementation fixes for the life of the block: its parameters (00_scope.md R6 to R10), the two
reference parameter sets of 92_eei_decisions.md D8, and the one value that the rules leave unstated.
-/
namespace Sys2Proof

/-- The parameters of the block (00_scope.md R6 to R8). The spec gives constraints and no values (92_eei_decisions.md D5 to D7:
OPEN). They are plain numbers; which sets are well-formed is `Machine.configOk` (R9). -/
structure Config where
  /-- `N_RX`, the capacity of the RX ring array in bytes. -/
  nRx : Nat
  /-- `N_TX`, the capacity of the TX ring array in bytes. -/
  nTx : Nat
  /-- `THRESH`, the RX near-full threshold in bytes. -/
  thresh : Nat
  /-- `EP_IN_SIZE`, one IN transfer's worth of bytes. -/
  epInSize : Nat
  /-- `EP_OUT_SIZE`, the largest OUT transfer in bytes. -/
  epOutSize : Nat
  /-- `FLUSH_TICKS`, the flush-timer period in ticks. -/
  flushTicks : Nat
  /-- `PULSE_TICKS`, the activity pulse duration in ticks. -/
  pulseTicks : Nat
deriving DecidableEq, Repr

/-- `REF-A` (92_eei_decisions.md D8), the parameter set of the spec's test vectors. -/
def Config.refA : Config :=
  { nRx := 8, nTx := 8, thresh := 4, epInSize := 4, epOutSize := 6, flushTicks := 3, pulseTicks := 2 }

/-- `REF-B` (92_eei_decisions.md D8). -/
def Config.refB : Config :=
  { nRx := 128, nTx := 128, thresh := 64, epInSize := 64, epOutSize := 64, flushTicks := 4, pulseTicks := 10 }

/-- The device-connection states in the order of their codes 0 to 5 (10_state.md R22). The codes 6 and 7 are never reached,
and a six-valued type is allowed (R23). -/
inductive DevState where
  | unattached
  | powered
  | suspended
  | default
  | addressed
  | configured
deriving DecidableEq, Repr, Inhabited

/-- DESIGN CHOICE (log 8): the FREE value of `wake_target` at Unattached and Suspended, of which 42_usb_state.md R105 states
nothing. Safe: nothing can be proved of it, and no reachable state needs it (10_state.md R24). -/
opaque Config.wakeTargetUnstated : DevState → DevState

end Sys2Proof
end

