-- ==== Sys2Proof/WellFormed.lean ====
section
/-!
DEFINITION. Which instructions have an encoding: every operand but a payload fits its field by its type, and a payload's
length must fit the count field `D8` (30_encoding.md R76, R78).
-/
namespace Sys2Proof

/-- A byte count that fits the 8-bit field `D8` (30_encoding.md R76: `0..255`). -/
def countFits (bytes : List Byte) : Bool := decide (bytes.length ≤ 255)

/-- The instruction has an encoding. Whether an OUTSTEP also fits the endpoint depends on the parameters and is a check of
its own (`oversize`, in `Machine/Ops.lean`). -/
def Instr.wellFormed : Instr → Bool
  | .nop _ => true
  | .rxpush _ => true
  | .rxpop => true
  | .rxocc => true
  | .txpush _ => true
  | .txpop => true
  | .txocc => true
  | .ringrst _ => true
  | .instep _ => true
  | .outstep bytes => countFits bytes
  | .tick => true
  | .csrrd _ => true
  | .vbusoff => true
  | .vbuson => true
  | .suspend => true
  | .wake => true
  | .eorst => true
  | .addressed => true
  | .setcfg _ => true
  | .getlc => true
  | .setlc _ _ _ _ => true
  | .setcls _ => true
  | .sendbrk _ => true
  | .ctluns _ bytes => countFits bytes

end Sys2Proof
end

