-- ==== Sys2Proof/Decode.lean ====
section
/-!
DEFINITION. Decoding and encoding of commands (30_encoding.md R73 to R88). Decoding is total on every word and payload and
rejects by the fault code of the first check that fails (R81); the encoder follows the word column of R88.
-/
namespace Sys2Proof

/-- The port number of a port (30_encoding.md R74). -/
def Port.code : Port → BitVec 3
  | .urx => 0
  | .utx => 1
  | .sch => 2
  | .dev => 3
  | .ctl => 4
  | .tck => 5
  | .obs => 6

/-- The port of a port number; number 7 is reserved (30_encoding.md R74). -/
def Port.ofCode (c : BitVec 3) : Option Port :=
  match c.toNat with
  | 0 => some .urx
  | 1 => some .utx
  | 2 => some .sch
  | 3 => some .dev
  | 4 => some .ctl
  | 5 => some .tck
  | 6 => some .obs
  | _ => none

/-- The reasons a command faults, in check order (60_exceptions.md R157). -/
inductive FaultCode where
  /-- 1: port 7, or a reserved operation (R82). -/
  | illegal
  /-- 2: the port does not own the operation (R83). -/
  | role
  /-- 3: a reserved bit of `D8` is 1 (R84). -/
  | resv
  /-- 4: the payload length differs from `PLEN` (R78). -/
  | payloadLen
  /-- 5: an OUTSTEP of more bytes than one OUT transfer holds (R81). -/
  | outOversize
deriving DecidableEq, Repr

/-- The numeric fault code (60_exceptions.md R157). -/
def FaultCode.code : FaultCode → BitVec 4
  | .illegal => 1
  | .role => 2
  | .resv => 3
  | .payloadLen => 4
  | .outOversize => 5

/-- The `PORT` field, bits 15:13 (30_encoding.md R73). -/
def portField (w : Word) : BitVec 3 := w.extractLsb' 13 3

/-- The `OP` field, bits 12:8 (30_encoding.md R73). -/
def opField (w : Word) : BitVec 5 := w.extractLsb' 8 5

/-- The `D8` field, bits 7:0 (30_encoding.md R73). -/
def d8Field (w : Word) : Byte := w.extractLsb' 0 8

/-- The command word with the three fields given (30_encoding.md R73). -/
def mkWord (port : BitVec 3) (op : BitVec 5) (d8 : Byte) : Word := port ++ op ++ d8

/-- A 16-bit value from its two payload bytes, least significant first (20_memory.md R56). -/
def le16 (b0 b1 : Byte) : BitVec 16 := b1 ++ b0

/-- The two payload bytes of a 16-bit value, least significant first (20_memory.md R56). -/
def bytes16 (v : BitVec 16) : List Byte := [v.extractLsb' 0 8, v.extractLsb' 8 8]

/-- A 32-bit value from its four payload bytes, least significant first (20_memory.md R56). -/
def le32 (b0 b1 b2 b3 : Byte) : BitVec 32 := b3 ++ b2 ++ b1 ++ b0

/-- The four payload bytes of a 32-bit value, least significant first (20_memory.md R56). -/
def bytes32 (v : BitVec 32) : List Byte :=
  [v.extractLsb' 0 8, v.extractLsb' 8 8, v.extractLsb' 16 8, v.extractLsb' 24 8]

/-- The payload byte at position `i`. -/
def payloadByte (p : List Byte) (i : Nat) : Byte := p.getD i 0

/-- The payload length an operation requires (30_encoding.md R78): a fixed number of bytes, or the count in `D8`. -/
inductive PayloadLen where
  | fixed (n : Nat)
  | count
deriving DecidableEq, Repr

/-- One row of the operation table of 30_encoding.md R75, with the reserved bits of R81 and how the operands are read. -/
structure OpRow where
  /-- The owning port; `none` for NOP, which every port 0 to 6 owns. -/
  owner : Option Port
  /-- `RESV(op)`: the bits of `D8` that must be 0. -/
  resv : Byte
  /-- `PLEN`. -/
  plen : PayloadLen
  /-- The instruction read from the port, `D8` and the payload. -/
  read : Port → Byte → List Byte → Instr

/-- The operation table (30_encoding.md R75, R81); `none` at the reserved operation numbers (R82). -/
def opRow (op : BitVec 5) : Option OpRow :=
  match op.toNat with
  | 0x00 => some ⟨none, 0xFF, .fixed 0, fun port _ _ => .nop port⟩
  | 0x01 => some ⟨some .urx, 0x00, .fixed 0, fun _ d8 _ => .rxpush d8⟩
  | 0x02 => some ⟨some .sch, 0xFF, .fixed 0, fun _ _ _ => .rxpop⟩
  | 0x03 => some ⟨some .sch, 0xFF, .fixed 0, fun _ _ _ => .rxocc⟩
  | 0x04 => some ⟨some .sch, 0x00, .fixed 0, fun _ d8 _ => .txpush d8⟩
  | 0x05 => some ⟨some .utx, 0xFF, .fixed 0, fun _ _ _ => .txpop⟩
  | 0x06 => some ⟨some .sch, 0xFF, .fixed 0, fun _ _ _ => .txocc⟩
  | 0x07 => some ⟨some .dev, 0xFC, .fixed 0, fun _ d8 _ => .ringrst (d8.extractLsb' 0 2)⟩
  | 0x08 => some ⟨some .sch, 0xFE, .fixed 0, fun _ d8 _ => .instep (d8.getLsbD 0)⟩
  | 0x09 => some ⟨some .sch, 0x00, .count, fun _ _ p => .outstep p⟩
  | 0x0A => some ⟨some .tck, 0xFF, .fixed 0, fun _ _ _ => .tick⟩
  | 0x0F => some ⟨some .obs, 0x00, .fixed 0, fun _ d8 _ => .csrrd d8⟩
  | 0x10 => some ⟨some .dev, 0xFE, .fixed 0, fun _ d8 _ => if d8.getLsbD 0 then .vbuson else .vbusoff⟩
  | 0x11 => some ⟨some .dev, 0xFF, .fixed 0, fun _ _ _ => .suspend⟩
  | 0x12 => some ⟨some .dev, 0xFF, .fixed 0, fun _ _ _ => .wake⟩
  | 0x13 => some ⟨some .dev, 0xFF, .fixed 0, fun _ _ _ => .eorst⟩
  | 0x14 => some ⟨some .dev, 0xFF, .fixed 0, fun _ _ _ => .addressed⟩
  | 0x15 => some ⟨some .dev, 0x00, .fixed 0, fun _ d8 _ => .setcfg d8⟩
  | 0x18 => some ⟨some .ctl, 0xFF, .fixed 0, fun _ _ _ => .getlc⟩
  | 0x19 => some ⟨some .ctl, 0xFF, .fixed 7, fun _ _ p => .setlc
      (le32 (payloadByte p 0) (payloadByte p 1) (payloadByte p 2) (payloadByte p 3))
      (payloadByte p 4) (payloadByte p 5) (payloadByte p 6)⟩
  | 0x1A => some ⟨some .ctl, 0xFF, .fixed 2, fun _ _ p => .setcls (le16 (payloadByte p 0) (payloadByte p 1))⟩
  | 0x1B => some ⟨some .ctl, 0xFF, .fixed 2, fun _ _ p => .sendbrk (le16 (payloadByte p 0) (payloadByte p 1))⟩
  | 0x1C => some ⟨some .ctl, 0x00, .count, fun _ _ p => .ctluns 0 p⟩
  | 0x1D => some ⟨some .ctl, 0x00, .count, fun _ _ p => .ctluns 1 p⟩
  | 0x1E => some ⟨some .ctl, 0x00, .count, fun _ _ p => .ctluns 2 p⟩
  | 0x1F => some ⟨some .ctl, 0x00, .count, fun _ _ p => .ctluns 3 p⟩
  | _ => none

/-- The port may issue the row's operation (30_encoding.md R81, `OWNER`). -/
def owns (row : OpRow) (port : Port) : Bool :=
  match row.owner with
  | none => true
  | some p => decide (p = port)

/-- `PLEN(op, D8)` (30_encoding.md R78). -/
def requiredLen (len : PayloadLen) (d8 : Byte) : Nat :=
  match len with
  | .fixed n => n
  | .count => d8.toNat

/-- The checks of 30_encoding.md R81 that need no parameter, in order, and the instruction when they pass. The last check,
OUT_OVERSIZE, needs `EP_OUT_SIZE` and is made by `Machine.decodeFor`. -/
def decode (c : Command) : Except FaultCode Instr :=
  match Port.ofCode (portField c.word), opRow (opField c.word) with
  | some port, some row =>
    if owns row port = false then .error .role
    else if d8Field c.word &&& row.resv ≠ 0 then .error .resv
    else if c.payload.length ≠ requiredLen row.plen (d8Field c.word) then .error .payloadLen
    else .ok (row.read port (d8Field c.word) c.payload)
  | _, _ => .error .illegal

/-- The one port that owns an instruction (30_encoding.md R75), or the port a NOP was issued on. -/
def Instr.port : Instr → Port
  | .nop port => port
  | .rxpush _ => .urx
  | .rxpop | .rxocc | .txpush _ | .txocc | .instep _ | .outstep _ => .sch
  | .txpop => .utx
  | .ringrst _ | .vbusoff | .vbuson | .suspend | .wake | .eorst | .addressed | .setcfg _ => .dev
  | .tick => .tck
  | .csrrd _ => .obs
  | .getlc | .setlc _ _ _ _ | .setcls _ | .sendbrk _ | .ctluns _ _ => .ctl

/-- The byte count of a transfer as the field `D8` (30_encoding.md R76). -/
def countByte (bytes : List Byte) : Byte := BitVec.ofNat 8 bytes.length

/-- The command that stands for an instruction, from the word and payload columns of 30_encoding.md R88. -/
def encode : Instr → Command
  | .nop port => ⟨mkWord port.code 0x00 0, []⟩
  | .rxpush b => ⟨0x0100 ||| b.setWidth 16, []⟩
  | .rxpop => ⟨0x4200, []⟩
  | .rxocc => ⟨0x4300, []⟩
  | .txpush b => ⟨0x4400 ||| b.setWidth 16, []⟩
  | .txpop => ⟨0x2500, []⟩
  | .txocc => ⟨0x4600, []⟩
  | .ringrst m => ⟨0x6700 ||| m.setWidth 16, []⟩
  | .instep r => ⟨0x4800 ||| (BitVec.ofBool r).setWidth 16, []⟩
  | .outstep bytes => ⟨0x4900 ||| (countByte bytes).setWidth 16, bytes⟩
  | .tick => ⟨0xAA00, []⟩
  | .csrrd i => ⟨0xCF00 ||| i.setWidth 16, []⟩
  | .vbusoff => ⟨0x7000, []⟩
  | .vbuson => ⟨0x7001, []⟩
  | .suspend => ⟨0x7100, []⟩
  | .wake => ⟨0x7200, []⟩
  | .eorst => ⟨0x7300, []⟩
  | .addressed => ⟨0x7400, []⟩
  | .setcfg c => ⟨0x7500 ||| c.setWidth 16, []⟩
  | .getlc => ⟨0x9800, []⟩
  | .setlc baud fmt parity bits => ⟨0x9900, bytes32 baud ++ [fmt, parity, bits]⟩
  | .setcls v => ⟨0x9A00, bytes16 v⟩
  | .sendbrk v => ⟨0x9B00, bytes16 v⟩
  | .ctluns o bytes => ⟨0x9C00 ||| (o.setWidth 16 <<< 8) ||| (countByte bytes).setWidth 16, bytes⟩

/-- The command whose bits are `w`, numbered as spec/opcode_table.json numbers them: the word is bits 15:0, payload byte `i` is
bits 16 + 8i and up, every bit from `nbits` on is 0, and the payload has the length the word requires (30_encoding.md R78,
R87). DESIGN CHOICE (log 13): the spec lays no payload out in bits. -/
def tableCommand (nbits w : Nat) : Command :=
  let bits := w % 2 ^ nbits
  let word : Word := BitVec.ofNat 16 bits
  let len := match opRow (opField word) with
    | some row => requiredLen row.plen (d8Field word)
    | none => 0
  ⟨word, (List.range len).map fun i => BitVec.ofNat 8 (bits >>> (16 + 8 * i))⟩

/-- The instruction the decoder reads from the command whose bits are `w`. -/
def decodeTableWord (nbits w : Nat) : Option Instr :=
  match decode (tableCommand nbits w) with
  | .ok i => some i
  | .error _ => none

end Sys2Proof
end

