-- ==== Sys2Proof/Machine/State.lean ====
section
/-!
DEFINITION. The state of the machine as plain data: the block's own state, element for element as 10_state.md R17 lists it, with its
parameters; and the two lists by which the block meets its environment, the commands delivered and not yet taken, and the
responses given.
-/
namespace Sys2Proof.Machine

/-- A ring array as (index, byte) pairs, indices strictly rising, no pair equal to what an unlisted index reads as
(`blankByte`); the form is `Memory.wf` in `Machine/Ops.lean`. -/
abbrev Memory := List Host.Cell

/-- What a byte of a ring array that nothing has written reads as. DESIGN CHOICE (log 6), unsafe: 10_state.md R21 and R52 leave the
arrays' contents at block reset unspecified. No reachable state lets a command read such a byte (R21). -/
def blankByte : Byte := 0

/-- One ring: its write cursor, its read cursor and its byte array (10_state.md R18, R19, R21). A cursor has `K` bits in the
hardware and is held here in 8 (log 10). -/
structure Ring where
  w : Byte
  r : Byte
  buf : Memory
deriving DecidableEq, Repr

/-- The two output events (10_state.md R46). -/
inductive Event where
  /-- The UART must reprogram itself to this line encoding. -/
  | uartCfg (baud : BitVec 32) (fmt parity bits : Byte)
  /-- The external USB stack must re-initialise the control endpoint and clear the others. -/
  | epReinit
deriving DecidableEq, Repr

/-- A response: the number of the port it returns to, the response word and the response payload (30_encoding.md R79). -/
structure Response where
  port : BitVec 3
  word : Word
  payload : List Byte
deriving DecidableEq, Repr

/-- The complete state of the block (10_state.md R17), with its parameters (00_scope.md R6 to R8), which no command changes (R10). -/
structure Block where
  /-- The parameters. -/
  cfg : Config
  /-- `RX.W`, `RX.R`, `RXBUF`: the UART-to-USB ring. -/
  rx : Ring
  /-- `TX.W`, `TX.R`, `TXBUF`: the USB-to-UART ring. -/
  tx : Ring
  /-- `STATE` (R22). -/
  state : DevState
  /-- `PREV` (R24). -/
  prev : DevState
  /-- `CONFIG` (R25). -/
  config : Byte
  /-- `IEN_SUSP` (R26). -/
  ienSusp : Bool
  /-- `IEN_WAKE` (R26). -/
  ienWake : Bool
  /-- `BRIDGE` (R28): true is Bridging, false is WaitingForConfiguration. -/
  bridge : Bool
  /-- `FLUSH_PEND` (R29). -/
  flushPend : Bool
  /-- `RX_OVR` (R30). -/
  rxOvr : Bool
  /-- `FLUSH_CNT` (R31). -/
  flushCnt : Byte
  /-- `PULSE_RX` (R32). -/
  pulseRx : Byte
  /-- `PULSE_TX` (R32). -/
  pulseTx : Byte
  /-- `LC_BAUD` (R33). -/
  lcBaud : BitVec 32
  /-- `LC_FMT` (R33). -/
  lcFmt : Byte
  /-- `LC_PARITY` (R33). -/
  lcParity : Byte
  /-- `LC_BITS` (R33). -/
  lcBits : Byte
  /-- `CLS` (R34). -/
  cls : BitVec 16
  /-- `FAULT_CODE` (R35). -/
  faultCode : BitVec 4
  /-- `FAULT_MULTI` (R35). -/
  faultMulti : Bool
  /-- `FAULT_CMD` (R36). -/
  faultCmd : Byte
  /-- `TRACE` (R47), oldest event first. -/
  trace : List Event
deriving DecidableEq, Repr

/-- What the environment delivers to the block, one at a time. -/
inductive Input where
  /-- A command from an agent (30_encoding.md R71). -/
  | command (c : Command)
  /-- Block reset, the power-on reset (70_reset_and_hazards.md R176). -/
  | blockReset
deriving DecidableEq, Repr

/-- The machine: the block; the inputs the environment has decided on, in their total order (20_memory.md R63; the model's own field,
log 1); and the responses given since block reset, oldest first (70_reset_and_hazards.md R195; the model's own field, log 3). -/
structure State where
  block : Block
  inbox : List Input
  responses : List Response
deriving DecidableEq, Repr

/-- The reasons the machine could stop with a fault: none. A command that fails decoding takes the block's own fault, which is a next
state (60_exceptions.md R158, R161), and nothing else can go wrong (R156). Log 14. -/
inductive Fault where
deriving DecidableEq, Repr

/-- The reasons the machine refuses. -/
inductive Refusal where
  /-- Raised by an arm of `exec` whose instruction has no meaning yet: none is left. Safe. -/
  | notModelled (mnemonic : String)
  /-- Raised by `step` on parameters that are not well-formed: the spec has a model refuse them (00_scope.md R9, 70_reset_and_hazards.md
  R192). Safe. -/
  | illFormedConfig
deriving DecidableEq, Repr

/-- What a meaning answers. -/
abbrev Result := Host.Outcome State Fault Refusal

/-- A ring right after block reset: cursors 0, array unspecified (10_state.md R52; log 6). -/
def Ring.reset : Ring := { w := 0, r := 0, buf := [] }

/-- The block right after block reset, with its parameters (10_state.md R52). -/
def Block.reset (cfg : Config) : Block :=
  { cfg := cfg
    rx := Ring.reset
    tx := Ring.reset
    state := .unattached
    prev := .unattached
    config := 0
    ienSusp := true
    ienWake := false
    bridge := false
    flushPend := false
    rxOvr := false
    flushCnt := 0
    pulseRx := 0
    pulseTx := 0
    lcBaud := 0
    lcFmt := 0
    lcParity := 0
    lcBits := 0
    cls := 0
    faultCode := 0
    faultMulti := false
    faultCmd := 0
    trace := [] }

/-- The machine right after block reset with the parameters `cfg`: nothing delivered, nothing answered. -/
def State.resetWith (cfg : Config) : State :=
  { block := Block.reset cfg, inbox := [], responses := [] }

/-- The machine right after reset. DESIGN CHOICE (log 4), unsafe: the parameters are those of REF-A, which the spec's vectors use; the
spec gives the parameters no value. -/
def State.reset : State := State.resetWith Config.refA

end Sys2Proof.Machine
end

