-- ==== Sys2Proof/Machine/Flags.lean ====
section
/-!
DEFINITION. Everything the block computes from its state without storing it: the signal GATE, the output levels, the enable mask, the
packed observation bytes, and the condition that makes a drain due.
-/
namespace Sys2Proof.Machine

/-- The numeric code of a device-connection state (10_state.md R22). -/
def stateCode : DevState → BitVec 3
  | .unattached => 0
  | .powered => 1
  | .suspended => 2
  | .default => 3
  | .addressed => 4
  | .configured => 5

/-- The signal `GATE` (10_state.md R42). -/
def gate (k : Block) : Bool := decide (k.state = .configured) && decide (k.lcBaud ≠ 0)

/-- The output `LED_RX` (10_state.md R37). -/
def ledRx (k : Block) : Bool := decide (k.pulseRx ≠ 0)

/-- The output `LED_TX` (10_state.md R38). -/
def ledTx (k : Block) : Bool := decide (k.pulseTx ≠ 0)

/-- The output `RESET_LINE` (10_state.md R39): the DTR bit of `CLS`. -/
def resetLine (k : Block) : Bool := k.cls.getLsbD 0

/-- The output `CLK_FROZEN` (10_state.md R40). -/
def clkFrozen (k : Block) : Bool := decide (k.state = .suspended)

/-- The output `UART_EN` (10_state.md R41). -/
def uartEn (k : Block) : Bool := decide (k.lcBaud ≠ 0)

/-- The interrupt-enable mask `IEN`, bits 3 to 0: end of reset (hard-wired 1), wake, suspend, VBUS (hard-wired 1) (10_state.md R26). -/
def ienMask (k : Block) : BitVec 4 :=
  BitVec.ofBool true ++ BitVec.ofBool k.ienWake ++ BitVec.ofBool k.ienSusp ++ BitVec.ofBool true

/-- The observation byte DEVSTATE (10_state.md R48). -/
def devstateByte (k : Block) : Byte := 0#1 ++ stateCode k.prev ++ 0#1 ++ stateCode k.state

/-- The observation byte IEN (10_state.md R48). -/
def ienByte (k : Block) : Byte := 0#4 ++ ienMask k

/-- The observation byte MODE (10_state.md R48). -/
def modeByte (k : Block) : Byte :=
  0#5 ++ BitVec.ofBool k.rxOvr ++ BitVec.ofBool k.flushPend ++ BitVec.ofBool k.bridge

/-- The observation byte OUTS: the output levels (10_state.md R48, R49). -/
def outsByte (k : Block) : Byte :=
  0#3 ++ BitVec.ofBool (uartEn k) ++ BitVec.ofBool (clkFrozen k) ++ BitVec.ofBool (resetLine k)
    ++ BitVec.ofBool (ledTx k) ++ BitVec.ofBool (ledRx k)

/-- The observation byte FAULT (10_state.md R48). -/
def faultByte (k : Block) : Byte := BitVec.ofBool k.faultMulti ++ 0#3 ++ k.faultCode

/-- A drain of an RX ring holding `n` bytes is due: at the threshold, or after the flush timer with bytes waiting (44_arbiter.md R140). -/
def drainDue (k : Block) (n : Nat) : Bool :=
  decide (k.cfg.thresh ≤ n) || (k.flushPend && decide (0 < n))

end Sys2Proof.Machine
end

