-- ==== Sys2Proof/Machine/Ops.lean ====
section
/-!
DEFINITION. The operations every command is built from: the parameters' well-formedness, reading and writing a ring array, cursor
arithmetic, pushing and popping, ring reset, the mode update that ends every command, the response, taking a fault, block
reset, and how the environment's inputs are taken and ordered.
-/
namespace Sys2Proof.Machine

/-! ### Parameters -/

/-- A ring capacity the spec allows: a power of two from 2 to 256 (00_scope.md R6). -/
def isRingSize (n : Nat) : Bool := [2, 4, 8, 16, 32, 64, 128, 256].any fun size => n == size

/-- The parameters are well-formed (00_scope.md R6 to R9): every condition holds. -/
def configOk (c : Config) : Bool :=
  [ isRingSize c.nRx, isRingSize c.nTx,
    decide (1 ≤ c.thresh), decide (c.thresh ≤ c.nRx - 1), decide (c.thresh ≤ c.epInSize),
    decide (1 ≤ c.epInSize), decide (c.epInSize ≤ 255),
    decide (1 ≤ c.epOutSize), decide (c.epOutSize ≤ 255), decide (c.epOutSize ≤ c.nTx - 1),
    decide (1 ≤ c.flushTicks), decide (c.flushTicks ≤ 255),
    decide (1 ≤ c.pulseTicks), decide (c.pulseTicks ≤ 255) ].all fun holds => holds

/-- `MASK = N - 1` of a ring of `n` slots (00_scope.md R6). -/
def maskOf (n : Nat) : Byte := BitVec.ofNat 8 (n - 1)

/-- `MASK_RX`. -/
def maskRx (k : Block) : Byte := maskOf k.cfg.nRx

/-- `MASK_TX`. -/
def maskTx (k : Block) : Byte := maskOf k.cfg.nTx

/-- `PULSE_TICKS` as the 8-bit value a countdown is armed with (10_state.md R32). -/
def pulseLoad (k : Block) : Byte := BitVec.ofNat 8 k.cfg.pulseTicks

/-! ### Ring arrays -/

/-- `MemRead(BUF, a, 1)` (00_scope.md R12). -/
def memRead (a : Nat) : Memory → Byte
  | [] => blankByte
  | (b, x) :: m => if a = b then x else memRead a m

/-- `MemWrite(BUF, a, 1, v)` (00_scope.md R12), keeping the canonical form: a byte that reads as an unlisted one is not listed. -/
def memWrite (a : Nat) (v : Byte) : Memory → Memory
  | [] => if v = blankByte then [] else [(a, v)]
  | (b, x) :: m =>
    if a < b then (if v = blankByte then (b, x) :: m else (a, v) :: (b, x) :: m)
    else if a = b then (if v = blankByte then m else (a, v) :: m)
    else (b, x) :: memWrite a v m

/-- The canonical form from index `lo` on: indices strictly rising from `lo`, no listed byte blank. -/
def Memory.wfFrom (lo : Nat) : Memory → Bool
  | [] => true
  | (a, x) :: m => decide (lo ≤ a) && decide (x ≠ blankByte) && Memory.wfFrom (a + 1) m

/-- The canonical form of a ring array. -/
def Memory.wf (m : Memory) : Bool := Memory.wfFrom 0 m

/-- Every listed index is an index of an array of `n` bytes (20_memory.md R53, R57). -/
def Memory.within (n : Nat) (m : Memory) : Bool := m.all fun c => decide (c.1 < n)

/-! ### Cursors and occupancy -/

/-- A cursor advanced by `j`: `(c + j) & MASK` (41_ring.md R101). -/
def advance (mask c j : Byte) : Byte := (c + j) &&& mask

/-- `occ(r) = (W - R) & MASK` (00_scope.md R13). -/
def occ (mask : Byte) (q : Ring) : Byte := (q.w - q.r) &&& mask

/-- `empty(r)` (00_scope.md R13). -/
def isEmpty (q : Ring) : Bool := decide (q.w = q.r)

/-- `full(r)` (00_scope.md R13). -/
def isFull (mask : Byte) (q : Ring) : Bool := decide (occ mask q = mask)

/-- `free(r) = MASK - occ(r)` (00_scope.md R13). -/
def free (mask : Byte) (q : Ring) : Byte := mask - occ mask q

/-- The write cursor's byte is written, then the cursor advances by one (20_memory.md R65). -/
def pushByte (mask : Byte) (v : Byte) (q : Ring) : Ring :=
  { q with buf := memWrite q.w.toNat v q.buf, w := advance mask q.w 1 }

/-- The bytes are written at `(w + i) & MASK`, `(w + i + 1) & MASK`, … in order (44_arbiter.md R143). -/
def writeFrom (mask w : Byte) (i : Nat) : List Byte → Memory → Memory
  | [], m => m
  | v :: vs, m => writeFrom mask w (i + 1) vs (memWrite (advance mask w (BitVec.ofNat 8 i)).toNat v m)

/-- All the bytes are written, then the write cursor advances once by their number (44_arbiter.md R143). -/
def pushBytes (mask : Byte) (vs : List Byte) (q : Ring) : Ring :=
  { q with buf := writeFrom mask q.w 0 vs q.buf, w := advance mask q.w (BitVec.ofNat 8 vs.length) }

/-- The byte at the read cursor (41_ring.md R94). -/
def headByte (q : Ring) : Byte := memRead q.r.toNat q.buf

/-- The `n` oldest bytes, at `(R + i) & MASK` for `i` in `0 .. n-1` (44_arbiter.md R139). -/
def oldestBytes (mask : Byte) (n : Nat) (q : Ring) : List Byte :=
  (List.range n).map fun i => memRead (advance mask q.r (BitVec.ofNat 8 i)).toNat q.buf

/-- The read cursor advances once by `j` (41_ring.md R101). -/
def dropBytes (mask : Byte) (j : Byte) (q : Ring) : Ring := { q with r := advance mask q.r j }

/-- `ringreset(r)`: both cursors 0, the array left as it is (41_ring.md R102). -/
def ringReset (q : Ring) : Ring := { q with w := 0, r := 0 }

/-! ### Named updates of the block -/

/-- `ringreset(RX)`. -/
def resetRx (k : Block) : Block := { k with rx := ringReset k.rx }

/-- `ringreset(TX)`. -/
def resetTx (k : Block) : Block := { k with tx := ringReset k.tx }

/-- `PULSE_RX <- PULSE_TICKS` (44_arbiter.md R149). -/
def armRx (k : Block) : Block := { k with pulseRx := pulseLoad k }

/-- `PULSE_TX <- PULSE_TICKS` (44_arbiter.md R149). -/
def armTx (k : Block) : Block := { k with pulseTx := pulseLoad k }

/-- Both enables in one atomic write (42_usb_state.md R109, R112). -/
def setEnables (susp wake : Bool) (k : Block) : Block := { k with ienSusp := susp, ienWake := wake }

/-- `emit(E)`: the event goes to the end of `TRACE` (10_state.md R47). -/
def emit (e : Event) (k : Block) : Block := { k with trace := k.trace ++ [e] }

/-- The exit actions (44_arbiter.md R137). -/
def exitActions (k : Block) : Block :=
  { k with
    rx := ringReset k.rx
    tx := ringReset k.tx
    pulseRx := 0
    pulseTx := 0
    flushCnt := 0
    flushPend := false }

/-- `gate_update()`, which ends every command that does not fault (44_arbiter.md R136). -/
def gateUpdate (k : Block) : Block :=
  if k.bridge = true ∧ gate k = false then { exitActions k with bridge := false }
  else if k.bridge = false ∧ gate k = true then { k with bridge := true }
  else k

/-! ### Responses -/

/-- The status codes (30_encoding.md R80). -/
inductive Status where
  | ok
  | no
  | pending
  | ignored
  | fault
deriving DecidableEq, Repr

/-- The numeric status code (30_encoding.md R80). -/
def statusCode : Status → BitVec 4
  | .ok => 0x0
  | .no => 0x1
  | .pending => 0x2
  | .ignored => 0x3
  | .fault => 0xF

/-- The arguments of `respond(status, v, data, payload)` (00_scope.md R12). -/
structure Answer where
  status : Status
  v : Bool
  data : Byte
  payload : List Byte
deriving DecidableEq, Repr

/-- `respond(OK, 0, 0)`. -/
def answerOk : Answer := ⟨.ok, false, 0, []⟩

/-- `respond(OK, 1, d)`. -/
def answerValue (d : Byte) : Answer := ⟨.ok, true, d, []⟩

/-- `respond(OK, 1, d, p)`. -/
def answerPayload (d : Byte) (p : List Byte) : Answer := ⟨.ok, true, d, p⟩

/-- `respond(NO, 0, 0)`. -/
def answerNo : Answer := ⟨.no, false, 0, []⟩

/-- `respond(PENDING, 1, d)`. -/
def answerPending (d : Byte) : Answer := ⟨.pending, true, d, []⟩

/-- `respond(IGNORED, 0, 0)`. -/
def answerIgnored : Answer := ⟨.ignored, false, 0, []⟩

/-- The response of a fault (60_exceptions.md R158). -/
def answerFault (e : FaultCode) : Answer := ⟨.fault, true, 0#4 ++ e.code, []⟩

/-- The response word: STATUS, three zero bits, V, DATA (30_encoding.md R79). -/
def responseWord (a : Answer) : Word := statusCode a.status ++ 0#3 ++ BitVec.ofBool a.v ++ a.data

/-- The answer is returned to the port of that number (30_encoding.md R79). -/
def respond (port : BitVec 3) (a : Answer) (s : State) : State :=
  { s with responses := s.responses ++ [⟨port, responseWord a, a.payload⟩] }

/-- How every command that does not fault ends: the block its rule left, `gate_update`, the response (30_encoding.md R72). -/
def complete (port : Port) (s : State) (done : Block × Answer) : Result :=
  .next (respond port.code done.2 { s with block := gateUpdate done.1 })

/-! ### Taking a fault -/

/-- The sticky fault record: the first fault's code and the upper half of its word, or the mark of a later one (60_exceptions.md R158). -/
def recordFault (e : FaultCode) (w : Word) (k : Block) : Block :=
  if k.faultCode = 0 then { k with faultCode := e.code, faultCmd := w.extractLsb' 8 8 }
  else { k with faultMulti := true }

/-- A command faults: the record and the response, nothing else, and no `gate_update` (60_exceptions.md R158, R160). There is no return
from it (R162). -/
def takeFault (e : FaultCode) (c : Command) (s : State) : State :=
  respond (portField c.word) (answerFault e) { s with block := recordFault e c.word s.block }

/-- The last check of decoding: more bytes than one OUT transfer holds (30_encoding.md R81). -/
def oversize (cfg : Config) (c : Command) : Bool :=
  decide (opField c.word = 0x09) && decide (cfg.epOutSize < (d8Field c.word).toNat)

/-- All the checks of 30_encoding.md R81, in order. -/
def decodeFor (cfg : Config) (c : Command) : Except FaultCode Instr :=
  match decode c with
  | .error e => .error e
  | .ok i => if oversize cfg c then .error .outOversize else .ok i

/-! ### Block reset and the environment -/

/-- Block reset (70_reset_and_hazards.md R176): the block as after power-on, the parameters kept (00_scope.md R10). DESIGN CHOICE (log 11): the
record of responses starts anew with the run (R195), and inputs not yet taken stay for the block to take. -/
def blockReset (s : State) : State :=
  { block := Block.reset s.block.cfg, inbox := s.inbox, responses := [] }

/-- The next input and the machine without it; none when nothing is delivered. -/
def takeInput (s : State) : Option (Input × State) :=
  match s.inbox with
  | [] => none
  | input :: rest => some (input, { s with inbox := rest })

/-- The rank of a port number among commands presented in the same cycle: DEV, CTL, URX, UTX, SCH, TCK, OBS (60_exceptions.md R164). Port 7
names no agent; it comes last, a DESIGN CHOICE (log 12). -/
def portRank (port : BitVec 3) : Nat :=
  match port.toNat with
  | 3 => 0
  | 4 => 1
  | 0 => 2
  | 1 => 3
  | 2 => 4
  | 5 => 5
  | 6 => 6
  | _ => 7

/-- The command goes before the first one of equal or later rank. -/
def insertByRank (c : Command) : List Command → List Command
  | [] => [c]
  | d :: ds =>
    if portRank (portField c.word) ≤ portRank (portField d.word) then c :: d :: ds
    else d :: insertByRank c ds

/-- The order in which the commands of one cycle are performed (60_exceptions.md R164); each agent's own commands keep their order
(R171). -/
def arbitrate : List Command → List Command
  | [] => []
  | c :: cs => insertByRank c (arbitrate cs)

/-- The environment presents these commands in one cycle, after every input already delivered (60_exceptions.md R164). -/
def State.present (cs : List Command) (s : State) : State :=
  { s with inbox := s.inbox ++ (arbitrate cs).map Input.command }

end Sys2Proof.Machine
end

