-- ==== Sys2Proof/Machine/Operands.lean ====
section
/-!
DEFINITION. The operand forms with a meaning of their own: the line-encoding payload and its validity, the states that accept control
requests, the powered states and the wake target, and the observation index.
-/
namespace Sys2Proof.Machine

/-- The 7-byte line-encoding payload: the baud rate least significant byte first, then format, parity and data bits (43_cdc_control.md R123). -/
def lineEncoding (k : Block) : List Byte := bytes32 k.lcBaud ++ [k.lcFmt, k.lcParity, k.lcBits]

/-- A line-encoding payload is valid; the baud rate may be any value (43_cdc_control.md R125). -/
def validEncoding (fmt parity bits : Byte) : Bool :=
  decide (fmt ∈ [0, 2]) && decide (parity ∈ [0, 1, 2]) && decide (bits ∈ [5, 6, 7, 8])

/-- `CTL_STATES`: the states in which control requests are accepted (43_cdc_control.md R122). -/
def acceptsControl (d : DevState) : Bool := decide (d ∈ [.default, .addressed, .configured])

/-- `POWERED`: every state but Unattached and Suspended (42_usb_state.md R105). -/
def isPowered (d : DevState) : Bool := decide (d ∈ [.powered, .default, .addressed, .configured])

/-- `wake_target(p)` for a powered `p` (42_usb_state.md R105). The spec states no target for Unattached and Suspended, which `PREV` never holds
while Suspended (10_state.md R24): a free value there, DESIGN CHOICE (log 8). -/
def wakeTarget : DevState → DevState
  | .powered => .powered
  | .default => .powered
  | .addressed => .addressed
  | .configured => .configured
  | .unattached => Config.wakeTargetUnstated .unattached
  | .suspended => Config.wakeTargetUnstated .suspended

/-- The observation map: the state (10_state.md R48), its derived fields (R49) and the parameters (R50), by index. -/
def csrMap (k : Block) : List (Byte × Byte) :=
  [ (0x00, k.rx.w), (0x01, k.rx.r), (0x02, k.tx.w), (0x03, k.tx.r),
    (0x04, devstateByte k), (0x05, ienByte k), (0x06, k.config), (0x07, modeByte k),
    (0x08, k.flushCnt), (0x09, k.pulseRx), (0x0A, k.pulseTx), (0x0B, outsByte k),
    (0x0C, faultByte k), (0x0D, k.faultCmd),
    (0x10, k.lcBaud.extractLsb' 0 8), (0x11, k.lcBaud.extractLsb' 8 8),
    (0x12, k.lcBaud.extractLsb' 16 8), (0x13, k.lcBaud.extractLsb' 24 8),
    (0x14, k.lcFmt), (0x15, k.lcParity), (0x16, k.lcBits),
    (0x18, k.cls.extractLsb' 0 8), (0x19, k.cls.extractLsb' 8 8),
    (0x20, maskRx k), (0x21, maskTx k), (0x22, BitVec.ofNat 8 k.cfg.thresh),
    (0x23, BitVec.ofNat 8 k.cfg.epInSize), (0x24, BitVec.ofNat 8 k.cfg.epOutSize),
    (0x25, BitVec.ofNat 8 k.cfg.flushTicks), (0x26, BitVec.ofNat 8 k.cfg.pulseTicks) ]

/-- The byte at an observation index; an index the map does not list is reserved and reads 0 (10_state.md R51). -/
def csrRead (k : Block) (i : Byte) : Byte := ((csrMap k).lookup i).getD 0

end Sys2Proof.Machine
end

