-- ==== Sys2Proof/Machine/Arbiter.lean ====
section
/-!
DEFINITION. The backpressure arbiter's commands (44_arbiter.md): the IN drain, the OUT accept-or-pend, and the tick that advances the
timers. The mode and the exit actions are `gateUpdate` and `exitActions` in `Machine/Ops.lean`.
-/
namespace Sys2Proof.Machine

/-- The bytes a due drain moves: `min(occ(RX), EP_IN_SIZE)` (44_arbiter.md R141). -/
def drainCount (k : Block) : Nat := min (occ (maskRx k) k.rx).toNat k.cfg.epInSize

/-- The rule of INSTEP (44_arbiter.md R139 to R141). -/
def ruleInstep (r : Bool) (k : Block) : Block × Answer :=
  if k.bridge = false ∨ r = false then (k, answerNo)
  else if drainDue k (occ (maskRx k) k.rx).toNat then
    let n : Byte := BitVec.ofNat 8 (drainCount k)
    (armRx { k with rx := dropBytes (maskRx k) n k.rx, flushPend := false },
      answerPayload n (oldestBytes (maskRx k) (drainCount k) k.rx))
  else (k, answerNo)

/-- INSTEP r (44_arbiter.md R139). -/
def execInstep (r : Bool) (s : State) : Result := complete .sch s (ruleInstep r s.block)

/-- The rule of OUTSTEP (44_arbiter.md R142 to R144): all of the transfer, or none of it. -/
def ruleOutstep (bytes : List Byte) (k : Block) : Block × Answer :=
  if k.bridge = false then (k, answerNo)
  else if bytes.length ≤ (free (maskTx k) k.tx).toNat then
    let k1 := { k with tx := pushBytes (maskTx k) bytes k.tx }
    (if bytes.length = 0 then k1 else armTx k1, answerValue (BitVec.ofNat 8 bytes.length))
  else (k, answerPending (free (maskTx k) k.tx))

/-- OUTSTEP n [bytes] (44_arbiter.md R142). -/
def execOutstep (bytes : List Byte) (s : State) : Result := complete .sch s (ruleOutstep bytes s.block)

/-- The flush timer's part of a tick, in BRIDGE only (44_arbiter.md R145, R146). -/
def flushTick (k : Block) : Block :=
  if k.bridge = false then k
  else if k.flushCnt.toNat + 1 = k.cfg.flushTicks then { k with flushCnt := 0, flushPend := true }
  else { k with flushCnt := k.flushCnt + 1 }

/-- A pulse countdown's part of a tick (44_arbiter.md R148). -/
def countDown (p : Byte) : Byte := if p = 0 then 0 else p - 1

/-- The rule of TICK (44_arbiter.md R145). -/
def ruleTick (k : Block) : Block × Answer :=
  let k1 := flushTick k
  ({ k1 with pulseRx := countDown k1.pulseRx, pulseTx := countDown k1.pulseTx }, answerOk)

/-- TICK (44_arbiter.md R145). -/
def execTick (s : State) : Result := complete .tck s (ruleTick s.block)

end Sys2Proof.Machine
end

