-- ==== Sys2Proof/Machine/CdcControl.lean ====
section
/-!
DEFINITION. The commands of the control port (43_cdc_control.md): the CDC class requests and the unsupported-request space.
-/
namespace Sys2Proof.Machine

/-- The rule of GETLC (43_cdc_control.md R124). -/
def ruleGetlc (k : Block) : Block × Answer :=
  if acceptsControl k.state = false then (k, answerIgnored)
  else (k, answerPayload 7 (lineEncoding k))

/-- GETLC (43_cdc_control.md R124). -/
def execGetlc (s : State) : Result := complete .ctl s (ruleGetlc s.block)

/-- The rule of SETLC (43_cdc_control.md R126 to R128): the four fields in one write, the TX flush, the `UART_CFG` event. -/
def ruleSetlc (baud : BitVec 32) (fmt parity bits : Byte) (k : Block) : Block × Answer :=
  if acceptsControl k.state = false then (k, answerIgnored)
  else if validEncoding fmt parity bits = false then (k, answerIgnored)
  else
    (emit (.uartCfg baud fmt parity bits)
      (resetTx { k with lcBaud := baud, lcFmt := fmt, lcParity := parity, lcBits := bits }), answerOk)

/-- SETLC baud, fmt, parity, bits (43_cdc_control.md R126). -/
def execSetlc (baud : BitVec 32) (fmt parity bits : Byte) (s : State) : Result :=
  complete .ctl s (ruleSetlc baud fmt parity bits s.block)

/-- The rule of SETCLS (43_cdc_control.md R129). -/
def ruleSetcls (v : BitVec 16) (k : Block) : Block × Answer :=
  if acceptsControl k.state = false then (k, answerIgnored) else ({ k with cls := v }, answerOk)

/-- SETCLS v (43_cdc_control.md R129). -/
def execSetcls (v : BitVec 16) (s : State) : Result := complete .ctl s (ruleSetcls v s.block)

/-- The rule of SENDBRK, whose duration is not used (43_cdc_control.md R130). -/
def ruleSendbrk (_v : BitVec 16) (k : Block) : Block × Answer :=
  if acceptsControl k.state = false then (k, answerIgnored) else (k, answerOk)

/-- SENDBRK v (43_cdc_control.md R130). -/
def execSendbrk (v : BitVec 16) (s : State) : Result := complete .ctl s (ruleSendbrk v s.block)

/-- CTLUNS.(0x1C + o) [bytes]: ignored in every state, whatever it carries (43_cdc_control.md R131). -/
def execCtluns (_o : BitVec 2) (_bytes : List Byte) (s : State) : Result :=
  complete .ctl s (s.block, answerIgnored)

end Sys2Proof.Machine
end

