-- ==== Sys2Proof/Machine/RingCommands.lean ====
section
/-!
DEFINITION. The ring engine's commands (41_ring.md): for each, its rule on the block, and its meaning, which ends as every command does
(`complete`).
-/
namespace Sys2Proof.Machine

/-- The rule of RXPUSH (41_ring.md R93). -/
def ruleRxpush (b : Byte) (k : Block) : Block × Answer :=
  if k.bridge = false then (k, answerNo)
  else if isFull (maskRx k) k.rx then ({ k with rxOvr := true }, answerNo)
  else ({ k with rx := pushByte (maskRx k) b k.rx }, answerOk)

/-- RXPUSH b (41_ring.md R93). -/
def execRxpush (b : Byte) (s : State) : Result := complete .urx s (ruleRxpush b s.block)

/-- The rule of RXPOP (41_ring.md R94). -/
def ruleRxpop (k : Block) : Block × Answer :=
  if isEmpty k.rx then (k, answerNo)
  else (armRx { k with rx := dropBytes (maskRx k) 1 k.rx }, answerValue (headByte k.rx))

/-- RXPOP (41_ring.md R94). -/
def execRxpop (s : State) : Result := complete .sch s (ruleRxpop s.block)

/-- RXOCC (41_ring.md R95). -/
def execRxocc (s : State) : Result := complete .sch s (s.block, answerValue (occ (maskRx s.block) s.block.rx))

/-- The rule of TXPUSH (41_ring.md R97). -/
def ruleTxpush (b : Byte) (k : Block) : Block × Answer :=
  if k.bridge = false ∨ isFull (maskTx k) k.tx = true then (k, answerNo)
  else (armTx { k with tx := pushByte (maskTx k) b k.tx }, answerOk)

/-- TXPUSH b (41_ring.md R97). -/
def execTxpush (b : Byte) (s : State) : Result := complete .sch s (ruleTxpush b s.block)

/-- The rule of TXPOP (41_ring.md R98). -/
def ruleTxpop (k : Block) : Block × Answer :=
  if isEmpty k.tx then (k, answerNo)
  else ({ k with tx := dropBytes (maskTx k) 1 k.tx }, answerValue (headByte k.tx))

/-- TXPOP (41_ring.md R98). -/
def execTxpop (s : State) : Result := complete .utx s (ruleTxpop s.block)

/-- TXOCC (41_ring.md R99). -/
def execTxocc (s : State) : Result := complete .sch s (s.block, answerValue (occ (maskTx s.block) s.block.tx))

/-- The rule of RINGRST (41_ring.md R103): bit 0 of the mask resets RX, then bit 1 resets TX. -/
def ruleRingrst (m : BitVec 2) (k : Block) : Block × Answer :=
  let k1 := if m.getLsbD 0 then resetRx k else k
  let k2 := if m.getLsbD 1 then resetTx k1 else k1
  (k2, answerOk)

/-- RINGRST m (41_ring.md R103). -/
def execRingrst (m : BitVec 2) (s : State) : Result := complete .dev s (ruleRingrst m s.block)

end Sys2Proof.Machine
end

