-- ==== Sys2Proof/Machine/SystemCommands.lean ====
section
/-!
DEFINITION. The two commands that belong to no data path (45_system.md): NOP on every port, and the observation read.
-/
namespace Sys2Proof.Machine

/-- NOP.port (45_system.md R152). -/
def execNop (port : Port) (s : State) : Result := complete port s (s.block, answerOk)

/-- CSRRD i (45_system.md R153). -/
def execCsrrd (i : Byte) (s : State) : Result := complete .obs s (s.block, answerValue (csrRead s.block i))

end Sys2Proof.Machine
end

