-- ==== Sys2Proof/Machine/UsbState.lean ====
section
/-!
DEFINITION. The commands of the device port that drive the device-connection state machine (42_usb_state.md). `complete` runs `gate_update`
after each, which performs the exit actions when a transition leaves the gate.
-/
namespace Sys2Proof.Machine

/-- The rule of VBUSON (42_usb_state.md R106). -/
def ruleVbuson (k : Block) : Block × Answer :=
  if k.state = .unattached then ({ k with state := .powered }, answerOk) else (k, answerIgnored)

/-- VBUSON (42_usb_state.md R106). -/
def execVbuson (s : State) : Result := complete .dev s (ruleVbuson s.block)

/-- The rule of VBUSOFF (42_usb_state.md R107). -/
def ruleVbusoff (k : Block) : Block × Answer :=
  if k.state = .unattached then (k, answerIgnored)
  else
    (resetTx (resetRx (setEnables true false
      { k with state := .unattached, prev := .unattached, config := 0, cls := 0 })), answerOk)

/-- VBUSOFF (42_usb_state.md R107). -/
def execVbusoff (s : State) : Result := complete .dev s (ruleVbusoff s.block)

/-- The rule of SUSPEND (42_usb_state.md R108, R109). -/
def ruleSuspend (k : Block) : Block × Answer :=
  if k.ienSusp = true ∧ isPowered k.state = true then
    (setEnables false true { k with prev := k.state, state := .suspended }, answerOk)
  else (k, answerIgnored)

/-- SUSPEND (42_usb_state.md R108). -/
def execSuspend (s : State) : Result := complete .dev s (ruleSuspend s.block)

/-- The rule of WAKE (42_usb_state.md R110 to R112). -/
def ruleWake (k : Block) : Block × Answer :=
  if k.ienWake = true ∧ k.state = .suspended then
    (setEnables true false { k with state := wakeTarget k.prev, prev := .unattached }, answerOk)
  else (k, answerIgnored)

/-- WAKE (42_usb_state.md R110). -/
def execWake (s : State) : Result := complete .dev s (ruleWake s.block)

/-- The rule of EORST, from every state (42_usb_state.md R113). -/
def ruleEorst (k : Block) : Block × Answer :=
  (emit .epReinit (setEnables true false
    { k with state := .default, prev := .unattached, config := 0, cls := 0 }), answerOk)

/-- EORST (42_usb_state.md R113). -/
def execEorst (s : State) : Result := complete .dev s (ruleEorst s.block)

/-- The rule of ADDRESSED (42_usb_state.md R114). -/
def ruleAddressed (k : Block) : Block × Answer :=
  if k.state = .default then ({ k with state := .addressed }, answerOk) else (k, answerIgnored)

/-- ADDRESSED (42_usb_state.md R114). -/
def execAddressed (s : State) : Result := complete .dev s (ruleAddressed s.block)

/-- The rule of SETCFG (42_usb_state.md R115). -/
def ruleSetcfg (c : Byte) (k : Block) : Block × Answer :=
  if k.state = .addressed ∨ k.state = .configured then
    if c ≠ 0 then
      ({ resetTx (resetRx { k with state := .configured, config := c }) with
          flushCnt := 0, flushPend := false }, answerOk)
    else ({ k with state := .addressed, config := 0 }, answerOk)
  else (k, answerIgnored)

/-- SETCFG c (42_usb_state.md R115). -/
def execSetcfg (c : Byte) (s : State) : Result := complete .dev s (ruleSetcfg c s.block)

end Sys2Proof.Machine
end

