-- ==== Sys2Proof/Machine/Dispatch.lean ====
section
/-! DEFINITION. The meaning of every instruction: one arm per constructor of `Instr`, each a direct call of its meaning. -/
namespace Sys2Proof.Machine

def exec (i : Instr) (s : State) : Host.Outcome State Fault Refusal :=
  match i with
  | .nop port => Sys2Proof.Machine.execNop port s
  | .rxpush b => Sys2Proof.Machine.execRxpush b s
  | .rxpop => Sys2Proof.Machine.execRxpop s
  | .rxocc => Sys2Proof.Machine.execRxocc s
  | .txpush b => Sys2Proof.Machine.execTxpush b s
  | .txpop => Sys2Proof.Machine.execTxpop s
  | .txocc => Sys2Proof.Machine.execTxocc s
  | .ringrst m => Sys2Proof.Machine.execRingrst m s
  | .instep r => Sys2Proof.Machine.execInstep r s
  | .outstep bytes => Sys2Proof.Machine.execOutstep bytes s
  | .tick => Sys2Proof.Machine.execTick s
  | .csrrd idx => Sys2Proof.Machine.execCsrrd idx s
  | .vbusoff => Sys2Proof.Machine.execVbusoff s
  | .vbuson => Sys2Proof.Machine.execVbuson s
  | .suspend => Sys2Proof.Machine.execSuspend s
  | .wake => Sys2Proof.Machine.execWake s
  | .eorst => Sys2Proof.Machine.execEorst s
  | .addressed => Sys2Proof.Machine.execAddressed s
  | .setcfg c => Sys2Proof.Machine.execSetcfg c s
  | .getlc => Sys2Proof.Machine.execGetlc s
  | .setlc baud fmt parity bits => Sys2Proof.Machine.execSetlc baud fmt parity bits s
  | .setcls v => Sys2Proof.Machine.execSetcls v s
  | .sendbrk v => Sys2Proof.Machine.execSendbrk v s
  | .ctluns o bytes => Sys2Proof.Machine.execCtluns o bytes s

end Sys2Proof.Machine
end

