-- ==== Sys2Proof/Machine/Step.lean ====
section
/-!
DEFINITION. One step: the block takes the next input and performs it whole (30_encoding.md R72). With nothing delivered it waits
(70_reset_and_hazards.md R178).
-/
namespace Sys2Proof.Machine

/-- One step of the machine. A command that decodes is executed; one that does not takes the block's fault; block reset resets. On
parameters that are not well-formed the model refuses to run (00_scope.md R9). -/
def step (s : State) : Host.Outcome State Fault Refusal :=
  if configOk s.block.cfg = false then .refused .illFormedConfig
  else
    match takeInput s with
    | none => .next s
    | some (.blockReset, s') => .next (blockReset s')
    | some (.command c, s') =>
      match decodeFor s.block.cfg c with
      | .error e => .next (takeFault e c s')
      | .ok i => exec i s'

/-- The machine with the command whose bits are `w` delivered as the very next input (log 1, log 13). -/
def State.withFetchWord (s : State) (nbits w : Nat) : State :=
  { s with inbox := .command (tableCommand nbits w) :: s.inbox }

end Sys2Proof.Machine
end

