-- ==== Sys2Proof/Safety.lean ====
section
/-!
DEFINITION. The terms the statements use: the invariant of the reachable states, the queue a ring stands for, how a command completes,
sequences of commands, and the tables of the spec written a second time, in the spec's own shape, for statements to compare
the model with.
-/
namespace Sys2Proof.Machine

/-! ### Invariants -/

/-- The bridge mode is the signal GATE (10_state.md R43). -/
abbrev GateInSync (k : Block) : Prop := k.bridge = gate k

/-- A ring of `n` slots holds what its hardware can hold: both cursors at most `MASK` (10_state.md R18, R19), and an array in canonical form whose
indices are below `n` (20_memory.md R53). -/
structure RingOk (n : Nat) (q : Ring) : Prop where
  writeCursor : q.w.toNat ≤ n - 1
  readCursor : q.r.toNat ≤ n - 1
  canonical : q.buf.wf = true
  inRange : q.buf.within n = true

/-- What holds in every reachable state of the block, field by field as 10_state.md gives it. -/
structure Block.Inv (k : Block) : Prop where
  /-- The parameters are well-formed (00_scope.md R9). -/
  parameters : configOk k.cfg = true
  rxRing : RingOk k.cfg.nRx k.rx
  txRing : RingOk k.cfg.nTx k.tx
  /-- R43. -/
  gateInSync : GateInSync k
  /-- In WAIT both rings are empty (R44). -/
  waitRings : k.bridge = false → k.rx.w = k.rx.r ∧ k.tx.w = k.tx.r
  /-- In WAIT the flush timer is clear (44_arbiter.md R138). -/
  waitTimer : k.bridge = false → k.flushCnt = 0 ∧ k.flushPend = false
  /-- Exactly one of the suspend and wake enables is on (R27). -/
  enables : k.ienWake = decide (k.state = .suspended) ∧ k.ienSusp = decide (k.state ≠ .suspended)
  /-- R24: inside Suspended, `PREV` is a powered state; outside, it is 0. -/
  savedState : if k.state = .suspended then isPowered k.prev = true else k.prev = .unattached
  /-- R25, and what a wake back into Configured needs. -/
  configured : k.state = .configured ∨ k.prev = .configured → k.config ≠ 0
  /-- R31. -/
  flushBelow : k.flushCnt.toNat < k.cfg.flushTicks
  /-- R32. -/
  pulsesBelow : k.pulseRx.toNat ≤ k.cfg.pulseTicks ∧ k.pulseTx.toNat ≤ k.cfg.pulseTicks
  /-- Fault codes 6 to 15 are never produced (60_exceptions.md R157). -/
  faultCodes : k.faultCode.toNat ≤ 5
  /-- Nothing is recorded before the first fault (60_exceptions.md R158). -/
  faultRecord : k.faultCode = 0 → k.faultMulti = false ∧ k.faultCmd = 0
  /-- The line encoding is the all-zero default or a valid one (43_cdc_control.md R125, R126). -/
  encoding : (k.lcBaud = 0 ∧ k.lcFmt = 0 ∧ k.lcParity = 0 ∧ k.lcBits = 0)
    ∨ validEncoding k.lcFmt k.lcParity k.lcBits = true

/-- The machine's invariant is the block's. -/
def State.Inv (s : State) : Prop := s.block.Inv

/-! ### Rings as queues -/

/-- The bytes a ring holds, oldest first: the slots from the read cursor on, as many as its occupancy (00_scope.md R13). -/
def queue (mask : Byte) (q : Ring) : List Byte := oldestBytes mask (occ mask q).toNat q

/-- The bytes in the RX ring. -/
def rxQueue (k : Block) : List Byte := queue (maskRx k) k.rx

/-- The bytes in the TX ring. -/
def txQueue (k : Block) : List Byte := queue (maskTx k) k.tx

/-- Two blocks differ at most in ring bytes outside the occupied slots. -/
def SameVisible (a b : Block) : Prop :=
  rxQueue a = rxQueue b ∧ txQueue a = txQueue b
    ∧ { a with rx := { a.rx with buf := b.rx.buf }, tx := { a.tx with buf := b.tx.buf } } = b

/-! ### How commands complete -/

/-- The instruction runs: the next state holds the block `k` and one more response, to the port of that number, with that word and
payload; the inputs not yet taken are untouched. -/
def CompletesWith (i : Instr) (s : State) (k : Block) (port : BitVec 3) (word : Word) (payload : List Byte) : Prop :=
  exec i s = .next { block := k, inbox := s.inbox, responses := s.responses ++ [⟨port, word, payload⟩] }

/-- The block after leaving BRIDGE, if it was in BRIDGE: the exit actions and the mode (44_arbiter.md R136, R137), written out. -/
def leftBridge (k : Block) : Block :=
  if k.bridge = true then
    { k with
      rx := { w := 0, r := 0, buf := k.rx.buf }
      tx := { w := 0, r := 0, buf := k.tx.buf }
      pulseRx := 0
      pulseTx := 0
      flushCnt := 0
      flushPend := false
      bridge := false }
  else k

/-- The instructions are executed one after another; none if one of them gives no next state. -/
def runAll : List Instr → State → Option State
  | [], s => some s
  | i :: is, s =>
    match exec i s with
    | .next t => runAll is t
    | .fault _ => none
    | .refused _ => none

/-! ### The spec's tables, written again -/

/-- The reserved operation numbers (30_encoding.md R82). -/
def specReservedOps : List (BitVec 5) := [0x0B, 0x0C, 0x0D, 0x0E, 0x16, 0x17]

/-- The port numbers that own an operation, grouped by port as 60_exceptions.md R171 groups them. -/
def specOwners (op : BitVec 5) : List (BitVec 3) :=
  if op = 0x00 then [0, 1, 2, 3, 4, 5, 6]
  else if op = 0x01 then [0]
  else if op = 0x05 then [1]
  else if op ∈ ([0x02, 0x03, 0x04, 0x06, 0x08, 0x09] : List (BitVec 5)) then [2]
  else if op ∈ ([0x07, 0x10, 0x11, 0x12, 0x13, 0x14, 0x15] : List (BitVec 5)) then [3]
  else if op ∈ ([0x18, 0x19, 0x1A, 0x1B, 0x1C, 0x1D, 0x1E, 0x1F] : List (BitVec 5)) then [4]
  else if op = 0x0A then [5]
  else if op = 0x0F then [6]
  else []

/-- `RESV(op)` in the words of 30_encoding.md R81. -/
def specReservedBits (op : BitVec 5) : Byte :=
  if op ∈ ([0x01, 0x04, 0x09, 0x0F, 0x15, 0x1C, 0x1D, 0x1E, 0x1F] : List (BitVec 5)) then 0x00
  else if op = 0x07 then 0xFC
  else if op = 0x08 ∨ op = 0x10 then 0xFE
  else 0xFF

/-- `PLEN(op, D8)` in the words of 30_encoding.md R78. -/
def specPayloadLen (op : BitVec 5) (d8 : Byte) : Nat :=
  if op = 0x19 then 7
  else if op = 0x1A ∨ op = 0x1B then 2
  else if op ∈ ([0x09, 0x1C, 0x1D, 0x1E, 0x1F] : List (BitVec 5)) then d8.toNat
  else 0

/-- The exceptions of one command rule: `ROLE` off the owning port, `RESV` when a bit of `resv` is set, `PAYLOAD_LEN` unless the payload has the
required length, and otherwise it decodes. -/
structure CommandFaults (op : BitVec 5) (port : BitVec 3) (resv : Byte) (len : Byte → Nat) : Prop where
  roleFault : ∀ (p : BitVec 3) (d8 : Byte) (payload : List Byte), p ≠ 7 → p ≠ port →
    decode ⟨mkWord p op d8, payload⟩ = .error .role
  reservedFault : ∀ (d8 : Byte) (payload : List Byte), d8 &&& resv ≠ 0 →
    decode ⟨mkWord port op d8, payload⟩ = .error .resv
  lengthFault : ∀ (d8 : Byte) (payload : List Byte), d8 &&& resv = 0 → payload.length ≠ len d8 →
    decode ⟨mkWord port op d8, payload⟩ = .error .payloadLen
  decodes : ∀ (d8 : Byte) (payload : List Byte), d8 &&& resv = 0 → payload.length = len d8 →
    ∃ i, decode ⟨mkWord port op d8, payload⟩ = .ok i

/-- The commands that drive the device-connection state machine (42_usb_state.md R120). -/
def isDeviceEvent : Instr → Bool
  | .vbuson | .vbusoff | .suspend | .wake | .eorst | .addressed | .setcfg _ => true
  | _ => false

/-- The commands of the control port (43_cdc_control.md R122). -/
def isControlCommand : Instr → Bool
  | .getlc | .setlc _ _ _ _ | .setcls _ | .sendbrk _ | .ctluns _ _ => true
  | _ => false

/-- The commands of the UART, scheduler, tick and observation ports, and NOP: they reset no ring and leave the gate alone. -/
def isDataCommand : Instr → Bool
  | .nop _ | .rxpush _ | .rxpop | .rxocc | .txpush _ | .txpop | .txocc | .instep _ | .outstep _ | .tick | .csrrd _ => true
  | _ => false

/-- The commands of 45_system.md, which change nothing (R154). -/
def isObservation : Instr → Bool
  | .nop _ | .csrrd _ => true
  | _ => false

/-- A command takes the block out of BRIDGE, which runs the exit actions (44_arbiter.md R136, R137). -/
abbrev LeavesBridge (before after : Block) : Prop := before.bridge = true ∧ after.bridge = false

/-- The causes of a reset of the RX ring (41_ring.md R102): RINGRST with bit 0, VBUSOFF, SETCFG with a nonzero number, and the exit actions. -/
abbrev ResetsRx (i : Instr) (before after : Block) : Prop :=
  (∃ m, m.getLsbD 0 = true ∧ i = .ringrst m) ∨ i = .vbusoff ∨ (∃ c, c ≠ 0 ∧ i = .setcfg c) ∨ LeavesBridge before after

/-- The causes of a reset of the TX ring (41_ring.md R102): RINGRST with bit 1, VBUSOFF, SETCFG with a nonzero number, SETLC, and the exit
actions. -/
abbrev ResetsTx (i : Instr) (before after : Block) : Prop :=
  (∃ m, m.getLsbD 1 = true ∧ i = .ringrst m) ∨ i = .vbusoff ∨ (∃ c, c ≠ 0 ∧ i = .setcfg c)
    ∨ (∃ b f p d, i = .setlc b f p d) ∨ LeavesBridge before after

/-- The transition table of 42_usb_state.md R120, row by row: the next state, or none where the event is ignored. The wake entry is
for the saved state `prev`. -/
def specTransition (d prev : DevState) (event : Instr) : Option DevState :=
  match d, event with
  | .unattached, .vbuson => some .powered
  | .unattached, .eorst => some .default
  | .powered, .vbusoff => some .unattached
  | .powered, .suspend => some .suspended
  | .powered, .eorst => some .default
  | .suspended, .vbusoff => some .unattached
  | .suspended, .wake =>
      match prev with
      | .powered | .default => some .powered
      | .addressed => some .addressed
      | .configured => some .configured
      | .unattached | .suspended => none
  | .suspended, .eorst => some .default
  | .default, .vbusoff => some .unattached
  | .default, .suspend => some .suspended
  | .default, .eorst => some .default
  | .default, .addressed => some .addressed
  | .addressed, .vbusoff => some .unattached
  | .addressed, .suspend => some .suspended
  | .addressed, .eorst => some .default
  | .addressed, .setcfg c => if c = 0 then some .addressed else some .configured
  | .configured, .vbusoff => some .unattached
  | .configured, .suspend => some .suspended
  | .configured, .eorst => some .default
  | .configured, .setcfg c => if c = 0 then some .addressed else some .configured
  | _, _ => none

end Sys2Proof.Machine
end

