-- ==== Sys2Proof/Certificates/Slice0/Obligations.lean ====
section
/-!
DEFINITION. The statements about the model, one definition each. Each docstring names the rule it formalises, or says that the statement
rests on a law the spec itself derives or on a choice of the model.
-/
open Sys2Proof Sys2Proof.Machine

/-! ### Encoding -/

/-- DECODE AND ENCODE AGREE. No operand bit of any instruction is lost on the way through its encoding. -/
def Obligations.DecodeOfEncode : Prop :=
  ∀ i : Instr, i.wellFormed = true → decode (encode i) = .ok i

/-- Every command that decodes is the encoding of what it decodes to: each word and payload has one meaning, and no bit is a don't-care
(30_encoding.md section 5). -/
def Obligations.EncodeOfDecode : Prop :=
  ∀ (c : Command) (i : Instr), decode c = .ok i → encode i = c ∧ i.wellFormed = true

/-- The worked encodings of 30_encoding.md section 7 (a table the spec marks as derived). -/
def Obligations.WorkedEncodings : Prop :=
  decode ⟨0x0141, []⟩ = .ok (.rxpush 0x41)
  ∧ decode ⟨0x2500, []⟩ = .ok .txpop
  ∧ decode ⟨0x4903, [0x01, 0x02, 0x03]⟩ = .ok (.outstep [0x01, 0x02, 0x03])
  ∧ decode ⟨0x7501, []⟩ = .ok (.setcfg 1)
  ∧ decode ⟨0x9900, [0x80, 0x25, 0x00, 0x00, 0x00, 0x00, 0x08]⟩ = .ok (.setlc 0x00002580 0 0 8)
  ∧ decode ⟨0xCF07, []⟩ = .ok (.csrrd 0x07)
  ∧ decode ⟨0xE000, []⟩ = .error .illegal
  ∧ decode ⟨0x0500, []⟩ = .error .role
  ∧ decode ⟨0x2501, []⟩ = .error .resv

/-- R157, R82, R83: each fault code with its number and its cause, taken in check order, and no fault when every check passes. -/
def Obligations.DecodeChecksInOrder : Prop :=
  (FaultCode.illegal.code = 1 ∧ FaultCode.role.code = 2 ∧ FaultCode.resv.code = 3 ∧ FaultCode.payloadLen.code = 4
    ∧ FaultCode.outOversize.code = 5)
  ∧ ∀ (cfg : Config) (port : BitVec 3) (op : BitVec 5) (d8 : Byte) (payload : List Byte),
      if port = 7 ∨ op ∈ specReservedOps then
        decodeFor cfg ⟨mkWord port op d8, payload⟩ = .error .illegal
      else if port ∉ specOwners op then
        decodeFor cfg ⟨mkWord port op d8, payload⟩ = .error .role
      else if d8 &&& specReservedBits op ≠ 0 then
        decodeFor cfg ⟨mkWord port op d8, payload⟩ = .error .resv
      else if payload.length ≠ specPayloadLen op d8 then
        decodeFor cfg ⟨mkWord port op d8, payload⟩ = .error .payloadLen
      else if op = 0x09 ∧ cfg.epOutSize < d8.toNat then
        decodeFor cfg ⟨mkWord port op d8, payload⟩ = .error .outOversize
      else ∃ i, decodeFor cfg ⟨mkWord port op d8, payload⟩ = .ok i

/-! ### Parameters, reset and the step -/

/-- R9 with the bounds of R6, R7 and R8: which parameter sets are well-formed. That the model refuses the others at the step, by the name
`illFormedConfig`, is the model's form of the refusal (log 5, DEDUCED). -/
def Obligations.ConfigurationWellFormedIff : Prop :=
  (∀ s : State, configOk s.block.cfg = false ↔ step s = .refused .illFormedConfig)
  ∧ ∀ c : Config, configOk c = true ↔
    (∃ k, 1 ≤ k ∧ k ≤ 8 ∧ c.nRx = 2 ^ k) ∧ (∃ k, 1 ≤ k ∧ k ≤ 8 ∧ c.nTx = 2 ^ k)
    ∧ 1 ≤ c.thresh ∧ c.thresh ≤ c.nRx - 1 ∧ c.thresh ≤ c.epInSize
    ∧ 1 ≤ c.epInSize ∧ c.epInSize ≤ 255
    ∧ 1 ≤ c.epOutSize ∧ c.epOutSize ≤ 255 ∧ c.epOutSize ≤ c.nTx - 1
    ∧ 1 ≤ c.flushTicks ∧ c.flushTicks ≤ 255 ∧ 1 ≤ c.pulseTicks ∧ c.pulseTicks ≤ 255

/-- The steps that take no command (the model's choices, logs 2 and 11): with nothing delivered the block waits; block reset leaves the block as
after power-on with its parameters, the inputs behind it still to come, and a new record of responses. -/
def Obligations.OtherInputsOfTheStep : Prop :=
  (∀ s : State, configOk s.block.cfg = true → s.inbox = [] → step s = .next s)
  ∧ (∀ (s : State) (rest : List Input), configOk s.block.cfg = true → s.inbox = .blockReset :: rest →
    step s = .next { block := (State.resetWith s.block.cfg).block, inbox := rest, responses := [] })

/-- R52: the value block reset gives every state element, for every parameter set, and the output levels that follow. The ring arrays, which
the rule leaves unspecified, are not mentioned. -/
def Obligations.ResetValues : Prop :=
  ∀ cfg : Config,
    let k := (State.resetWith cfg).block
    (k.rx.w = 0 ∧ k.rx.r = 0 ∧ k.tx.w = 0 ∧ k.tx.r = 0)
    ∧ stateCode k.state = 0 ∧ stateCode k.prev = 0 ∧ k.config = 0
    ∧ k.ienSusp = true ∧ k.ienWake = false ∧ ienMask k = 0xB
    ∧ k.bridge = false ∧ k.flushPend = false ∧ k.rxOvr = false ∧ k.flushCnt = 0
    ∧ k.pulseRx = 0 ∧ k.pulseTx = 0
    ∧ k.lcBaud = 0 ∧ k.lcFmt = 0 ∧ k.lcParity = 0 ∧ k.lcBits = 0
    ∧ k.cls = 0
    ∧ k.faultCode = 0 ∧ k.faultMulti = false ∧ k.faultCmd = 0
    ∧ k.trace = []
    ∧ ledRx k = false ∧ ledTx k = false ∧ resetLine k = false ∧ clkFrozen k = false ∧ uartEn k = false
    ∧ State.reset = State.resetWith State.reset.block.cfg

/-- A STEP RUNS THE DECODED COMMAND: the command at the head of the inputs leaves them, and the step is its execution. -/
def Obligations.StepRunsTheDecodedCommand : Prop :=
  ∀ (s : State) (c : Command) (rest : List Input) (i : Instr),
    configOk s.block.cfg = true → s.inbox = .command c :: rest → decodeFor s.block.cfg c = .ok i →
    step s = exec i { s with inbox := rest }

/-- R158, R160: taking a fault. The first fault's code and the word's upper byte are recorded, a later one sets the mark; the response is
0xF100 plus the code; nothing else changes. -/
def Obligations.FaultEntryIsPrecise : Prop :=
  ∀ (s : State) (c : Command) (rest : List Input) (e : FaultCode),
    configOk s.block.cfg = true → s.inbox = .command c :: rest → decodeFor s.block.cfg c = .error e →
    step s = .next
      { block :=
          if s.block.faultCode = 0 then
            { s.block with faultCode := e.code, faultCmd := c.word.extractLsb' 8 8 }
          else { s.block with faultMulti := true }
        inbox := rest
        responses := s.responses ++ [⟨c.word.extractLsb' 13 3, 0xF100 + e.code.setWidth 16, []⟩] }

/-- R161: no command changes the code and command of a recorded fault, a later fault sets the mark, the mark stays, and the block goes on with
the next command. -/
def Obligations.FaultRecordIsSticky : Prop :=
  ∀ (s : State) (c : Command) (rest : List Input),
    configOk s.block.cfg = true → s.inbox = .command c :: rest →
    ∃ t, step s = .next t ∧ t.inbox = rest
      ∧ (s.block.faultCode ≠ 0 → t.block.faultCode = s.block.faultCode ∧ t.block.faultCmd = s.block.faultCmd)
      ∧ (s.block.faultMulti = true → t.block.faultMulti = true)
      ∧ (∀ e, decodeFor s.block.cfg c = .error e → t.block.faultCode ≠ 0
          ∧ (s.block.faultCode ≠ 0 → t.block.faultMulti = true))
      ∧ (∀ i, decodeFor s.block.cfg c = .ok i →
          exec i { s with inbox := rest } = .next t
          ∧ t.block.faultCode = s.block.faultCode ∧ t.block.faultMulti = s.block.faultMulti
          ∧ t.block.faultCmd = s.block.faultCmd)

/-- R79: every command that decodes gives a next state with exactly one more response, to the port that issued it, its reserved bits 0, its status
one of OK, NO, PENDING and IGNORED, DATA 0 when V is 0, and a payload for GETLC and INSTEP only; it takes no input and changes no
parameter. Every command delivered, decoding or not, is taken by its step and answered once, to its port. -/
def Obligations.EveryCommandAnswersOnce : Prop :=
  (∀ (i : Instr) (s : State), ∃ (t : State) (r : Response),
    exec i s = .next t ∧ t.inbox = s.inbox ∧ t.responses = s.responses ++ [r] ∧ t.block.cfg = s.block.cfg
    ∧ r.port = portField (encode i).word
    ∧ r.word.extractLsb' 9 3 = 0
    ∧ r.word.extractLsb' 12 4 ∈ ([0x0, 0x1, 0x2, 0x3] : List (BitVec 4))
    ∧ (r.word.getLsbD 8 = false → r.word.extractLsb' 0 8 = 0)
    ∧ (r.payload ≠ [] → i = .getlc ∨ ∃ ready, i = .instep ready))
  ∧ (∀ (s : State) (c : Command) (rest : List Input),
    configOk s.block.cfg = true → s.inbox = .command c :: rest →
    ∃ (t : State) (r : Response),
      step s = .next t ∧ t.inbox = rest ∧ t.responses = s.responses ++ [r] ∧ t.block.cfg = s.block.cfg
      ∧ r.port = c.word.extractLsb' 13 3
      ∧ r.word.extractLsb' 9 3 = 0
      ∧ r.word.extractLsb' 12 4 ∈ ([0x0, 0x1, 0x2, 0x3, 0xF] : List (BitVec 4))
      ∧ (r.word.getLsbD 8 = false → r.word.extractLsb' 0 8 = 0))

/-- The order of commands presented in one cycle (60_exceptions.md section 1), each agent's own commands in the order it issued them. That a command with
port number 7 comes last is the model's choice (log 12). -/
def Obligations.SameCycleOrder : Prop :=
  ∀ (s : State) (cs : List Command), ∃ order : List Command,
    s.present cs = { s with inbox := s.inbox ++ order.map Input.command }
    ∧ order.Perm cs
    ∧ order.Pairwise (fun a b =>
        ([3, 4, 0, 1, 2, 5, 6, 7] : List (BitVec 3)).idxOf (a.word.extractLsb' 13 3)
          ≤ ([3, 4, 0, 1, 2, 5, 6, 7] : List (BitVec 3)).idxOf (b.word.extractLsb' 13 3))
    ∧ ∀ p : BitVec 3, order.filter (fun c => c.word.extractLsb' 13 3 = p) = cs.filter (fun c => c.word.extractLsb' 13 3 = p)

/-! ### Invariants -/

/-- The invariant holds after block reset, for every well-formed parameter set and for the model's own. -/
def Obligations.ResetHasTheInvariant : Prop :=
  (∀ cfg : Config, configOk cfg = true → (State.resetWith cfg).Inv) ∧ State.reset.Inv

/-- AN INVARIANT THAT EVERY STEP KEEPS, from every state that has it. -/
def Obligations.StepKeepsTheInvariant : Prop :=
  ∀ s t : State, s.Inv → step s = .next t → t.Inv

/-- The block is ready for another command after every command: with well-formed parameters no step stops, from any state, and the parameters
stay. -/
def Obligations.StepNeverStops : Prop :=
  ∀ s : State, configOk s.block.cfg = true → ∃ t, step s = .next t ∧ t.block.cfg = s.block.cfg

/-- After every command the bridge mode is the signal GATE, whatever it was before (a law the spec derives, 10_state.md section 8). -/
def Obligations.GateInSyncAfterEveryCommand : Prop :=
  ∀ (i : Instr) (s t : State), exec i s = .next t →
    (t.block.bridge = true ↔ t.block.state = .configured ∧ t.block.lcBaud ≠ 0)

/-- R136, R137: `gate_update` leaves BRIDGE with the exit actions, enters it with no other action, or does nothing; every command that executes ends with
it, so that nothing is left for it to do, and a command that leaves BRIDGE leaves both rings empty and the timers clear. -/
def Obligations.GateUpdateAndExitActions : Prop :=
  (∀ (i : Instr) (s t : State), exec i s = .next t →
    gateUpdate t.block = t.block
    ∧ (s.block.bridge = true → t.block.bridge = false →
        (t.block.rx.w = 0 ∧ t.block.rx.r = 0 ∧ t.block.tx.w = 0 ∧ t.block.tx.r = 0)
        ∧ t.block.pulseRx = 0 ∧ t.block.pulseTx = 0 ∧ t.block.flushCnt = 0 ∧ t.block.flushPend = false))
  ∧ ∀ k : Block,
    (k.bridge = true → ¬(k.state = .configured ∧ k.lcBaud ≠ 0) →
      gateUpdate k =
        { k with
          rx := { w := 0, r := 0, buf := k.rx.buf }
          tx := { w := 0, r := 0, buf := k.tx.buf }
          pulseRx := 0
          pulseTx := 0
          flushCnt := 0
          flushPend := false
          bridge := false })
    ∧ (k.bridge = false → k.state = .configured → k.lcBaud ≠ 0 → gateUpdate k = { k with bridge := true })
    ∧ (k.bridge = true → k.state = .configured → k.lcBaud ≠ 0 → gateUpdate k = k)
    ∧ (k.bridge = false → ¬(k.state = .configured ∧ k.lcBaud ≠ 0) → gateUpdate k = k)

/-! ### Ring arrays and cursors -/

/-- R54 and R55, the writing half: the RX array is written only by an accepted RXPUSH, at the write cursor; every other byte of it, and every
byte for any other command and for a push refused in WAIT or for want of room, reads as before. The TX array is written only by an
accepted TXPUSH, at the write cursor, and by an accepted OUTSTEP, at the write cursor and the places after it; one refused or left
pending leaves every byte. -/
def Obligations.RingArraysFrame : Prop :=
  ∀ (i : Instr) (s t : State), s.Inv → exec i s = .next t →
    (∀ a, (∀ b, i = .rxpush b → s.block.bridge = true → occ (maskRx s.block) s.block.rx ≠ maskRx s.block →
          a ≠ s.block.rx.w.toNat) →
        memRead a t.block.rx.buf = memRead a s.block.rx.buf)
    ∧ (∀ b, i = .rxpush b → s.block.bridge = true → occ (maskRx s.block) s.block.rx ≠ maskRx s.block →
        memRead s.block.rx.w.toNat t.block.rx.buf = b)
    ∧ (∀ a, (∀ b, i = .txpush b → s.block.bridge = true → occ (maskTx s.block) s.block.tx ≠ maskTx s.block →
          a ≠ s.block.tx.w.toNat) →
        (∀ bytes j, i = .outstep bytes → s.block.bridge = true →
          bytes.length ≤ (maskTx s.block).toNat - (occ (maskTx s.block) s.block.tx).toNat → j < bytes.length →
          a ≠ ((s.block.tx.w + BitVec.ofNat 8 j) &&& maskTx s.block).toNat) →
        memRead a t.block.tx.buf = memRead a s.block.tx.buf)
    ∧ (∀ b, i = .txpush b → s.block.bridge = true → occ (maskTx s.block) s.block.tx ≠ maskTx s.block →
        memRead s.block.tx.w.toNat t.block.tx.buf = b)
    ∧ (∀ bytes j, i = .outstep bytes → s.block.bridge = true →
        bytes.length ≤ (maskTx s.block).toNat - (occ (maskTx s.block) s.block.tx).toNat → j < bytes.length →
        memRead ((s.block.tx.w + BitVec.ofNat 8 j) &&& maskTx s.block).toNat t.block.tx.buf = bytes.getD j 0)

/-- R101 and R13: advancing a cursor is addition modulo the ring size, the cursor at MASK advances to 0, and occupancy is the difference modulo
the ring size, never above MASK; free space is the rest. -/
def Obligations.CursorArithmetic : Prop :=
  ∀ (n : Nat) (q : Ring), (∃ k, 1 ≤ k ∧ k ≤ 8 ∧ n = 2 ^ k) →
    (∀ c j : Byte, (advance (maskOf n) c j).toNat = (c.toNat + j.toNat) % n)
    ∧ advance (maskOf n) (maskOf n) 1 = 0
    ∧ ((occ (maskOf n) q).toNat : Int) = ((q.w.toNat : Int) - (q.r.toNat : Int)) % (n : Int)
    ∧ (occ (maskOf n) q).toNat ≤ n - 1
    ∧ (free (maskOf n) q).toNat = n - 1 - (occ (maskOf n) q).toNat
    ∧ (isEmpty q = true ↔ q.w = q.r)
    ∧ (isFull (maskOf n) q = true ↔ (occ (maskOf n) q).toNat = n - 1)

/-- The capacity law, which the spec derives (41_ring.md section 1): a ring of N slots holds at most N - 1 bytes, holds that many when pushes are refused,
and a refused push changes neither array nor cursors. -/
def Obligations.CapacityLaw : Prop :=
  ∀ s : State, s.Inv →
    (rxQueue s.block).length ≤ s.block.cfg.nRx - 1 ∧ (txQueue s.block).length ≤ s.block.cfg.nTx - 1
    ∧ (∀ b t, exec (.rxpush b) s = .next t → s.block.bridge = true →
        ((rxQueue s.block).length = s.block.cfg.nRx - 1 ↔ t.block.rx = s.block.rx))
    ∧ (∀ b t, exec (.txpush b) s = .next t → s.block.bridge = true →
        ((txQueue s.block).length = s.block.cfg.nTx - 1 ↔ t.block.tx = s.block.tx))

/-! ### Ring commands -/

/-- R93: RXPUSH. -/
def Obligations.RxpushStoresOrRefuses : Prop :=
  ∀ (b : Byte) (s : State), GateInSync s.block →
    (s.block.bridge = false → CompletesWith (.rxpush b) s s.block 0 0x1000 [])
    ∧ (s.block.bridge = true → occ (maskRx s.block) s.block.rx = maskRx s.block →
        CompletesWith (.rxpush b) s { s.block with rxOvr := true } 0 0x1000 [])
    ∧ (s.block.bridge = true → occ (maskRx s.block) s.block.rx ≠ maskRx s.block →
        CompletesWith (.rxpush b) s
          { s.block with
            rx := { w := (s.block.rx.w + 1) &&& maskRx s.block, r := s.block.rx.r,
                    buf := memWrite s.block.rx.w.toNat b s.block.rx.buf } } 0 0x0000 [])
    ∧ encode (.rxpush b) = ⟨0x0100 + b.setWidth 16, []⟩
    ∧ CommandFaults 0x01 0 0x00 (fun _ => 0)

/-- R94: RXPOP; R98: TXPOP. -/
def Obligations.PopsTakeTheOldestByte : Prop :=
  (∀ s : State, GateInSync s.block →
    (s.block.rx.w = s.block.rx.r → CompletesWith .rxpop s s.block 2 0x1000 [])
    ∧ (s.block.rx.w ≠ s.block.rx.r →
        CompletesWith .rxpop s
          { s.block with
            rx := { w := s.block.rx.w, r := (s.block.rx.r + 1) &&& maskRx s.block, buf := s.block.rx.buf }
            pulseRx := BitVec.ofNat 8 s.block.cfg.pulseTicks }
          2 (0x0100 + (memRead s.block.rx.r.toNat s.block.rx.buf).setWidth 16) [])
    ∧ encode .rxpop = ⟨0x4200, []⟩
    ∧ CommandFaults 0x02 2 0xFF (fun _ => 0))
  ∧ (∀ s : State, GateInSync s.block →
    (s.block.tx.w = s.block.tx.r → CompletesWith .txpop s s.block 1 0x1000 [])
    ∧ (s.block.tx.w ≠ s.block.tx.r →
        CompletesWith .txpop s
          { s.block with
            tx := { w := s.block.tx.w, r := (s.block.tx.r + 1) &&& maskTx s.block, buf := s.block.tx.buf } }
          1 (0x0100 + (memRead s.block.tx.r.toNat s.block.tx.buf).setWidth 16) [])
    ∧ encode .txpop = ⟨0x2500, []⟩
    ∧ CommandFaults 0x05 1 0xFF (fun _ => 0))

/-- R95 and R99: RXOCC and TXOCC. -/
def Obligations.OccupancyQueries : Prop :=
  ∀ s : State, GateInSync s.block →
    CompletesWith .rxocc s s.block 2
      (0x0100 + ((s.block.rx.w - s.block.rx.r) &&& maskRx s.block).setWidth 16) []
    ∧ CompletesWith .txocc s s.block 2
        (0x0100 + ((s.block.tx.w - s.block.tx.r) &&& maskTx s.block).setWidth 16) []
    ∧ encode .rxocc = ⟨0x4300, []⟩ ∧ encode .txocc = ⟨0x4600, []⟩
    ∧ CommandFaults 0x03 2 0xFF (fun _ => 0) ∧ CommandFaults 0x06 2 0xFF (fun _ => 0)

/-- R97: TXPUSH. -/
def Obligations.TxpushStoresOrRefuses : Prop :=
  ∀ (b : Byte) (s : State), GateInSync s.block →
    (s.block.bridge = false ∨ occ (maskTx s.block) s.block.tx = maskTx s.block →
      CompletesWith (.txpush b) s s.block 2 0x1000 [])
    ∧ (s.block.bridge = true → occ (maskTx s.block) s.block.tx ≠ maskTx s.block →
        CompletesWith (.txpush b) s
          { s.block with
            tx := { w := (s.block.tx.w + 1) &&& maskTx s.block, r := s.block.tx.r,
                    buf := memWrite s.block.tx.w.toNat b s.block.tx.buf }
            pulseTx := BitVec.ofNat 8 s.block.cfg.pulseTicks } 2 0x0000 [])
    ∧ encode (.txpush b) = ⟨0x4400 + b.setWidth 16, []⟩
    ∧ CommandFaults 0x04 2 0x00 (fun _ => 0)

/-- R103 and R102: RINGRST clears the cursors of the selected rings, leaves the arrays and everything else, in every state. -/
def Obligations.RingrstClearsSelectedCursors : Prop :=
  ∀ (m : BitVec 2) (s : State), GateInSync s.block →
    CompletesWith (.ringrst m) s
      { s.block with
        rx := if m.getLsbD 0 = true then { w := 0, r := 0, buf := s.block.rx.buf } else s.block.rx
        tx := if m.getLsbD 1 = true then { w := 0, r := 0, buf := s.block.tx.buf } else s.block.tx }
      3 0x0000 []
    ∧ encode (.ringrst m) = ⟨0x6700 + m.setWidth 16, []⟩
    ∧ CommandFaults 0x07 3 0xFC (fun _ => 0)

/-- The first law of 41_ring.md section 3, which the spec derives, for either ring: bytes pushed into an empty ring while bridging, one by one or (TX) as one
transfer, come out of as many pops in the same order, and every push and pop answers OK. -/
def Obligations.PushesPopInOrder : Prop :=
  (∀ (bytes : List Byte) (s : State), s.Inv → s.block.bridge = true → rxQueue s.block = [] →
    bytes.length ≤ s.block.cfg.nRx - 1 →
    ∃ u, runAll (bytes.map Instr.rxpush ++ List.replicate bytes.length Instr.rxpop) s = some u
      ∧ rxQueue u.block = []
      ∧ u.responses = s.responses ++ bytes.map (fun _ => (⟨0, 0x0000, []⟩ : Response))
          ++ bytes.map (fun b => (⟨2, 0x0100 + b.setWidth 16, []⟩ : Response)))
  ∧ (∀ (bytes : List Byte) (s : State), s.Inv → s.block.bridge = true → txQueue s.block = [] →
    bytes.length ≤ s.block.cfg.nTx - 1 →
    (∃ u, runAll (bytes.map Instr.txpush ++ List.replicate bytes.length Instr.txpop) s = some u
      ∧ txQueue u.block = []
      ∧ u.responses = s.responses ++ bytes.map (fun _ => (⟨2, 0x0000, []⟩ : Response))
          ++ bytes.map (fun b => (⟨1, 0x0100 + b.setWidth 16, []⟩ : Response)))
    ∧ (∃ u, runAll (Instr.outstep bytes :: List.replicate bytes.length Instr.txpop) s = some u
      ∧ txQueue u.block = []
      ∧ u.responses = s.responses ++ [(⟨2, 0x0100 + BitVec.ofNat 16 bytes.length, []⟩ : Response)]
          ++ bytes.map (fun b => (⟨1, 0x0100 + b.setWidth 16, []⟩ : Response))))

/-- The RX ring refines a queue (41_ring.md section 3): RXPUSH appends its byte or nothing, RXPOP takes the head and answers it, a drain takes a prefix and
answers it, and every other command keeps the queue or empties it. -/
def Obligations.RxRingIsAQueue : Prop :=
  ∀ s : State, s.Inv →
    (∀ b, ∃ t, exec (.rxpush b) s = .next t
      ∧ rxQueue t.block =
          if s.block.bridge = true ∧ (rxQueue s.block).length < s.block.cfg.nRx - 1 then rxQueue s.block ++ [b]
          else rxQueue s.block)
    ∧ (∃ t, exec .rxpop s = .next t ∧ rxQueue t.block = (rxQueue s.block).tail
      ∧ t.responses = s.responses ++
          [match rxQueue s.block with
            | [] => ⟨2, 0x1000, []⟩
            | v :: _ => ⟨2, 0x0100 + v.setWidth 16, []⟩])
    ∧ (∀ r, ∃ t n, exec (.instep r) s = .next t
      ∧ n = (if s.block.bridge = true ∧ r = true
              ∧ (s.block.cfg.thresh ≤ (rxQueue s.block).length
                  ∨ s.block.flushPend = true ∧ rxQueue s.block ≠ [])
            then min (rxQueue s.block).length s.block.cfg.epInSize else 0)
      ∧ rxQueue t.block = (rxQueue s.block).drop n
      ∧ t.responses = s.responses ++
          [⟨2, if n = 0 then 0x1000 else 0x0100 + BitVec.ofNat 16 n, (rxQueue s.block).take n⟩])
    ∧ (∀ i t, (∀ b, i ≠ .rxpush b) → i ≠ .rxpop → (∀ r, i ≠ .instep r) → exec i s = .next t →
        rxQueue t.block = rxQueue s.block ∨ rxQueue t.block = [])

/-- The TX ring refines a queue (41_ring.md section 3): TXPUSH appends its byte or nothing, OUTSTEP its whole transfer or nothing, TXPOP takes the head and
answers it, and every other command keeps the queue or empties it. -/
def Obligations.TxRingIsAQueue : Prop :=
  ∀ s : State, s.Inv →
    (∀ b, ∃ t, exec (.txpush b) s = .next t
      ∧ txQueue t.block =
          if s.block.bridge = true ∧ (txQueue s.block).length < s.block.cfg.nTx - 1 then txQueue s.block ++ [b]
          else txQueue s.block)
    ∧ (∀ bytes, ∃ t, exec (.outstep bytes) s = .next t
      ∧ txQueue t.block =
          if s.block.bridge = true ∧ (txQueue s.block).length + bytes.length ≤ s.block.cfg.nTx - 1
          then txQueue s.block ++ bytes else txQueue s.block)
    ∧ (∃ t, exec .txpop s = .next t ∧ txQueue t.block = (txQueue s.block).tail
      ∧ t.responses = s.responses ++
          [match txQueue s.block with
            | [] => ⟨1, 0x1000, []⟩
            | v :: _ => ⟨1, 0x0100 + v.setWidth 16, []⟩])
    ∧ (∀ i t, (∀ b, i ≠ .txpush b) → (∀ bytes, i ≠ .outstep bytes) → i ≠ .txpop → exec i s = .next t →
        txQueue t.block = txQueue s.block ∨ txQueue t.block = [])

/-- The ring bytes that no command has made visible do not matter (10_state.md R21 says that no command can read them; what they read as at reset is the
model's choice, log 6): two machines that agree on everything else answer alike and stay alike. -/
def Obligations.UnoccupiedBytesAreUnobservable : Prop :=
  ∀ (i : Instr) (s t s' t' : State), s.Inv → t.Inv → SameVisible s.block t.block → s.responses = t.responses →
    exec i s = .next s' → exec i t = .next t' →
    SameVisible s'.block t'.block ∧ s'.responses = t'.responses

/-! ### Device state machine -/

/-- R106: VBUSON; R114: ADDRESSED. -/
def Obligations.VbusonAndAddressed : Prop :=
  (∀ s : State, GateInSync s.block →
    (s.block.state = .unattached → CompletesWith .vbuson s { s.block with state := .powered } 3 0x0000 [])
    ∧ (s.block.state ≠ .unattached → CompletesWith .vbuson s s.block 3 0x3000 [])
    ∧ encode .vbuson = ⟨0x7001, []⟩
    ∧ CommandFaults 0x10 3 0xFE (fun _ => 0))
  ∧ (∀ s : State, GateInSync s.block →
    (s.block.state = .default → CompletesWith .addressed s { s.block with state := .addressed } 3 0x0000 [])
    ∧ (s.block.state ≠ .default → CompletesWith .addressed s s.block 3 0x3000 [])
    ∧ encode .addressed = ⟨0x7400, []⟩
    ∧ CommandFaults 0x14 3 0xFF (fun _ => 0))

/-- R107: VBUSOFF, with the exit actions when the block was in BRIDGE. -/
def Obligations.VbusoffDetaches : Prop :=
  ∀ s : State, GateInSync s.block →
    (s.block.state = .unattached → CompletesWith .vbusoff s s.block 3 0x3000 [])
    ∧ (s.block.state ≠ .unattached →
        CompletesWith .vbusoff s
          { s.block with
            state := .unattached
            prev := .unattached
            config := 0
            ienSusp := true
            ienWake := false
            cls := 0
            rx := { w := 0, r := 0, buf := s.block.rx.buf }
            tx := { w := 0, r := 0, buf := s.block.tx.buf }
            pulseRx := if s.block.bridge = true then 0 else s.block.pulseRx
            pulseTx := if s.block.bridge = true then 0 else s.block.pulseTx
            flushCnt := if s.block.bridge = true then 0 else s.block.flushCnt
            flushPend := if s.block.bridge = true then false else s.block.flushPend
            bridge := false } 3 0x0000 [])
    ∧ encode .vbusoff = ⟨0x7000, []⟩
    ∧ CommandFaults 0x10 3 0xFE (fun _ => 0)

/-- R108 and R109: SUSPEND saves the state, enters Suspended, writes both enables at once, and leaves BRIDGE; it is ignored where suspend detection is
off or the state is not a powered one. -/
def Obligations.SuspendSavesTheState : Prop :=
  ∀ s : State, GateInSync s.block →
    (s.block.ienSusp = true → s.block.state ∈ [.powered, .default, .addressed, .configured] →
      CompletesWith .suspend s
        (leftBridge { s.block with state := .suspended, prev := s.block.state, ienSusp := false, ienWake := true })
        3 0x0000 [])
    ∧ (s.block.ienSusp = false ∨ s.block.state ∉ [.powered, .default, .addressed, .configured] →
        CompletesWith .suspend s s.block 3 0x3000 [])
    ∧ encode .suspend = ⟨0x7100, []⟩
    ∧ CommandFaults 0x11 3 0xFF (fun _ => 0)

/-- R110, R111, R112 (with R105): WAKE returns to the wake target of the saved state, clears it, writes both enables at once, and enters BRIDGE when it wakes
into Configured with a baud rate; it is ignored where wake detection is off or the state is not Suspended. -/
def Obligations.WakeRestoresTheState : Prop :=
  ∀ (s : State), GateInSync s.block →
    (∀ target : DevState, s.block.ienWake = true → s.block.state = .suspended →
      (s.block.prev = .powered ∧ target = .powered ∨ s.block.prev = .default ∧ target = .powered
        ∨ s.block.prev = .addressed ∧ target = .addressed ∨ s.block.prev = .configured ∧ target = .configured) →
      CompletesWith .wake s
        { s.block with
          state := target
          prev := .unattached
          ienSusp := true
          ienWake := false
          bridge := decide (target = .configured ∧ s.block.lcBaud ≠ 0) } 3 0x0000 [])
    ∧ (s.block.ienWake = false ∨ s.block.state ≠ .suspended → CompletesWith .wake s s.block 3 0x3000 [])
    ∧ encode .wake = ⟨0x7200, []⟩
    ∧ CommandFaults 0x12 3 0xFF (fun _ => 0)

/-- WAKE with a saved state of which 42_usb_state.md R105 states no target completes too; the state it enters is free (log 8), the rest is as the rule says. The
statement holds for every value of the free target. -/
def Obligations.WakeWithAnUnstatedTargetCompletes : Prop :=
  ∀ s : State, GateInSync s.block → s.block.ienWake = true → s.block.state = .suspended →
    (s.block.prev = .unattached ∨ s.block.prev = .suspended) →
    ∃ target : DevState,
      CompletesWith .wake s
        { s.block with
          state := target
          prev := .unattached
          ienSusp := true
          ienWake := false
          bridge := decide (target = .configured ∧ s.block.lcBaud ≠ 0) } 3 0x0000 []

/-- R113: EORST, from every state. -/
def Obligations.EorstYieldsDefault : Prop :=
  ∀ s : State, GateInSync s.block →
    CompletesWith .eorst s
      (leftBridge
        { s.block with
          state := .default
          prev := .unattached
          config := 0
          ienSusp := true
          ienWake := false
          cls := 0
          trace := s.block.trace ++ [.epReinit] }) 3 0x0000 []
    ∧ encode .eorst = ⟨0x7300, []⟩
    ∧ CommandFaults 0x13 3 0xFF (fun _ => 0)

/-- SETCFG (42_usb_state.md section 2; that configuration 0 means not configured the spec marks as general knowledge, log 15). -/
def Obligations.SetcfgSelectsAConfiguration : Prop :=
  ∀ (c : Byte) (s : State), GateInSync s.block →
    (s.block.state = .addressed ∨ s.block.state = .configured → c ≠ 0 →
      CompletesWith (.setcfg c) s
        { s.block with
          state := .configured
          config := c
          rx := { w := 0, r := 0, buf := s.block.rx.buf }
          tx := { w := 0, r := 0, buf := s.block.tx.buf }
          flushCnt := 0
          flushPend := false
          bridge := decide (s.block.lcBaud ≠ 0) } 3 0x0000 [])
    ∧ (s.block.state = .addressed ∨ s.block.state = .configured → c = 0 →
        CompletesWith (.setcfg c) s (leftBridge { s.block with state := .addressed, config := 0 }) 3 0x0000 [])
    ∧ (s.block.state ≠ .addressed → s.block.state ≠ .configured →
        CompletesWith (.setcfg c) s s.block 3 0x3000 [])
    ∧ encode (.setcfg c) = ⟨0x7500 + c.setWidth 16, []⟩
    ∧ CommandFaults 0x15 3 0x00 (fun _ => 0)

/-- The full transition table (42_usb_state.md section 3, which the spec derives): an entry gives the next state and OK, a missing entry IGNORED and no change. -/
def Obligations.FullTransitionTable : Prop :=
  ∀ (i : Instr) (s : State), s.Inv → isDeviceEvent i = true →
    ∃ t r, exec i s = .next t ∧ t.responses = s.responses ++ [r] ∧
      match specTransition s.block.state s.block.prev i with
      | some d => t.block.state = d ∧ r = ⟨3, 0x0000, []⟩
          ∧ t.block.prev = (if d = .suspended then s.block.state else .unattached)
          ∧ (s.block.state = .configured → d ≠ .configured → t.block.bridge = false
              ∧ (s.block.bridge = true → rxQueue t.block = [] ∧ txQueue t.block = []))
      | none => t.block = s.block ∧ r = ⟨3, 0x3000, []⟩

/-- The suspend-wake law, which the spec derives (42_usb_state.md section 3): the pair leaves the enable mask as it was. -/
def Obligations.SuspendThenWakeKeepsEnables : Prop :=
  ∀ s : State, s.Inv → s.block.state ≠ .unattached → s.block.state ≠ .suspended →
    ∃ t u, exec .suspend s = .next t ∧ exec .wake t = .next u
      ∧ ienMask s.block = 0xB ∧ ienMask t.block = 0xD ∧ ienMask u.block = 0xB
      ∧ t.block.state = .suspended ∧ clkFrozen t.block = true ∧ clkFrozen u.block = false
      ∧ u.block.state = (if s.block.state = .default then .powered else s.block.state)
      ∧ u.block.bridge = s.block.bridge

/-- Configured is entered only by SETCFG with a nonzero number and by a wake from a suspend taken in Configured (42_usb_state.md section 3, derived by the
spec). -/
def Obligations.ConfiguredIsEnteredOnlyTwoWays : Prop :=
  ∀ (i : Instr) (s t : State), s.Inv → exec i s = .next t → s.block.state ≠ .configured → t.block.state = .configured →
    (∃ c, c ≠ 0 ∧ i = .setcfg c ∧ s.block.state = .addressed)
    ∨ (i = .wake ∧ s.block.state = .suspended ∧ s.block.prev = .configured)

/-- The single-writer map (60_exceptions.md section 3, derived by the spec; with R102, R104 and R134): which commands can change which state. A cursor
that its ring's own commands do not move is moved to 0 by a ring reset; a timer or pulse that its own commands do not change is
changed by an exit from BRIDGE. -/
def Obligations.SingleWriterMap : Prop :=
  ∀ (i : Instr) (s t : State), s.Inv → exec i s = .next t →
    (t.block.rx.w ≠ s.block.rx.w →
      (∃ b, i = .rxpush b) ∨ t.block.rx.w = 0 ∧ t.block.rx.r = 0 ∧ ResetsRx i s.block t.block)
    ∧ (t.block.rx.r ≠ s.block.rx.r →
        i = .rxpop ∨ (∃ r, i = .instep r) ∨ t.block.rx.w = 0 ∧ t.block.rx.r = 0 ∧ ResetsRx i s.block t.block)
    ∧ (t.block.tx.w ≠ s.block.tx.w →
        (∃ b, i = .txpush b) ∨ (∃ bytes, i = .outstep bytes)
          ∨ t.block.tx.w = 0 ∧ t.block.tx.r = 0 ∧ ResetsTx i s.block t.block)
    ∧ (t.block.tx.r ≠ s.block.tx.r → i = .txpop ∨ t.block.tx.w = 0 ∧ t.block.tx.r = 0 ∧ ResetsTx i s.block t.block)
    ∧ (t.block.state ≠ s.block.state ∨ t.block.prev ≠ s.block.prev ∨ t.block.config ≠ s.block.config
        ∨ t.block.ienSusp ≠ s.block.ienSusp ∨ t.block.ienWake ≠ s.block.ienWake →
          isDeviceEvent i = true ∧ i.port = .dev)
    ∧ (t.block.lcBaud ≠ s.block.lcBaud ∨ t.block.lcFmt ≠ s.block.lcFmt ∨ t.block.lcParity ≠ s.block.lcParity
        ∨ t.block.lcBits ≠ s.block.lcBits → ∃ b f p d, i = .setlc b f p d)
    ∧ (t.block.cls ≠ s.block.cls → (∃ v, i = .setcls v) ∨ i = .vbusoff ∨ i = .eorst)
    ∧ (t.block.flushCnt ≠ s.block.flushCnt →
        i = .tick ∨ (∃ c, c ≠ 0 ∧ i = .setcfg c) ∨ LeavesBridge s.block t.block)
    ∧ (t.block.flushPend ≠ s.block.flushPend →
        i = .tick ∨ (∃ r, i = .instep r) ∨ (∃ c, c ≠ 0 ∧ i = .setcfg c) ∨ LeavesBridge s.block t.block)
    ∧ (t.block.pulseRx ≠ s.block.pulseRx →
        i = .tick ∨ i = .rxpop ∨ (∃ r, i = .instep r) ∨ LeavesBridge s.block t.block)
    ∧ (t.block.pulseTx ≠ s.block.pulseTx →
        i = .tick ∨ (∃ b, i = .txpush b) ∨ (∃ bytes, i = .outstep bytes) ∨ LeavesBridge s.block t.block)
    ∧ (LeavesBridge s.block t.block → isDeviceEvent i = true ∨ ∃ f p d, i = .setlc 0 f p d)

/-! ### Control requests -/

/-- R122: outside Default, Addressed and Configured every control command is ignored and changes nothing. -/
def Obligations.ControlIgnoredOutsideCtlStates : Prop :=
  ∀ (i : Instr) (s : State), GateInSync s.block → isControlCommand i = true →
    s.block.state = .unattached ∨ s.block.state = .powered ∨ s.block.state = .suspended →
    CompletesWith i s s.block 4 0x3000 []

/-- GETLC (43_cdc_control.md section 2; the byte layout the spec marks as general knowledge, log 15). -/
def Obligations.GetlcReturnsTheLineEncoding : Prop :=
  ∀ s : State, GateInSync s.block →
    (s.block.state ∈ [.default, .addressed, .configured] →
      CompletesWith .getlc s s.block 4 0x0107
        [s.block.lcBaud.extractLsb' 0 8, s.block.lcBaud.extractLsb' 8 8, s.block.lcBaud.extractLsb' 16 8,
          s.block.lcBaud.extractLsb' 24 8, s.block.lcFmt, s.block.lcParity, s.block.lcBits])
    ∧ (s.block.state ∉ [.default, .addressed, .configured] → CompletesWith .getlc s s.block 4 0x3000 [])
    ∧ encode .getlc = ⟨0x9800, []⟩
    ∧ CommandFaults 0x18 4 0xFF (fun _ => 0)

/-- SETLC (43_cdc_control.md section 2; the payload layout and the valid codes the spec marks as general knowledge, log 15): a valid encoding is stored, the TX ring
flushed and the UART told, whatever the old encoding was; the mode follows the baud rate. -/
def Obligations.SetlcStoresFlushesAndAnnounces : Prop :=
  ∀ (baud : BitVec 32) (fmt parity bits : Byte) (s : State), GateInSync s.block →
    (s.block.state ∈ [.default, .addressed, .configured] →
      (fmt = 0 ∨ fmt = 2) → (parity = 0 ∨ parity = 1 ∨ parity = 2) → (bits = 5 ∨ bits = 6 ∨ bits = 7 ∨ bits = 8) →
      CompletesWith (.setlc baud fmt parity bits) s
        (let k : Block :=
          { s.block with
            lcBaud := baud
            lcFmt := fmt
            lcParity := parity
            lcBits := bits
            tx := { w := 0, r := 0, buf := s.block.tx.buf }
            trace := s.block.trace ++ [.uartCfg baud fmt parity bits] }
        if baud = 0 then leftBridge k else { k with bridge := decide (s.block.state = .configured) }) 4 0x0000 [])
    ∧ (s.block.state ∉ [.default, .addressed, .configured] ∨ ¬(fmt = 0 ∨ fmt = 2)
        ∨ ¬(parity = 0 ∨ parity = 1 ∨ parity = 2) ∨ ¬(bits = 5 ∨ bits = 6 ∨ bits = 7 ∨ bits = 8) →
        CompletesWith (.setlc baud fmt parity bits) s s.block 4 0x3000 [])
    ∧ encode (.setlc baud fmt parity bits) =
        ⟨0x9900, [baud.extractLsb' 0 8, baud.extractLsb' 8 8, baud.extractLsb' 16 8, baud.extractLsb' 24 8,
          fmt, parity, bits]⟩
    ∧ CommandFaults 0x19 4 0xFF (fun _ => 7)

/-- R129: SETCLS; RESET_LINE is the value's bit 0 from then on. -/
def Obligations.SetclsStoresTheControlLines : Prop :=
  ∀ (v : BitVec 16) (s : State), GateInSync s.block →
    (s.block.state ∈ [.default, .addressed, .configured] →
      CompletesWith (.setcls v) s { s.block with cls := v } 4 0x0000 []
      ∧ resetLine { s.block with cls := v } = v.getLsbD 0)
    ∧ (s.block.state ∉ [.default, .addressed, .configured] → CompletesWith (.setcls v) s s.block 4 0x3000 [])
    ∧ encode (.setcls v) = ⟨0x9A00, [v.extractLsb' 0 8, v.extractLsb' 8 8]⟩
    ∧ CommandFaults 0x1A 4 0xFF (fun _ => 2)

/-- R130: SENDBRK is acknowledged and changes nothing, whatever the duration. R131: CTLUNS is ignored in every state, whatever it carries, on each of its
four operation numbers. -/
def Obligations.SendbrkAndCtlunsChangeNothing : Prop :=
  (∀ (v : BitVec 16) (s : State), GateInSync s.block →
    (s.block.state ∈ [.default, .addressed, .configured] → CompletesWith (.sendbrk v) s s.block 4 0x0000 [])
    ∧ (s.block.state ∉ [.default, .addressed, .configured] → CompletesWith (.sendbrk v) s s.block 4 0x3000 [])
    ∧ encode (.sendbrk v) = ⟨0x9B00, [v.extractLsb' 0 8, v.extractLsb' 8 8]⟩
    ∧ CommandFaults 0x1B 4 0xFF (fun _ => 2))
  ∧ (∀ (o : BitVec 2) (bytes : List Byte) (s : State), GateInSync s.block →
    CompletesWith (.ctluns o bytes) s s.block 4 0x3000 []
    ∧ (bytes.length ≤ 255 →
        encode (.ctluns o bytes) = ⟨0x9C00 + BitVec.ofNat 16 (256 * o.toNat + bytes.length), bytes⟩)
    ∧ CommandFaults 0x1C 4 0x00 (fun d8 => d8.toNat) ∧ CommandFaults 0x1D 4 0x00 (fun d8 => d8.toNat)
    ∧ CommandFaults 0x1E 4 0x00 (fun d8 => d8.toNat) ∧ CommandFaults 0x1F 4 0x00 (fun d8 => d8.toNat))

/-- The verbatim law (43_cdc_control.md section 3, derived by the spec): after an accepted SETLC and any commands without a valid SETLC, an accepted GETLC returns the
SETLC's payload. -/
def Obligations.GetlcIsVerbatim : Prop :=
  ∀ (baud : BitVec 32) (fmt parity bits : Byte) (s t u : State) (is : List Instr),
    acceptsControl s.block.state = true → validEncoding fmt parity bits = true →
    exec (.setlc baud fmt parity bits) s = .next t →
    (∀ b f p d, .setlc b f p d ∈ is → validEncoding f p d = false) →
    runAll is t = some u → acceptsControl u.block.state = true →
    CompletesWith .getlc u u.block 4 0x0107 (encode (.setlc baud fmt parity bits)).payload

/-- The reset-line law (43_cdc_control.md section 3, derived by the spec): after an accepted SETCLS, RESET_LINE keeps the value's bit 0 through any commands but SETCLS,
EORST and VBUSOFF. -/
def Obligations.ResetLineFollowsDtr : Prop :=
  ∀ (v : BitVec 16) (s t u : State) (is : List Instr),
    acceptsControl s.block.state = true → exec (.setcls v) s = .next t →
    (∀ w, .setcls w ∉ is) → .eorst ∉ is → .vbusoff ∉ is → runAll is t = some u →
    resetLine u.block = v.getLsbD 0

/-! ### Arbiter and timers -/

/-- R139, R140, R141: INSTEP. -/
def Obligations.InstepDrainsWhenDue : Prop :=
  ∀ (r : Bool) (s : State), GateInSync s.block →
    let n := ((s.block.rx.w - s.block.rx.r) &&& maskRx s.block).toNat
    let k := min n s.block.cfg.epInSize
    (s.block.bridge = true → r = true → n ≥ s.block.cfg.thresh ∨ s.block.flushPend = true ∧ n > 0 →
      CompletesWith (.instep r) s
        { s.block with
          rx := { w := s.block.rx.w, r := (s.block.rx.r + BitVec.ofNat 8 k) &&& maskRx s.block,
                  buf := s.block.rx.buf }
          flushPend := false
          pulseRx := BitVec.ofNat 8 s.block.cfg.pulseTicks }
        2 (0x0100 + BitVec.ofNat 16 k)
        ((List.range k).map fun i =>
          memRead ((s.block.rx.r + BitVec.ofNat 8 i) &&& maskRx s.block).toNat s.block.rx.buf))
    ∧ (s.block.bridge = false ∨ r = false ∨ ¬(n ≥ s.block.cfg.thresh ∨ s.block.flushPend = true ∧ n > 0) →
        CompletesWith (.instep r) s s.block 2 0x1000 [])
    ∧ encode (.instep r) = ⟨0x4800 + (if r = true then 1 else 0), []⟩
    ∧ CommandFaults 0x08 2 0xFE (fun _ => 0)

/-- R142, R143, R144: OUTSTEP accepts the whole transfer when it fits and otherwise leaves it pending with the free space as the answer's data. -/
def Obligations.OutstepAcceptsOrPends : Prop :=
  ∀ (bytes : List Byte) (s : State), GateInSync s.block →
    let room := (maskTx s.block).toNat - (occ (maskTx s.block) s.block.tx).toNat
    (s.block.bridge = false → CompletesWith (.outstep bytes) s s.block 2 0x1000 [])
    ∧ (s.block.bridge = true → room ≥ bytes.length →
        CompletesWith (.outstep bytes) s
          { s.block with
            tx := { w := (s.block.tx.w + BitVec.ofNat 8 bytes.length) &&& maskTx s.block, r := s.block.tx.r,
                    buf := writeFrom (maskTx s.block) s.block.tx.w 0 bytes s.block.tx.buf }
            pulseTx := if bytes.length > 0 then BitVec.ofNat 8 s.block.cfg.pulseTicks else s.block.pulseTx }
          2 (0x0100 + BitVec.ofNat 16 bytes.length) [])
    ∧ (s.block.bridge = true → room < bytes.length →
        CompletesWith (.outstep bytes) s s.block 2 (0x2100 + BitVec.ofNat 16 room) [])
    ∧ (bytes.length ≤ 255 → encode (.outstep bytes) = ⟨0x4900 + BitVec.ofNat 16 bytes.length, bytes⟩)
    ∧ CommandFaults 0x09 2 0x00 (fun d8 => d8.toNat)
    ∧ ∀ (d8 : Byte) (payload : List Byte), payload.length = d8.toNat → s.block.cfg.epOutSize < d8.toNat →
        decodeFor s.block.cfg ⟨mkWord 2 0x09 d8, payload⟩ = .error .outOversize

/-- R145: TICK. -/
def Obligations.TickAdvancesTheTimers : Prop :=
  ∀ s : State, GateInSync s.block →
    CompletesWith .tick s
      { s.block with
        flushCnt :=
          if s.block.bridge = true then
            (if s.block.flushCnt.toNat + 1 = s.block.cfg.flushTicks then 0 else s.block.flushCnt + 1)
          else s.block.flushCnt
        flushPend :=
          if s.block.bridge = true ∧ s.block.flushCnt.toNat + 1 = s.block.cfg.flushTicks then true
          else s.block.flushPend
        pulseRx := if s.block.pulseRx ≠ 0 then s.block.pulseRx - 1 else s.block.pulseRx
        pulseTx := if s.block.pulseTx ≠ 0 then s.block.pulseTx - 1 else s.block.pulseTx } 5 0x0000 []
    ∧ encode .tick = ⟨0xAA00, []⟩
    ∧ CommandFaults 0x0A 5 0xFF (fun _ => 0)

/-- R148: each tick takes one from a nonzero countdown, in every mode; an indicator with `p` ticks left is active through the next `p - 1` ticks and
inactive from the `p`-th on. -/
def Obligations.PulsesCountDownInEveryMode : Prop :=
  ∀ (s : State) (j : Nat), ∃ t, runAll (List.replicate j Instr.tick) s = some t
    ∧ (GateInSync s.block →
        t.block.pulseRx.toNat = s.block.pulseRx.toNat - j ∧ t.block.pulseTx.toNat = s.block.pulseTx.toNat - j
        ∧ (ledRx t.block = true ↔ j < s.block.pulseRx.toNat) ∧ (ledTx t.block = true ↔ j < s.block.pulseTx.toNat))

/-- The latency law (44_arbiter.md section 5, derived by the spec): from any state of BRIDGE with bytes waiting, FLUSH_TICKS ticks set FLUSH_PEND and bring the count
back to where it was, and the next INSTEP with the endpoint ready makes a transfer. -/
def Obligations.LatencyLaw : Prop :=
  ∀ s : State, s.Inv → s.block.bridge = true → rxQueue s.block ≠ [] →
    ∃ t u n, runAll (List.replicate s.block.cfg.flushTicks Instr.tick) s = some t
      ∧ t.block.flushPend = true ∧ t.block.flushCnt = s.block.flushCnt ∧ rxQueue t.block = rxQueue s.block
      ∧ exec (.instep true) t = .next u
      ∧ 0 < n ∧ n ≤ s.block.cfg.epInSize
      ∧ rxQueue u.block = (rxQueue s.block).drop n ∧ u.block.flushPend = false
      ∧ u.responses = t.responses ++ [⟨2, 0x0100 + BitVec.ofNat 16 n, (rxQueue s.block).take n⟩]

/-- The backpressure law (44_arbiter.md section 5, derived by the spec): a transfer of `n` bytes that finds free space `f < n` is left pending, and stays so through any
commands of the data ports with fewer than `n - f` TXPOPs among them. -/
def Obligations.BackpressureLaw : Prop :=
  ∀ (bytes : List Byte) (s t : State) (is : List Instr), s.Inv → s.block.bridge = true →
    (free (maskTx s.block) s.block.tx).toNat < bytes.length →
    (∀ i ∈ is, isDataCommand i = true) →
    is.count .txpop < bytes.length - (free (maskTx s.block) s.block.tx).toNat →
    runAll is s = some t →
    ∃ f : Byte, f.toNat < bytes.length ∧ f = free (maskTx t.block) t.block.tx
      ∧ CompletesWith (.outstep bytes) t t.block 2 (0x2100 + f.setWidth 16) []

/-! ### Observation, trace and flags -/

/-- R152: NOP on every port 0 to 6. -/
def Obligations.NopDoesNothing : Prop :=
  ∀ (port : Port) (s : State), GateInSync s.block →
    CompletesWith (.nop port) s s.block port.code 0x0000 []
    ∧ encode (.nop port) = ⟨BitVec.ofNat 16 (8192 * port.code.toNat), []⟩
    ∧ (∀ p : BitVec 3, p ≠ 7 → decode ⟨mkWord p 0 0, []⟩ ≠ .error .role)
    ∧ (∀ (d8 : Byte) (payload : List Byte), decode ⟨mkWord 7 0 d8, payload⟩ = .error .illegal)
    ∧ (∀ (d8 : Byte) (payload : List Byte), d8 ≠ 0 → decode ⟨mkWord port.code 0 d8, payload⟩ = .error .resv)
    ∧ (∀ payload : List Byte, payload ≠ [] → decode ⟨mkWord port.code 0 0, payload⟩ = .error .payloadLen)

/-- R153 over the map of R50 and R51 and the state's indices: CSRRD answers the byte at its index and changes nothing. -/
def Obligations.CsrrdReadsTheObservationMap : Prop :=
  ∀ (i : Byte) (s : State), GateInSync s.block →
    let k := s.block
    ∃ v : Byte, CompletesWith (.csrrd i) s k 6 (0x0100 + v.setWidth 16) []
    ∧ (i = 0x00 → v = k.rx.w) ∧ (i = 0x01 → v = k.rx.r) ∧ (i = 0x02 → v = k.tx.w) ∧ (i = 0x03 → v = k.tx.r)
    ∧ (i = 0x04 → v.toNat = 16 * (stateCode k.prev).toNat + (stateCode k.state).toNat)
    ∧ (i = 0x05 → v.toNat = 9 + 2 * k.ienSusp.toNat + 4 * k.ienWake.toNat)
    ∧ (i = 0x06 → v = k.config)
    ∧ (i = 0x07 → v.toNat = k.bridge.toNat + 2 * k.flushPend.toNat + 4 * k.rxOvr.toNat)
    ∧ (i = 0x08 → v = k.flushCnt) ∧ (i = 0x09 → v = k.pulseRx) ∧ (i = 0x0A → v = k.pulseTx)
    ∧ (i = 0x0B → v.toNat = (decide (k.pulseRx ≠ 0)).toNat + 2 * (decide (k.pulseTx ≠ 0)).toNat
        + 4 * (k.cls.getLsbD 0).toNat + 8 * (decide (k.state = .suspended)).toNat + 16 * (decide (k.lcBaud ≠ 0)).toNat)
    ∧ (i = 0x0C → v.toNat = k.faultCode.toNat + 128 * k.faultMulti.toNat)
    ∧ (i = 0x0D → v = k.faultCmd)
    ∧ (i = 0x10 → v = k.lcBaud.extractLsb' 0 8) ∧ (i = 0x11 → v = k.lcBaud.extractLsb' 8 8)
    ∧ (i = 0x12 → v = k.lcBaud.extractLsb' 16 8) ∧ (i = 0x13 → v = k.lcBaud.extractLsb' 24 8)
    ∧ (i = 0x14 → v = k.lcFmt) ∧ (i = 0x15 → v = k.lcParity) ∧ (i = 0x16 → v = k.lcBits)
    ∧ (i = 0x18 → v = k.cls.extractLsb' 0 8) ∧ (i = 0x19 → v = k.cls.extractLsb' 8 8)
    ∧ (i = 0x20 → v = BitVec.ofNat 8 (k.cfg.nRx - 1)) ∧ (i = 0x21 → v = BitVec.ofNat 8 (k.cfg.nTx - 1))
    ∧ (i = 0x22 → v = BitVec.ofNat 8 k.cfg.thresh)
    ∧ (i = 0x23 → v = BitVec.ofNat 8 k.cfg.epInSize) ∧ (i = 0x24 → v = BitVec.ofNat 8 k.cfg.epOutSize)
    ∧ (i = 0x25 → v = BitVec.ofNat 8 k.cfg.flushTicks) ∧ (i = 0x26 → v = BitVec.ofNat 8 k.cfg.pulseTicks)
    ∧ (i ∈ [0x0E, 0x0F, 0x17, 0x1A, 0x1B, 0x1C, 0x1D, 0x1E, 0x1F] ∨ 0x27 ≤ i.toNat → v = 0)
    ∧ encode (.csrrd i) = ⟨0xCF00 + i.setWidth 16, []⟩
    ∧ CommandFaults 0x0F 6 0x00 (fun _ => 0)

/-- The observation law (45_system.md, derived by the spec): NOPs and CSRRDs put before any commands change neither what those answer nor the final block. -/
def Obligations.ObservationLaw : Prop :=
  ∀ (seen is : List Instr) (s u : State), GateInSync s.block → (∀ i ∈ seen, isObservation i = true) →
    runAll is s = some u →
    ∃ (v : State) (answers : List Response), runAll (seen ++ is) s = some v ∧ v.block = u.block
      ∧ answers.length = seen.length
      ∧ u.responses = s.responses ++ u.responses.drop s.responses.length
      ∧ v.responses = s.responses ++ answers ++ u.responses.drop s.responses.length

/-- R46 and R47: the trace only grows at its end; an accepted SETLC appends its UART_CFG, an EORST its EP_REINIT, and nothing else appends, a command that
faults included. -/
def Obligations.TraceIsAppendOnly : Prop :=
  (∀ (i : Instr) (s t : State), exec i s = .next t →
    t.block.trace = s.block.trace ++
      (match i with
        | .eorst => [.epReinit]
        | .setlc baud fmt parity bits =>
            if acceptsControl s.block.state = true ∧ validEncoding fmt parity bits = true
            then [.uartCfg baud fmt parity bits] else []
        | _ => []))
  ∧ ∀ (e : FaultCode) (c : Command) (s : State), (takeFault e c s).block.trace = s.block.trace

/-- R30: RX_OVR is set exactly when a byte arrives in BRIDGE with the RX ring full, no command clears it, and block reset does. -/
def Obligations.RxOverrunIsSticky : Prop :=
  (∀ (s : State) (c : Command) (rest : List Input),
    configOk s.block.cfg = true → s.inbox = .command c :: rest →
    ∃ t, step s = .next t
      ∧ (t.block.rxOvr = true ↔
          s.block.rxOvr = true
          ∨ (∃ b, decodeFor s.block.cfg c = .ok (.rxpush b)) ∧ s.block.bridge = true
              ∧ occ (maskRx s.block) s.block.rx = maskRx s.block))
  ∧ (∀ (s : State) (rest : List Input), configOk s.block.cfg = true → s.inbox = .blockReset :: rest →
    ∃ t, step s = .next t ∧ t.block.rxOvr = false)
end

