-- ==== Sys2Proof/Laws/Decode.lean ====
section
/-!
SUPPORT. The fields of a command word put together and taken apart, and the ports and their numbers.
-/
namespace Sys2Proof

/-- A command word as a number made of its three fields. -/
theorem mkWord_toNat (p : BitVec 3) (op : BitVec 5) (d8 : Byte) :
    (mkWord p op d8).toNat = p.toNat * 8192 + op.toNat * 256 + d8.toNat := by
  have h1 := op.isLt
  have h2 := d8.isLt
  rw [mkWord, BitVec.toNat_append, ← Nat.shiftLeft_add_eq_or_of_lt d8.isLt, BitVec.toNat_append,
    ← Nat.shiftLeft_add_eq_or_of_lt op.isLt, Nat.shiftLeft_eq, Nat.shiftLeft_eq]
  omega

theorem portField_toNat (w : Word) : (portField w).toNat = w.toNat / 8192 := by
  have h := w.isLt
  simp only [portField, BitVec.extractLsb'_toNat, Nat.shiftRight_eq_div_pow]; omega

theorem opField_toNat (w : Word) : (opField w).toNat = w.toNat / 256 % 32 := by
  simp only [opField, BitVec.extractLsb'_toNat, Nat.shiftRight_eq_div_pow]

theorem d8Field_toNat (w : Word) : (d8Field w).toNat = w.toNat % 256 := by
  simp only [d8Field, BitVec.extractLsb'_toNat, Nat.shiftRight_eq_div_pow]; omega

@[simp] theorem portField_mkWord (p : BitVec 3) (op : BitVec 5) (d8 : Byte) : portField (mkWord p op d8) = p := by
  have h1 := op.isLt
  have h2 := d8.isLt
  apply BitVec.eq_of_toNat_eq
  rw [portField_toNat, mkWord_toNat]; omega

@[simp] theorem opField_mkWord (p : BitVec 3) (op : BitVec 5) (d8 : Byte) : opField (mkWord p op d8) = op := by
  have h1 := op.isLt
  have h2 := d8.isLt
  apply BitVec.eq_of_toNat_eq
  rw [opField_toNat, mkWord_toNat]; omega

@[simp] theorem d8Field_mkWord (p : BitVec 3) (op : BitVec 5) (d8 : Byte) : d8Field (mkWord p op d8) = d8 := by
  have h1 := op.isLt
  have h2 := d8.isLt
  apply BitVec.eq_of_toNat_eq
  rw [d8Field_toNat, mkWord_toNat]; omega

/-- A command word is its three fields. -/
theorem mkWord_fields (w : Word) : mkWord (portField w) (opField w) (d8Field w) = w := by
  have h := w.isLt
  apply BitVec.eq_of_toNat_eq
  rw [mkWord_toNat, portField_toNat, opField_toNat, d8Field_toNat]; omega

/-- A port and its number. -/
@[simp] theorem ofCode_code (p : Port) : Port.ofCode p.code = some p := by cases p <;> rfl

/-- Only the seven numbers of the ports name a port. -/
theorem ofCode_eq_some {c : BitVec 3} {p : Port} (h : Port.ofCode c = some p) : c = p.code := by
  revert h; revert c; cases p <;> decide

/-- Port 7 is the one number that names no port. -/
theorem ofCode_eq_none {c : BitVec 3} : Port.ofCode c = none ↔ c = 7 := by
  revert c; decide

end Sys2Proof
end

