-- ==== Sys2Proof/Laws/State.lean ====
section
/-!
SUPPORT. One lemma per field for each named update of the block and of the machine, so that no proof unfolds a record update.
-/
namespace Sys2Proof.Machine

/-! `resetRx` -/

@[simp] theorem resetRx_cfg (k : Block) : (resetRx k).cfg = k.cfg := rfl
@[simp] theorem resetRx_rx (k : Block) : (resetRx k).rx = ringReset k.rx := rfl
@[simp] theorem resetRx_tx (k : Block) : (resetRx k).tx = k.tx := rfl
@[simp] theorem resetRx_state (k : Block) : (resetRx k).state = k.state := rfl
@[simp] theorem resetRx_prev (k : Block) : (resetRx k).prev = k.prev := rfl
@[simp] theorem resetRx_config (k : Block) : (resetRx k).config = k.config := rfl
@[simp] theorem resetRx_ienSusp (k : Block) : (resetRx k).ienSusp = k.ienSusp := rfl
@[simp] theorem resetRx_ienWake (k : Block) : (resetRx k).ienWake = k.ienWake := rfl
@[simp] theorem resetRx_bridge (k : Block) : (resetRx k).bridge = k.bridge := rfl
@[simp] theorem resetRx_flushPend (k : Block) : (resetRx k).flushPend = k.flushPend := rfl
@[simp] theorem resetRx_rxOvr (k : Block) : (resetRx k).rxOvr = k.rxOvr := rfl
@[simp] theorem resetRx_flushCnt (k : Block) : (resetRx k).flushCnt = k.flushCnt := rfl
@[simp] theorem resetRx_pulseRx (k : Block) : (resetRx k).pulseRx = k.pulseRx := rfl
@[simp] theorem resetRx_pulseTx (k : Block) : (resetRx k).pulseTx = k.pulseTx := rfl
@[simp] theorem resetRx_lcBaud (k : Block) : (resetRx k).lcBaud = k.lcBaud := rfl
@[simp] theorem resetRx_lcFmt (k : Block) : (resetRx k).lcFmt = k.lcFmt := rfl
@[simp] theorem resetRx_lcParity (k : Block) : (resetRx k).lcParity = k.lcParity := rfl
@[simp] theorem resetRx_lcBits (k : Block) : (resetRx k).lcBits = k.lcBits := rfl
@[simp] theorem resetRx_cls (k : Block) : (resetRx k).cls = k.cls := rfl
@[simp] theorem resetRx_faultCode (k : Block) : (resetRx k).faultCode = k.faultCode := rfl
@[simp] theorem resetRx_faultMulti (k : Block) : (resetRx k).faultMulti = k.faultMulti := rfl
@[simp] theorem resetRx_faultCmd (k : Block) : (resetRx k).faultCmd = k.faultCmd := rfl
@[simp] theorem resetRx_trace (k : Block) : (resetRx k).trace = k.trace := rfl

/-! `resetTx` -/

@[simp] theorem resetTx_cfg (k : Block) : (resetTx k).cfg = k.cfg := rfl
@[simp] theorem resetTx_rx (k : Block) : (resetTx k).rx = k.rx := rfl
@[simp] theorem resetTx_tx (k : Block) : (resetTx k).tx = ringReset k.tx := rfl
@[simp] theorem resetTx_state (k : Block) : (resetTx k).state = k.state := rfl
@[simp] theorem resetTx_prev (k : Block) : (resetTx k).prev = k.prev := rfl
@[simp] theorem resetTx_config (k : Block) : (resetTx k).config = k.config := rfl
@[simp] theorem resetTx_ienSusp (k : Block) : (resetTx k).ienSusp = k.ienSusp := rfl
@[simp] theorem resetTx_ienWake (k : Block) : (resetTx k).ienWake = k.ienWake := rfl
@[simp] theorem resetTx_bridge (k : Block) : (resetTx k).bridge = k.bridge := rfl
@[simp] theorem resetTx_flushPend (k : Block) : (resetTx k).flushPend = k.flushPend := rfl
@[simp] theorem resetTx_rxOvr (k : Block) : (resetTx k).rxOvr = k.rxOvr := rfl
@[simp] theorem resetTx_flushCnt (k : Block) : (resetTx k).flushCnt = k.flushCnt := rfl
@[simp] theorem resetTx_pulseRx (k : Block) : (resetTx k).pulseRx = k.pulseRx := rfl
@[simp] theorem resetTx_pulseTx (k : Block) : (resetTx k).pulseTx = k.pulseTx := rfl
@[simp] theorem resetTx_lcBaud (k : Block) : (resetTx k).lcBaud = k.lcBaud := rfl
@[simp] theorem resetTx_lcFmt (k : Block) : (resetTx k).lcFmt = k.lcFmt := rfl
@[simp] theorem resetTx_lcParity (k : Block) : (resetTx k).lcParity = k.lcParity := rfl
@[simp] theorem resetTx_lcBits (k : Block) : (resetTx k).lcBits = k.lcBits := rfl
@[simp] theorem resetTx_cls (k : Block) : (resetTx k).cls = k.cls := rfl
@[simp] theorem resetTx_faultCode (k : Block) : (resetTx k).faultCode = k.faultCode := rfl
@[simp] theorem resetTx_faultMulti (k : Block) : (resetTx k).faultMulti = k.faultMulti := rfl
@[simp] theorem resetTx_faultCmd (k : Block) : (resetTx k).faultCmd = k.faultCmd := rfl
@[simp] theorem resetTx_trace (k : Block) : (resetTx k).trace = k.trace := rfl

/-! `armRx` -/

@[simp] theorem armRx_cfg (k : Block) : (armRx k).cfg = k.cfg := rfl
@[simp] theorem armRx_rx (k : Block) : (armRx k).rx = k.rx := rfl
@[simp] theorem armRx_tx (k : Block) : (armRx k).tx = k.tx := rfl
@[simp] theorem armRx_state (k : Block) : (armRx k).state = k.state := rfl
@[simp] theorem armRx_prev (k : Block) : (armRx k).prev = k.prev := rfl
@[simp] theorem armRx_config (k : Block) : (armRx k).config = k.config := rfl
@[simp] theorem armRx_ienSusp (k : Block) : (armRx k).ienSusp = k.ienSusp := rfl
@[simp] theorem armRx_ienWake (k : Block) : (armRx k).ienWake = k.ienWake := rfl
@[simp] theorem armRx_bridge (k : Block) : (armRx k).bridge = k.bridge := rfl
@[simp] theorem armRx_flushPend (k : Block) : (armRx k).flushPend = k.flushPend := rfl
@[simp] theorem armRx_rxOvr (k : Block) : (armRx k).rxOvr = k.rxOvr := rfl
@[simp] theorem armRx_flushCnt (k : Block) : (armRx k).flushCnt = k.flushCnt := rfl
@[simp] theorem armRx_pulseRx (k : Block) : (armRx k).pulseRx = pulseLoad k := rfl
@[simp] theorem armRx_pulseTx (k : Block) : (armRx k).pulseTx = k.pulseTx := rfl
@[simp] theorem armRx_lcBaud (k : Block) : (armRx k).lcBaud = k.lcBaud := rfl
@[simp] theorem armRx_lcFmt (k : Block) : (armRx k).lcFmt = k.lcFmt := rfl
@[simp] theorem armRx_lcParity (k : Block) : (armRx k).lcParity = k.lcParity := rfl
@[simp] theorem armRx_lcBits (k : Block) : (armRx k).lcBits = k.lcBits := rfl
@[simp] theorem armRx_cls (k : Block) : (armRx k).cls = k.cls := rfl
@[simp] theorem armRx_faultCode (k : Block) : (armRx k).faultCode = k.faultCode := rfl
@[simp] theorem armRx_faultMulti (k : Block) : (armRx k).faultMulti = k.faultMulti := rfl
@[simp] theorem armRx_faultCmd (k : Block) : (armRx k).faultCmd = k.faultCmd := rfl
@[simp] theorem armRx_trace (k : Block) : (armRx k).trace = k.trace := rfl

/-! `armTx` -/

@[simp] theorem armTx_cfg (k : Block) : (armTx k).cfg = k.cfg := rfl
@[simp] theorem armTx_rx (k : Block) : (armTx k).rx = k.rx := rfl
@[simp] theorem armTx_tx (k : Block) : (armTx k).tx = k.tx := rfl
@[simp] theorem armTx_state (k : Block) : (armTx k).state = k.state := rfl
@[simp] theorem armTx_prev (k : Block) : (armTx k).prev = k.prev := rfl
@[simp] theorem armTx_config (k : Block) : (armTx k).config = k.config := rfl
@[simp] theorem armTx_ienSusp (k : Block) : (armTx k).ienSusp = k.ienSusp := rfl
@[simp] theorem armTx_ienWake (k : Block) : (armTx k).ienWake = k.ienWake := rfl
@[simp] theorem armTx_bridge (k : Block) : (armTx k).bridge = k.bridge := rfl
@[simp] theorem armTx_flushPend (k : Block) : (armTx k).flushPend = k.flushPend := rfl
@[simp] theorem armTx_rxOvr (k : Block) : (armTx k).rxOvr = k.rxOvr := rfl
@[simp] theorem armTx_flushCnt (k : Block) : (armTx k).flushCnt = k.flushCnt := rfl
@[simp] theorem armTx_pulseRx (k : Block) : (armTx k).pulseRx = k.pulseRx := rfl
@[simp] theorem armTx_pulseTx (k : Block) : (armTx k).pulseTx = pulseLoad k := rfl
@[simp] theorem armTx_lcBaud (k : Block) : (armTx k).lcBaud = k.lcBaud := rfl
@[simp] theorem armTx_lcFmt (k : Block) : (armTx k).lcFmt = k.lcFmt := rfl
@[simp] theorem armTx_lcParity (k : Block) : (armTx k).lcParity = k.lcParity := rfl
@[simp] theorem armTx_lcBits (k : Block) : (armTx k).lcBits = k.lcBits := rfl
@[simp] theorem armTx_cls (k : Block) : (armTx k).cls = k.cls := rfl
@[simp] theorem armTx_faultCode (k : Block) : (armTx k).faultCode = k.faultCode := rfl
@[simp] theorem armTx_faultMulti (k : Block) : (armTx k).faultMulti = k.faultMulti := rfl
@[simp] theorem armTx_faultCmd (k : Block) : (armTx k).faultCmd = k.faultCmd := rfl
@[simp] theorem armTx_trace (k : Block) : (armTx k).trace = k.trace := rfl

/-! `setEnables` -/

@[simp] theorem setEnables_cfg (a b : Bool) (k : Block) : (setEnables a b k).cfg = k.cfg := rfl
@[simp] theorem setEnables_rx (a b : Bool) (k : Block) : (setEnables a b k).rx = k.rx := rfl
@[simp] theorem setEnables_tx (a b : Bool) (k : Block) : (setEnables a b k).tx = k.tx := rfl
@[simp] theorem setEnables_state (a b : Bool) (k : Block) : (setEnables a b k).state = k.state := rfl
@[simp] theorem setEnables_prev (a b : Bool) (k : Block) : (setEnables a b k).prev = k.prev := rfl
@[simp] theorem setEnables_config (a b : Bool) (k : Block) : (setEnables a b k).config = k.config := rfl
@[simp] theorem setEnables_ienSusp (a b : Bool) (k : Block) : (setEnables a b k).ienSusp = a := rfl
@[simp] theorem setEnables_ienWake (a b : Bool) (k : Block) : (setEnables a b k).ienWake = b := rfl
@[simp] theorem setEnables_bridge (a b : Bool) (k : Block) : (setEnables a b k).bridge = k.bridge := rfl
@[simp] theorem setEnables_flushPend (a b : Bool) (k : Block) : (setEnables a b k).flushPend = k.flushPend := rfl
@[simp] theorem setEnables_rxOvr (a b : Bool) (k : Block) : (setEnables a b k).rxOvr = k.rxOvr := rfl
@[simp] theorem setEnables_flushCnt (a b : Bool) (k : Block) : (setEnables a b k).flushCnt = k.flushCnt := rfl
@[simp] theorem setEnables_pulseRx (a b : Bool) (k : Block) : (setEnables a b k).pulseRx = k.pulseRx := rfl
@[simp] theorem setEnables_pulseTx (a b : Bool) (k : Block) : (setEnables a b k).pulseTx = k.pulseTx := rfl
@[simp] theorem setEnables_lcBaud (a b : Bool) (k : Block) : (setEnables a b k).lcBaud = k.lcBaud := rfl
@[simp] theorem setEnables_lcFmt (a b : Bool) (k : Block) : (setEnables a b k).lcFmt = k.lcFmt := rfl
@[simp] theorem setEnables_lcParity (a b : Bool) (k : Block) : (setEnables a b k).lcParity = k.lcParity := rfl
@[simp] theorem setEnables_lcBits (a b : Bool) (k : Block) : (setEnables a b k).lcBits = k.lcBits := rfl
@[simp] theorem setEnables_cls (a b : Bool) (k : Block) : (setEnables a b k).cls = k.cls := rfl
@[simp] theorem setEnables_faultCode (a b : Bool) (k : Block) : (setEnables a b k).faultCode = k.faultCode := rfl
@[simp] theorem setEnables_faultMulti (a b : Bool) (k : Block) : (setEnables a b k).faultMulti = k.faultMulti := rfl
@[simp] theorem setEnables_faultCmd (a b : Bool) (k : Block) : (setEnables a b k).faultCmd = k.faultCmd := rfl
@[simp] theorem setEnables_trace (a b : Bool) (k : Block) : (setEnables a b k).trace = k.trace := rfl

/-! `emit` -/

@[simp] theorem emit_cfg (e : Event) (k : Block) : (emit e k).cfg = k.cfg := rfl
@[simp] theorem emit_rx (e : Event) (k : Block) : (emit e k).rx = k.rx := rfl
@[simp] theorem emit_tx (e : Event) (k : Block) : (emit e k).tx = k.tx := rfl
@[simp] theorem emit_state (e : Event) (k : Block) : (emit e k).state = k.state := rfl
@[simp] theorem emit_prev (e : Event) (k : Block) : (emit e k).prev = k.prev := rfl
@[simp] theorem emit_config (e : Event) (k : Block) : (emit e k).config = k.config := rfl
@[simp] theorem emit_ienSusp (e : Event) (k : Block) : (emit e k).ienSusp = k.ienSusp := rfl
@[simp] theorem emit_ienWake (e : Event) (k : Block) : (emit e k).ienWake = k.ienWake := rfl
@[simp] theorem emit_bridge (e : Event) (k : Block) : (emit e k).bridge = k.bridge := rfl
@[simp] theorem emit_flushPend (e : Event) (k : Block) : (emit e k).flushPend = k.flushPend := rfl
@[simp] theorem emit_rxOvr (e : Event) (k : Block) : (emit e k).rxOvr = k.rxOvr := rfl
@[simp] theorem emit_flushCnt (e : Event) (k : Block) : (emit e k).flushCnt = k.flushCnt := rfl
@[simp] theorem emit_pulseRx (e : Event) (k : Block) : (emit e k).pulseRx = k.pulseRx := rfl
@[simp] theorem emit_pulseTx (e : Event) (k : Block) : (emit e k).pulseTx = k.pulseTx := rfl
@[simp] theorem emit_lcBaud (e : Event) (k : Block) : (emit e k).lcBaud = k.lcBaud := rfl
@[simp] theorem emit_lcFmt (e : Event) (k : Block) : (emit e k).lcFmt = k.lcFmt := rfl
@[simp] theorem emit_lcParity (e : Event) (k : Block) : (emit e k).lcParity = k.lcParity := rfl
@[simp] theorem emit_lcBits (e : Event) (k : Block) : (emit e k).lcBits = k.lcBits := rfl
@[simp] theorem emit_cls (e : Event) (k : Block) : (emit e k).cls = k.cls := rfl
@[simp] theorem emit_faultCode (e : Event) (k : Block) : (emit e k).faultCode = k.faultCode := rfl
@[simp] theorem emit_faultMulti (e : Event) (k : Block) : (emit e k).faultMulti = k.faultMulti := rfl
@[simp] theorem emit_faultCmd (e : Event) (k : Block) : (emit e k).faultCmd = k.faultCmd := rfl
@[simp] theorem emit_trace (e : Event) (k : Block) : (emit e k).trace = k.trace ++ [e] := rfl

/-! `exitActions` -/

@[simp] theorem exitActions_cfg (k : Block) : (exitActions k).cfg = k.cfg := rfl
@[simp] theorem exitActions_rx (k : Block) : (exitActions k).rx = ringReset k.rx := rfl
@[simp] theorem exitActions_tx (k : Block) : (exitActions k).tx = ringReset k.tx := rfl
@[simp] theorem exitActions_state (k : Block) : (exitActions k).state = k.state := rfl
@[simp] theorem exitActions_prev (k : Block) : (exitActions k).prev = k.prev := rfl
@[simp] theorem exitActions_config (k : Block) : (exitActions k).config = k.config := rfl
@[simp] theorem exitActions_ienSusp (k : Block) : (exitActions k).ienSusp = k.ienSusp := rfl
@[simp] theorem exitActions_ienWake (k : Block) : (exitActions k).ienWake = k.ienWake := rfl
@[simp] theorem exitActions_bridge (k : Block) : (exitActions k).bridge = k.bridge := rfl
@[simp] theorem exitActions_flushPend (k : Block) : (exitActions k).flushPend = false := rfl
@[simp] theorem exitActions_rxOvr (k : Block) : (exitActions k).rxOvr = k.rxOvr := rfl
@[simp] theorem exitActions_flushCnt (k : Block) : (exitActions k).flushCnt = 0 := rfl
@[simp] theorem exitActions_pulseRx (k : Block) : (exitActions k).pulseRx = 0 := rfl
@[simp] theorem exitActions_pulseTx (k : Block) : (exitActions k).pulseTx = 0 := rfl
@[simp] theorem exitActions_lcBaud (k : Block) : (exitActions k).lcBaud = k.lcBaud := rfl
@[simp] theorem exitActions_lcFmt (k : Block) : (exitActions k).lcFmt = k.lcFmt := rfl
@[simp] theorem exitActions_lcParity (k : Block) : (exitActions k).lcParity = k.lcParity := rfl
@[simp] theorem exitActions_lcBits (k : Block) : (exitActions k).lcBits = k.lcBits := rfl
@[simp] theorem exitActions_cls (k : Block) : (exitActions k).cls = k.cls := rfl
@[simp] theorem exitActions_faultCode (k : Block) : (exitActions k).faultCode = k.faultCode := rfl
@[simp] theorem exitActions_faultMulti (k : Block) : (exitActions k).faultMulti = k.faultMulti := rfl
@[simp] theorem exitActions_faultCmd (k : Block) : (exitActions k).faultCmd = k.faultCmd := rfl
@[simp] theorem exitActions_trace (k : Block) : (exitActions k).trace = k.trace := rfl

/-! `respond` -/

@[simp] theorem respond_block (p : BitVec 3) (a : Answer) (s : State) : (respond p a s).block = s.block := rfl
@[simp] theorem respond_inbox (p : BitVec 3) (a : Answer) (s : State) : (respond p a s).inbox = s.inbox := rfl
@[simp] theorem respond_responses (p : BitVec 3) (a : Answer) (s : State) :
    (respond p a s).responses = s.responses ++ [⟨p, responseWord a, a.payload⟩] := rfl

/-! Derived values that an update does not touch -/

@[simp] theorem gate_resetRx (k : Block) : gate (resetRx k) = gate k := rfl
@[simp] theorem gate_resetTx (k : Block) : gate (resetTx k) = gate k := rfl
@[simp] theorem gate_armRx (k : Block) : gate (armRx k) = gate k := rfl
@[simp] theorem gate_armTx (k : Block) : gate (armTx k) = gate k := rfl
@[simp] theorem gate_setEnables (a b : Bool) (k : Block) : gate (setEnables a b k) = gate k := rfl
@[simp] theorem gate_emit (e : Event) (k : Block) : gate (emit e k) = gate k := rfl
@[simp] theorem gate_exitActions (k : Block) : gate (exitActions k) = gate k := rfl

end Sys2Proof.Machine
end

