-- ==== Sys2Proof/Laws/Exec.lean ====
section
/-!
SUPPORT. What the shared operations that end a command can do, said once: the mode update, the completion of a command, taking a fault,
and the step.
-/
namespace Sys2Proof.Machine

/-- Everything `gate_update` can do: leave BRIDGE with the exit actions, enter it, or nothing. -/
theorem gateUpdate_cases (k : Block) :
    (k.bridge = true ∧ gate k = false ∧ gateUpdate k = { exitActions k with bridge := false })
    ∨ (k.bridge = false ∧ gate k = true ∧ gateUpdate k = { k with bridge := true })
    ∨ (k.bridge = gate k ∧ gateUpdate k = k) := by
  unfold gateUpdate
  cases hb : k.bridge <;> cases hg : gate k <;> simp

/-- Where the mode is already the signal GATE, `gate_update` changes nothing. -/
theorem gateUpdate_of_sync {k : Block} (h : GateInSync k) : gateUpdate k = k := by
  unfold GateInSync at h
  unfold gateUpdate
  cases hb : k.bridge <;> simp_all

/-- After `gate_update` the mode is the signal GATE, from any block. -/
theorem gateUpdate_inSync (k : Block) : GateInSync (gateUpdate k) := by
  rcases gateUpdate_cases k with ⟨-, hg, h⟩ | ⟨-, hg, h⟩ | ⟨hb, h⟩ <;> rw [h, GateInSync]
  · exact hg.symm
  · exact hg.symm
  · exact hb

/-- Everything a completed command leaves: the updated block, the same inputs, one more response. -/
theorem complete_eq (p : Port) (s : State) (k : Block) (a : Answer) :
    complete p s (k, a) = .next { block := gateUpdate k, inbox := s.inbox,
                                  responses := s.responses ++ [⟨p.code, responseWord a, a.payload⟩] } := rfl

/-- Everything a fault leaves: the record, the same inputs, one more response. -/
theorem takeFault_eq (e : FaultCode) (c : Command) (s : State) :
    takeFault e c s = { block := recordFault e c.word s.block, inbox := s.inbox,
                        responses := s.responses ++
                          [⟨portField c.word, responseWord (answerFault e), []⟩] } := rfl

/-- Everything `decodeFor` can answer. -/
theorem decodeFor_cases (cfg : Config) (c : Command) :
    (∃ e, decode c = .error e ∧ decodeFor cfg c = .error e)
    ∨ (∃ i, decode c = .ok i ∧ oversize cfg c = true ∧ decodeFor cfg c = .error .outOversize)
    ∨ (∃ i, decode c = .ok i ∧ oversize cfg c = false ∧ decodeFor cfg c = .ok i) := by
  unfold decodeFor
  cases hd : decode c with
  | error e => exact .inl ⟨e, rfl, rfl⟩
  | ok i => cases ho : oversize cfg c <;> simp

/-- Everything a step can answer: it refuses parameters that are not well-formed, waits, resets, takes a fault, or executes. -/
theorem step_cases (s : State) :
    (configOk s.block.cfg = false ∧ step s = .refused .illFormedConfig)
    ∨ (configOk s.block.cfg = true ∧
        ((s.inbox = [] ∧ step s = .next s)
        ∨ (∃ rest, s.inbox = .blockReset :: rest ∧ step s = .next (blockReset { s with inbox := rest }))
        ∨ (∃ c rest e, s.inbox = .command c :: rest ∧ decodeFor s.block.cfg c = .error e
            ∧ step s = .next (takeFault e c { s with inbox := rest }))
        ∨ (∃ c rest i, s.inbox = .command c :: rest ∧ decodeFor s.block.cfg c = .ok i
            ∧ step s = exec i { s with inbox := rest }))) := by
  unfold step
  cases hc : configOk s.block.cfg with
  | false => exact .inl ⟨rfl, by simp⟩
  | true =>
    refine .inr ⟨rfl, ?_⟩
    rw [if_neg (by simp)]
    unfold takeInput
    match hi : s.inbox with
    | [] => exact .inl ⟨rfl, rfl⟩
    | .blockReset :: rest => exact .inr (.inl ⟨rest, rfl, rfl⟩)
    | .command c :: rest =>
      cases hd : decodeFor s.block.cfg c with
      | error e => exact .inr (.inr (.inl ⟨c, rest, e, rfl, hd, by simp [hd]⟩))
      | ok i => exact .inr (.inr (.inr ⟨c, rest, i, rfl, hd, by simp [hd]⟩))

end Sys2Proof.Machine
end

