-- ==== Sys2Proof/Laws/Memory.lean ====
section
/-!
SUPPORT. Reading and writing a ring array: what a write does to every byte, and that it keeps the canonical form.
-/
namespace Sys2Proof.Machine

/-- An index below every listed one reads as an unlisted byte. -/
theorem memRead_below {lo a : Nat} {m : Memory} (h : Memory.wfFrom lo m = true) (ha : a < lo) :
    memRead a m = blankByte := by
  induction m generalizing lo with
  | nil => rfl
  | cons c m ih =>
    obtain ⟨b, x⟩ := c
    simp only [Memory.wfFrom, Bool.and_eq_true, decide_eq_true_eq] at h
    obtain ⟨⟨hlo, -⟩, hm⟩ := h
    have hne : a ≠ b := by omega
    simp only [memRead, if_neg hne]
    exact ih hm (by omega)

/-- A canonical array is canonical from any lower bound that is below its first. -/
theorem wfFrom_mono {lo lo' : Nat} {m : Memory} (h : Memory.wfFrom lo m = true) (hle : lo' ≤ lo) :
    Memory.wfFrom lo' m = true := by
  cases m with
  | nil => rfl
  | cons c m =>
    obtain ⟨b, x⟩ := c
    simp only [Memory.wfFrom, Bool.and_eq_true, decide_eq_true_eq] at h ⊢
    exact ⟨⟨by omega, h.1.2⟩, h.2⟩

/-- A write gives every byte: the written one its new value, every other its old one. -/
theorem memRead_memWrite_from {lo : Nat} {m : Memory} (h : Memory.wfFrom lo m = true) (a c : Nat) (v : Byte) :
    memRead c (memWrite a v m) = if c = a then v else memRead c m := by
  induction m generalizing lo with
  | nil =>
    by_cases hv : v = blankByte
    · simp [memWrite, hv, memRead]
    · by_cases hc : c = a <;> simp [memWrite, hv, memRead, hc]
  | cons d m ih =>
    obtain ⟨b, x⟩ := d
    have hwf := h
    simp only [Memory.wfFrom, Bool.and_eq_true, decide_eq_true_eq] at h
    obtain ⟨⟨hlo, hx⟩, hm⟩ := h
    unfold memWrite
    by_cases hab : a < b
    · by_cases hv : v = blankByte
      · rw [if_pos hab, if_pos hv]
        by_cases hc : c = a
        · subst hc
          have hne : c ≠ b := by omega
          simp only [memRead, if_neg hne, if_true, hv]
          exact memRead_below hm (by omega)
        · simp [hc]
      · rw [if_pos hab, if_neg hv]
        simp only [memRead]
    · by_cases heq : a = b
      · subst heq
        by_cases hv : v = blankByte
        · rw [if_neg hab, if_pos rfl, if_pos hv]
          by_cases hc : c = a
          · subst hc
            simp only [if_true, hv]
            exact memRead_below hm (by omega)
          · simp [memRead, hc]
        · rw [if_neg hab, if_pos rfl, if_neg hv]
          by_cases hc : c = a <;> simp [memRead, hc]
      · rw [if_neg hab, if_neg heq]
        simp only [memRead, ih hm]
        by_cases hc : c = b
        · have : c ≠ a := by omega
          simp [hc, Ne.symm heq]
        · simp [hc]

/-- `memWrite` says once what a write does to a read, on a canonical array. -/
theorem memRead_memWrite {m : Memory} (h : m.wf = true) (a c : Nat) (v : Byte) :
    memRead c (memWrite a v m) = if c = a then v else memRead c m :=
  memRead_memWrite_from h a c v

theorem memWrite_wfFrom {lo : Nat} {m : Memory} (h : Memory.wfFrom lo m = true) (a : Nat) (v : Byte) (ha : lo ≤ a) :
    Memory.wfFrom lo (memWrite a v m) = true := by
  induction m generalizing lo with
  | nil =>
    by_cases hv : v = blankByte <;> simp [memWrite, hv, Memory.wfFrom, ha]
  | cons d m ih =>
    obtain ⟨b, x⟩ := d
    have hwf := h
    simp only [Memory.wfFrom, Bool.and_eq_true, decide_eq_true_eq] at h
    obtain ⟨⟨hlo, hx⟩, hm⟩ := h
    unfold memWrite
    by_cases hab : a < b
    · by_cases hv : v = blankByte
      · rw [if_pos hab, if_pos hv]; exact hwf
      · rw [if_pos hab, if_neg hv]
        simp only [Memory.wfFrom, Bool.and_eq_true, decide_eq_true_eq]
        exact ⟨⟨ha, hv⟩, ⟨⟨by omega, hx⟩, hm⟩⟩
    · by_cases heq : a = b
      · by_cases hv : v = blankByte
        · rw [if_neg hab, if_pos heq, if_pos hv]; exact wfFrom_mono hm (by omega)
        · rw [if_neg hab, if_pos heq, if_neg hv]
          simp only [Memory.wfFrom, Bool.and_eq_true, decide_eq_true_eq]
          exact ⟨⟨ha, hv⟩, heq ▸ hm⟩
      · rw [if_neg hab, if_neg heq]
        simp only [Memory.wfFrom, Bool.and_eq_true, decide_eq_true_eq]
        exact ⟨⟨hlo, hx⟩, ih hm (by omega)⟩

/-- A write keeps the canonical form. -/
theorem memWrite_wf {m : Memory} (h : m.wf = true) (a : Nat) (v : Byte) : (memWrite a v m).wf = true :=
  memWrite_wfFrom h a v (Nat.zero_le a)

/-- A write lists nothing but the written index and what was listed. -/
theorem mem_memWrite {a : Nat} {v : Byte} {m : Memory} {c : Host.Cell} (h : c ∈ memWrite a v m) : c.1 = a ∨ c ∈ m := by
  induction m with
  | nil =>
    unfold memWrite at h
    split at h
    · cases h
    · left; rw [List.mem_singleton.1 h]
  | cons d m ih =>
    obtain ⟨b, x⟩ := d
    unfold memWrite at h
    by_cases hab : a < b
    · rw [if_pos hab] at h
      split at h
      · exact .inr h
      · rcases List.mem_cons.1 h with rfl | h
        · exact .inl rfl
        · exact .inr h
    · rw [if_neg hab] at h
      by_cases heq : a = b
      · rw [if_pos heq] at h
        split at h
        · exact .inr (List.mem_cons_of_mem _ h)
        · rcases List.mem_cons.1 h with rfl | h
          · exact .inl rfl
          · exact .inr (List.mem_cons_of_mem _ h)
      · rw [if_neg heq] at h
        rcases List.mem_cons.1 h with rfl | h
        · exact .inr List.mem_cons_self
        · exact (ih h).imp_right (List.mem_cons_of_mem _)

/-- Every listed index is below `n`, as a plain statement. -/
theorem within_iff {n : Nat} {m : Memory} : m.within n = true ↔ ∀ c ∈ m, c.1 < n := by
  simp [Memory.within]

/-- A write inside an array keeps every listed index inside it. -/
theorem memWrite_within {n : Nat} {m : Memory} (h : m.within n = true) {a : Nat} (ha : a < n) (v : Byte) :
    (memWrite a v m).within n = true :=
  within_iff.2 fun c hc => (mem_memWrite hc).elim (fun e => e ▸ ha) (within_iff.1 h c)

/-- An array with nothing listed is canonical. -/
theorem wf_nil : Memory.wf [] = true := rfl

end Sys2Proof.Machine
end

