-- ==== Sys2Proof/Laws/PerInstr.lean ====
section
/-!
SUPPORT. The family of statements made per instruction: the encoded word is one that the instruction's row of spec/opcode_table.json
matches.
-/
namespace Sys2Proof.Laws.TableWord

/-- The row's `match` and `mask` in spec/opcode_table.json. -/
def row : Instr → Word × Word
  | .nop _ => (0x0000, 0x1FFF)
  | .rxpush _ => (0x0100, 0xFF00)
  | .rxpop => (0x4200, 0xFFFF)
  | .rxocc => (0x4300, 0xFFFF)
  | .txpush _ => (0x4400, 0xFF00)
  | .txpop => (0x2500, 0xFFFF)
  | .txocc => (0x4600, 0xFFFF)
  | .ringrst _ => (0x6700, 0xFFFC)
  | .instep _ => (0x4800, 0xFFFE)
  | .outstep _ => (0x4900, 0xFF00)
  | .tick => (0xAA00, 0xFFFF)
  | .csrrd _ => (0xCF00, 0xFF00)
  | .vbusoff => (0x7000, 0xFFFF)
  | .vbuson => (0x7001, 0xFFFF)
  | .suspend => (0x7100, 0xFFFF)
  | .wake => (0x7200, 0xFFFF)
  | .eorst => (0x7300, 0xFFFF)
  | .addressed => (0x7400, 0xFFFF)
  | .setcfg _ => (0x7500, 0xFF00)
  | .getlc => (0x9800, 0xFFFF)
  | .setlc _ _ _ _ => (0x9900, 0xFFFF)
  | .setcls _ => (0x9A00, 0xFFFF)
  | .sendbrk _ => (0x9B00, 0xFFFF)
  | .ctluns _ _ => (0x9C00, 0xFC00)

/-- The encoded word, masked, is the row's match. -/
abbrev Statement (i : Instr) : Prop := (encode i).word &&& (row i).2 = (row i).1

/-- An operand byte below a fixed upper byte leaves that byte as it is. -/
theorem upper_byte (base : Word) (h : base &&& 0xFF00 = base) (b : Byte) :
    (base ||| b.setWidth 16) &&& 0xFF00 = base := by
  have hb : b.setWidth 16 &&& (0xFF00 : Word) = 0 := by
    apply BitVec.eq_of_toNat_eq
    have := b.isLt
    revert b; decide
  rw [BitVec.and_comm, BitVec.and_or_distrib_left, BitVec.and_comm, h, BitVec.and_comm, hb]
  exact BitVec.or_zero

theorem nop (port : Port) : Statement (.nop port) := by cases port <;> decide
theorem rxpush (b : Byte) : Statement (.rxpush b) := upper_byte 0x0100 rfl b
theorem rxpop : Statement .rxpop := by decide
theorem rxocc : Statement .rxocc := by decide
theorem txpush (b : Byte) : Statement (.txpush b) := upper_byte 0x4400 rfl b
theorem txpop : Statement .txpop := by decide
theorem txocc : Statement .txocc := by decide
theorem ringrst (m : BitVec 2) : Statement (.ringrst m) := by revert m; decide
theorem instep (r : Bool) : Statement (.instep r) := by cases r <;> decide
theorem outstep (bytes : List Byte) : Statement (.outstep bytes) := upper_byte 0x4900 rfl (countByte bytes)
theorem tick : Statement .tick := by decide
theorem csrrd (i : Byte) : Statement (.csrrd i) := upper_byte 0xCF00 rfl i
theorem vbusoff : Statement .vbusoff := by decide
theorem vbuson : Statement .vbuson := by decide
theorem suspend : Statement .suspend := by decide
theorem wake : Statement .wake := by decide
theorem eorst : Statement .eorst := by decide
theorem addressed : Statement .addressed := by decide
theorem setcfg (c : Byte) : Statement (.setcfg c) := upper_byte 0x7500 rfl c
theorem getlc : Statement .getlc := by decide
theorem setlc (baud : BitVec 32) (fmt parity bits : Byte) : Statement (.setlc baud fmt parity bits) :=
  show (0x9900 : Word) &&& 0xFFFF = 0x9900 by decide
theorem setcls (v : BitVec 16) : Statement (.setcls v) :=
  show (0x9A00 : Word) &&& 0xFFFF = 0x9A00 by decide
theorem sendbrk (v : BitVec 16) : Statement (.sendbrk v) :=
  show (0x9B00 : Word) &&& 0xFFFF = 0x9B00 by decide
theorem ctluns (o : BitVec 2) (bytes : List Byte) : Statement (.ctluns o bytes) := by
  have h : ∀ (o : BitVec 2) (b : Byte),
      ((0x9C00 ||| (o.setWidth 16 <<< 8) ||| b.setWidth 16 : Word)) &&& 0xFC00 = 0x9C00 := by
    intro o b
    have ho : (0x9C00 ||| (o.setWidth 16 <<< 8) : Word) &&& 0xFF00 = 0x9C00 ||| (o.setWidth 16 <<< 8) := by
      revert o; decide
    have := upper_byte _ ho b
    rw [show (0xFC00 : Word) = 0xFF00 &&& 0xFC00 by decide, ← BitVec.and_assoc, this]
    clear this ho
    revert o; decide
  exact h o (countByte bytes)

end Sys2Proof.Laws.TableWord
end

