-- ==== Sys2Proof/Laws/Ring.lean ====
section
/-!
SUPPORT. Cursor arithmetic as arithmetic modulo the ring size, and what the ring operations do to the queue a ring stands for.
-/
namespace Sys2Proof.Machine

/-- A ring size is a power of two from 2 to 256. -/
theorem ringSize_cases {n : Nat} (h : isRingSize n = true) :
    n = 2 ∨ n = 4 ∨ n = 8 ∨ n = 16 ∨ n = 32 ∨ n = 64 ∨ n = 128 ∨ n = 256 := by
  simpa [isRingSize] using h

/-- Masking with `MASK` is the remainder modulo the ring size. -/
theorem and_mask_toNat {n : Nat} (h : isRingSize n = true) (x : Byte) :
    (x &&& maskOf n).toNat = x.toNat % n := by
  have hx := x.isLt
  rcases ringSize_cases h with rfl | rfl | rfl | rfl | rfl | rfl | rfl | rfl
  · exact Nat.and_two_pow_sub_one_eq_mod x.toNat 1
  · exact Nat.and_two_pow_sub_one_eq_mod x.toNat 2
  · exact Nat.and_two_pow_sub_one_eq_mod x.toNat 3
  · exact Nat.and_two_pow_sub_one_eq_mod x.toNat 4
  · exact Nat.and_two_pow_sub_one_eq_mod x.toNat 5
  · exact Nat.and_two_pow_sub_one_eq_mod x.toNat 6
  · exact Nat.and_two_pow_sub_one_eq_mod x.toNat 7
  · exact Nat.and_two_pow_sub_one_eq_mod x.toNat 8

theorem ringSize_pos {n : Nat} (h : isRingSize n = true) : 2 ≤ n := by
  rcases ringSize_cases h with rfl | rfl | rfl | rfl | rfl | rfl | rfl | rfl <;> omega

theorem ringSize_dvd {n : Nat} (h : isRingSize n = true) : n ∣ 256 := by
  rcases ringSize_cases h with rfl | rfl | rfl | rfl | rfl | rfl | rfl | rfl <;> decide

theorem maskOf_toNat {n : Nat} (h : isRingSize n = true) : (maskOf n).toNat = n - 1 := by
  rcases ringSize_cases h with rfl | rfl | rfl | rfl | rfl | rfl | rfl | rfl <;> rfl

/-- An advanced cursor is the sum modulo the ring size. -/
theorem advance_toNat {n : Nat} (h : isRingSize n = true) (c j : Byte) :
    (advance (maskOf n) c j).toNat = (c.toNat + j.toNat) % n := by
  rw [advance, and_mask_toNat h, BitVec.toNat_add]
  exact Nat.mod_mod_of_dvd _ (ringSize_dvd h)

/-- The occupancy is the cursors' difference modulo the ring size. -/
theorem occ_toNat {n : Nat} (h : isRingSize n = true) (q : Ring) :
    (occ (maskOf n) q).toNat = (q.w.toNat + (256 - q.r.toNat)) % n := by
  rw [occ, and_mask_toNat h, BitVec.toNat_sub]
  rw [show (2 ^ 8 - q.r.toNat + q.w.toNat) = q.w.toNat + (256 - q.r.toNat) by omega]
  exact Nat.mod_mod_of_dvd _ (ringSize_dvd h)

theorem occ_lt {n : Nat} (h : isRingSize n = true) (q : Ring) : (occ (maskOf n) q).toNat < n := by
  rw [occ_toNat h]
  exact Nat.mod_lt _ (by have := ringSize_pos h; omega)

/-- Free space and occupancy make up the mask. -/
theorem free_toNat {n : Nat} (h : isRingSize n = true) (q : Ring) :
    (free (maskOf n) q).toNat = n - 1 - (occ (maskOf n) q).toNat := by
  have h1 := occ_lt h q
  have h2 := maskOf_toNat h
  have h3 := (maskOf n).isLt
  rw [free, BitVec.toNat_sub_of_le, h2]
  rw [BitVec.le_def]; omega

/-! ### Occupancy as plain numbers -/

/-- A sum of two numbers below the ring size, taken modulo it. -/
theorem add_mod_ring {n a b : Nat} (ha : a < n) (hb : b ≤ n) :
    (a + b) % n = if a + b < n then a + b else a + b - n := by
  split
  · exact Nat.mod_eq_of_lt ‹_›
  · rw [Nat.mod_eq_sub_mod (by omega), Nat.mod_eq_of_lt (by omega)]

theorem RingOk.write_lt {n : Nat} {q : Ring} (hq : RingOk n q) (h : isRingSize n = true) : q.w.toNat < n := by
  have := hq.writeCursor; have := ringSize_pos h; omega

theorem RingOk.read_lt {n : Nat} {q : Ring} (hq : RingOk n q) (h : isRingSize n = true) : q.r.toNat < n := by
  have := hq.readCursor; have := ringSize_pos h; omega

/-- The occupancy of a ring whose cursors are in range, without a remainder. -/
theorem occ_eq {n : Nat} (h : isRingSize n = true) {q : Ring} (hq : RingOk n q) :
    (occ (maskOf n) q).toNat
      = if q.r.toNat ≤ q.w.toNat then q.w.toNat - q.r.toNat else n + q.w.toNat - q.r.toNat := by
  rw [occ_toNat h]
  have hw := hq.write_lt h
  have hr := hq.read_lt h
  rcases ringSize_cases h with rfl | rfl | rfl | rfl | rfl | rfl | rfl | rfl <;> split <;> omega

theorem advance_lt {n : Nat} (h : isRingSize n = true) (c j : Byte) : (advance (maskOf n) c j).toNat < n := by
  rw [advance_toNat h]; exact Nat.mod_lt _ (by have := ringSize_pos h; omega)

theorem advance_le {n : Nat} (h : isRingSize n = true) (c j : Byte) :
    (advance (maskOf n) c j).toNat ≤ n - 1 := by
  have := advance_lt h c j; omega

/-- Two advances are one. -/
theorem advance_advance {n : Nat} (h : isRingSize n = true) (c i j : Byte) :
    advance (maskOf n) (advance (maskOf n) c i) j = advance (maskOf n) c (i + j) := by
  apply BitVec.eq_of_toNat_eq
  rw [advance_toNat h, advance_toNat h, advance_toNat h, BitVec.toNat_add]
  rw [Nat.mod_add_mod, Nat.add_assoc]
  conv_rhs => rw [Nat.add_mod, Nat.mod_mod_of_dvd _ (ringSize_dvd h), ← Nat.add_mod]

/-- A cursor in range advanced by 0 stays. -/
theorem advance_zero {n : Nat} (h : isRingSize n = true) {c : Byte} (hc : c.toNat < n) :
    advance (maskOf n) c 0 = c := by
  apply BitVec.eq_of_toNat_eq
  rw [advance_toNat h]
  exact Nat.mod_eq_of_lt hc

theorem size_le_256 {n : Nat} (h : isRingSize n = true) : n ≤ 256 := by
  rcases ringSize_cases h with rfl | rfl | rfl | rfl | rfl | rfl | rfl | rfl <;> omega

/-- The slot `i` places after the read cursor, for `i` below the ring size. -/
theorem advance_ofNat {n : Nat} (h : isRingSize n = true) {c : Byte} (hc : c.toNat < n) {i : Nat} (hi : i < n) :
    (advance (maskOf n) c (BitVec.ofNat 8 i)).toNat = if c.toNat + i < n then c.toNat + i else c.toNat + i - n := by
  have := size_le_256 h
  rw [advance_toNat h, BitVec.toNat_ofNat, Nat.mod_eq_of_lt (show i < 2 ^ 8 by omega)]
  exact add_mod_ring hc (by omega)

/-! ### The queue a ring stands for -/

@[simp] theorem oldestBytes_length (mask : Byte) (k : Nat) (q : Ring) : (oldestBytes mask k q).length = k := by
  simp [oldestBytes]

@[simp] theorem queue_length (mask : Byte) (q : Ring) : (queue mask q).length = (occ mask q).toNat := by
  simp [queue]

/-- Reading fewer bytes than the ring holds reads the front of the queue. -/
theorem oldestBytes_eq_take {mask : Byte} {k : Nat} {q : Ring} (hk : k ≤ (occ mask q).toNat) :
    oldestBytes mask k q = (queue mask q).take k := by
  simp [queue, oldestBytes, ← List.map_take, List.take_range, Nat.min_eq_left hk]

/-- After a ring reset the queue is empty. -/
theorem queue_ringReset (mask : Byte) (q : Ring) : queue mask (ringReset q) = [] := by
  simp [queue, ringReset, occ, oldestBytes]

/-- A ring with equal cursors holds nothing. -/
theorem queue_of_cursors_eq {mask : Byte} {q : Ring} (h : q.w = q.r) : queue mask q = [] := by
  simp [queue, occ, oldestBytes, h]

/-- The empty test is the queue's. -/
theorem isEmpty_iff {n : Nat} (h : isRingSize n = true) {q : Ring} (hq : RingOk n q) :
    isEmpty q = true ↔ (occ (maskOf n) q).toNat = 0 := by
  have hw := hq.write_lt h
  have hr := hq.read_lt h
  rw [occ_eq h hq, isEmpty, decide_eq_true_eq]
  constructor
  · intro e; rw [e]; simp
  · intro e
    apply BitVec.eq_of_toNat_eq
    split at e <;> omega

/-- The full test is the queue's: `N - 1` bytes. -/
theorem isFull_iff {n : Nat} (h : isRingSize n = true) {q : Ring} :
    isFull (maskOf n) q = true ↔ (occ (maskOf n) q).toNat = n - 1 := by
  rw [isFull, decide_eq_true_eq, ← maskOf_toNat h]
  exact ⟨fun e => by rw [e], BitVec.eq_of_toNat_eq⟩

/-- The byte a pop returns is the head of the queue. -/
theorem headByte_eq {n : Nat} (h : isRingSize n = true) {q : Ring} (hq : RingOk n q)
    (hne : 0 < (occ (maskOf n) q).toNat) : (queue (maskOf n) q).head? = some (headByte q) := by
  obtain ⟨k, hk⟩ : ∃ k, (occ (maskOf n) q).toNat = k + 1 := ⟨_, (Nat.succ_pred_eq_of_pos hne).symm⟩
  rw [queue, hk, oldestBytes, List.range_succ_eq_map]
  simp only [List.map_cons, List.head?_cons, headByte]
  rw [show (BitVec.ofNat 8 0) = 0 from rfl, advance_zero h (hq.read_lt h)]

@[simp] theorem dropBytes_w (mask j : Byte) (q : Ring) : (dropBytes mask j q).w = q.w := rfl
@[simp] theorem dropBytes_r (mask j : Byte) (q : Ring) : (dropBytes mask j q).r = advance mask q.r j := rfl
@[simp] theorem dropBytes_buf (mask j : Byte) (q : Ring) : (dropBytes mask j q).buf = q.buf := rfl
@[simp] theorem pushByte_w (mask v : Byte) (q : Ring) : (pushByte mask v q).w = advance mask q.w 1 := rfl
@[simp] theorem pushByte_r (mask v : Byte) (q : Ring) : (pushByte mask v q).r = q.r := rfl
@[simp] theorem pushByte_buf (mask v : Byte) (q : Ring) : (pushByte mask v q).buf = memWrite q.w.toNat v q.buf := rfl
@[simp] theorem pushBytes_r (mask : Byte) (vs : List Byte) (q : Ring) : (pushBytes mask vs q).r = q.r := rfl
@[simp] theorem ringReset_w (q : Ring) : (ringReset q).w = 0 := rfl
@[simp] theorem ringReset_r (q : Ring) : (ringReset q).r = 0 := rfl
@[simp] theorem ringReset_buf (q : Ring) : (ringReset q).buf = q.buf := rfl

/-- Advancing the read cursor keeps a ring in range. -/
theorem dropBytes_ok {n : Nat} (h : isRingSize n = true) {q : Ring} (hq : RingOk n q) (j : Byte) :
    RingOk n (dropBytes (maskOf n) j q) :=
  ⟨hq.writeCursor, advance_le h _ _, hq.canonical, hq.inRange⟩

/-- Advancing the read cursor by at most the occupancy lowers it by that much. -/
theorem occ_dropBytes {n : Nat} (h : isRingSize n = true) {q : Ring} (hq : RingOk n q) {k : Nat}
    (hk : k ≤ (occ (maskOf n) q).toNat) :
    (occ (maskOf n) (dropBytes (maskOf n) (BitVec.ofNat 8 k) q)).toNat = (occ (maskOf n) q).toNat - k := by
  have hw := hq.write_lt h
  have hr := hq.read_lt h
  have hlt := occ_lt h q
  rw [occ_eq h (dropBytes_ok h hq _)]
  simp only [dropBytes_w, dropBytes_r, advance_ofNat h hr (show k < n by omega)]
  rw [occ_eq h hq] at hk ⊢
  split at hk <;> split <;> split <;> omega

/-- Advancing the read cursor drops that many bytes from the queue. -/
theorem queue_dropBytes {n : Nat} (h : isRingSize n = true) {q : Ring} (hq : RingOk n q) {k : Nat}
    (hk : k ≤ (occ (maskOf n) q).toNat) :
    queue (maskOf n) (dropBytes (maskOf n) (BitVec.ofNat 8 k) q) = (queue (maskOf n) q).drop k := by
  apply List.ext_getElem
  · simp [occ_dropBytes h hq hk]
  · intro i h1 h2
    simp only [queue_length, List.length_drop] at h1 h2
    simp only [queue, oldestBytes, List.getElem_map, List.getElem_range, List.getElem_drop]
    simp only [dropBytes]
    rw [advance_advance h, BitVec.ofNat_add_ofNat]

/-- A push of one byte keeps a ring in range and canonical. -/
theorem pushByte_ok {n : Nat} (h : isRingSize n = true) {q : Ring} (hq : RingOk n q) (v : Byte) :
    RingOk n (pushByte (maskOf n) v q) :=
  ⟨advance_le h _ _, hq.readCursor, memWrite_wf hq.canonical _ _, memWrite_within hq.inRange (hq.write_lt h) _⟩

/-- A push into a ring that is not full raises the occupancy by one. -/
theorem occ_pushByte {n : Nat} (h : isRingSize n = true) {q : Ring} (hq : RingOk n q) (v : Byte)
    (hroom : (occ (maskOf n) q).toNat < n - 1) :
    (occ (maskOf n) (pushByte (maskOf n) v q)).toNat = (occ (maskOf n) q).toNat + 1 := by
  have hw := hq.write_lt h
  have hr := hq.read_lt h
  have h2 := ringSize_pos h
  rw [occ_eq h (pushByte_ok h hq v)]
  simp only [pushByte_w, pushByte_r, show (1 : Byte) = BitVec.ofNat 8 1 from rfl, advance_ofNat h hw (show 1 < n by omega)]
  rw [occ_eq h hq] at hroom ⊢
  split at hroom <;> split <;> split <;> omega

/-- A push into a ring that is not full appends the byte to the queue. -/
theorem queue_pushByte {n : Nat} (h : isRingSize n = true) {q : Ring} (hq : RingOk n q) (v : Byte)
    (hroom : (occ (maskOf n) q).toNat < n - 1) :
    queue (maskOf n) (pushByte (maskOf n) v q) = queue (maskOf n) q ++ [v] := by
  have hw := hq.write_lt h
  have hr := hq.read_lt h
  rw [queue, occ_pushByte h hq v hroom, oldestBytes, List.range_succ, List.map_append, List.map_singleton]
  have hocc := occ_eq h hq
  congr 1
  · rw [queue, oldestBytes]
    apply List.map_congr_left
    intro i hi
    rw [List.mem_range] at hi
    simp only [pushByte]
    rw [memRead_memWrite hq.canonical, if_neg]
    rw [advance_ofNat h hr (by omega)]
    split <;> split at hocc <;> omega
  · simp only [pushByte]
    rw [memRead_memWrite hq.canonical, if_pos]
    rw [advance_ofNat h hr (by omega)]
    split <;> split at hocc <;> omega

/-- Writing from one slot further on is writing with the next offset. -/
theorem writeFrom_shift {n : Nat} (h : isRingSize n = true) (w : Byte) (vs : List Byte) (i : Nat) (m : Memory) :
    writeFrom (maskOf n) (advance (maskOf n) w 1) i vs m = writeFrom (maskOf n) w (i + 1) vs m := by
  induction vs generalizing i m with
  | nil => rfl
  | cons v vs ih =>
    simp only [writeFrom]
    rw [ih, advance_advance h, show (1 : Byte) = BitVec.ofNat 8 1 from rfl, BitVec.ofNat_add_ofNat, Nat.add_comm 1 i]

/-- Writing a transfer from the cursor `w` on: the array stays canonical, the slots of the transfer hold its bytes in order, and every other slot
reads as before. -/
theorem writeFrom_spec {n : Nat} (h : isRingSize n = true) (w : Byte) (vs : List Byte) (i : Nat) {m : Memory} (hm : m.wf = true) :
    (writeFrom (maskOf n) w i vs m).wf = true
    ∧ (∀ a, (∀ j, j < vs.length → a ≠ (advance (maskOf n) w (BitVec.ofNat 8 (i + j))).toNat) →
        memRead a (writeFrom (maskOf n) w i vs m) = memRead a m)
    ∧ (w.toNat < n → i + vs.length ≤ n → ∀ j, j < vs.length →
        memRead (advance (maskOf n) w (BitVec.ofNat 8 (i + j))).toNat (writeFrom (maskOf n) w i vs m) = vs.getD j 0) := by
  induction vs generalizing i m with
  | nil => exact ⟨hm, fun _ _ => rfl, fun _ _ j hj => absurd hj (by simp)⟩
  | cons v vs ih =>
    obtain ⟨hwf, hother, hslot⟩ := ih (i + 1) (memWrite_wf hm (advance (maskOf n) w (BitVec.ofNat 8 i)).toNat v)
    refine ⟨hwf, ?_, ?_⟩
    · intro a ha
      rw [writeFrom, hother a fun j hj => ?_, memRead_memWrite hm, if_neg (by simpa using ha 0 (by simp))]
      rw [Nat.add_assoc, Nat.add_comm 1 j]
      exact ha (j + 1) (by simpa using hj)
    · intro hw hl j hj
      simp only [List.length_cons] at hl hj
      cases j with
      | zero =>
        rw [writeFrom, hother _ ?_, memRead_memWrite hm]
        · simp
        · intro j hj e
          simp only [advance_ofNat h hw (show i + 0 < n by omega), advance_ofNat h hw (show i + 1 + j < n by omega)] at e
          split_ifs at e <;> omega
      | succ j =>
        rw [writeFrom, show i + (j + 1) = i + 1 + j by omega, hslot hw (by omega) j (by omega), List.getD_cons_succ]

/-- A transfer is its bytes pushed one by one. -/
theorem pushBytes_cons {n : Nat} (h : isRingSize n = true) {q : Ring} (hq : RingOk n q) (v : Byte) (vs : List Byte) :
    pushBytes (maskOf n) (v :: vs) q = pushBytes (maskOf n) vs (pushByte (maskOf n) v q) := by
  simp only [pushBytes, pushByte, writeFrom, List.length_cons]
  rw [writeFrom_shift h, advance_advance h, show (BitVec.ofNat 8 0) = 0 from rfl, advance_zero h (hq.write_lt h)]
  rw [show (1 : Byte) = BitVec.ofNat 8 1 from rfl, BitVec.ofNat_add_ofNat, Nat.add_comm 1]

theorem pushBytes_nil {n : Nat} (h : isRingSize n = true) {q : Ring} (hq : RingOk n q) :
    pushBytes (maskOf n) [] q = q := by
  simp only [pushBytes, writeFrom, List.length_nil]
  rw [show (BitVec.ofNat 8 0) = 0 from rfl, advance_zero h (hq.write_lt h)]

/-- What a transfer that fits does: the ring stays in range, and the queue gains its bytes in order. -/
theorem pushBytes_spec {n : Nat} (h : isRingSize n = true) (vs : List Byte) {q : Ring} (hq : RingOk n q)
    (hroom : (occ (maskOf n) q).toNat + vs.length ≤ n - 1) :
    RingOk n (pushBytes (maskOf n) vs q) ∧ queue (maskOf n) (pushBytes (maskOf n) vs q) = queue (maskOf n) q ++ vs := by
  induction vs generalizing q with
  | nil => rw [pushBytes_nil h hq]; exact ⟨hq, (List.append_nil _).symm⟩
  | cons v vs ih =>
    simp only [List.length_cons] at hroom
    rw [pushBytes_cons h hq]
    have hone := occ_pushByte h hq v (by omega)
    obtain ⟨hok, hqueue⟩ := ih (pushByte_ok h hq v) (by omega)
    exact ⟨hok, by rw [hqueue, queue_pushByte h hq v (by omega), List.append_assoc, List.singleton_append]⟩

/-- A reset ring is in range and canonical. -/
theorem ringReset_ok {n : Nat} {q : Ring} (hq : RingOk n q) : RingOk n (ringReset q) :=
  ⟨Nat.zero_le _, Nat.zero_le _, hq.canonical, hq.inRange⟩

end Sys2Proof.Machine
end

