-- ==== Sys2Proof/Laws/Rules.lean ====
section
/-!
SUPPORT. Every command as its rule followed by the same ending, decoding of a word given by its fields, the exceptions of one operation, the
response words, and payload values put together and taken apart: what proofs cite instead of unfolding `exec` and `decode`.
-/
namespace Sys2Proof.Machine

/-! ### Execution -/

/-- The rule of each instruction, apart from the ending that all share. -/
def rule : Instr → Block → Block × Answer
  | .nop _ => fun k => (k, answerOk)
  | .rxpush b => ruleRxpush b
  | .rxpop => ruleRxpop
  | .rxocc => fun k => (k, answerValue (occ (maskRx k) k.rx))
  | .txpush b => ruleTxpush b
  | .txpop => ruleTxpop
  | .txocc => fun k => (k, answerValue (occ (maskTx k) k.tx))
  | .ringrst m => ruleRingrst m
  | .instep r => ruleInstep r
  | .outstep bytes => ruleOutstep bytes
  | .tick => ruleTick
  | .csrrd i => fun k => (k, answerValue (csrRead k i))
  | .vbusoff => ruleVbusoff
  | .vbuson => ruleVbuson
  | .suspend => ruleSuspend
  | .wake => ruleWake
  | .eorst => ruleEorst
  | .addressed => ruleAddressed
  | .setcfg c => ruleSetcfg c
  | .getlc => ruleGetlc
  | .setlc baud fmt parity bits => ruleSetlc baud fmt parity bits
  | .setcls v => ruleSetcls v
  | .sendbrk v => ruleSendbrk v
  | .ctluns _ _ => fun k => (k, answerIgnored)

/-- Executing an instruction is its rule, `gate_update` and one response. -/
theorem exec_eq (i : Instr) (s : State) :
    exec i s = .next { block := gateUpdate (rule i s.block).1, inbox := s.inbox,
                       responses := s.responses ++
                         [⟨i.port.code, responseWord (rule i s.block).2, (rule i s.block).2.payload⟩] } := by
  cases i <;> rfl

/-- The next state, field by field. -/
theorem exec_next {i : Instr} {s t : State} (h : exec i s = .next t) :
    t.block = gateUpdate (rule i s.block).1 ∧ t.inbox = s.inbox
      ∧ t.responses = s.responses ++
          [⟨i.port.code, responseWord (rule i s.block).2, (rule i s.block).2.payload⟩] := by
  rw [exec_eq] at h; cases h; exact ⟨rfl, rfl, rfl⟩

/-- `gate_update` enters BRIDGE where GATE holds, and otherwise leaves it. -/
theorem gateUpdate_eq (k : Block) :
    gateUpdate k = if gate k = true then { k with bridge := true } else leftBridge k := by
  unfold gateUpdate leftBridge
  cases hb : k.bridge <;> cases hg : gate k <;> simp [exitActions, ringReset]
  all_goals rw [← hb]

/-- No rule writes the mode: only `gate_update` does (10_state.md R28). -/
theorem rule_bridge (i : Instr) (k : Block) : (rule i k).1.bridge = k.bridge := by
  cases i <;>
    simp only [rule, ruleRxpush, ruleRxpop, ruleTxpush, ruleTxpop, ruleInstep, ruleRingrst, ruleOutstep, ruleTick, flushTick,
      ruleVbusoff, ruleVbuson, ruleSuspend, ruleWake, ruleEorst, ruleAddressed, ruleSetcfg, ruleGetlc, ruleSetlc, ruleSetcls,
      ruleSendbrk] <;>
    (try split_ifs) <;> simp

/-- The rule of a data command leaves the gate and the mode alone, so the ending changes nothing. -/
theorem gateUpdate_data {k : Block} (hs : GateInSync k) {i : Instr} (hd : isDataCommand i = true) :
    gateUpdate (rule i k).1 = (rule i k).1 := by
  apply gateUpdate_of_sync
  cases i <;> simp [isDataCommand] at hd <;>
    simp only [rule, ruleRxpush, ruleRxpop, ruleTxpush, ruleTxpop, ruleInstep, ruleOutstep, ruleTick, flushTick] <;>
    (try split_ifs) <;> exact hs

/-- A sequence of instructions, split off its first. -/
theorem runAll_cons {i : Instr} {is : List Instr} {s u : State} (h : runAll (i :: is) s = some u) :
    ∃ t, exec i s = .next t ∧ runAll is t = some u := by
  unfold runAll at h
  rw [exec_eq] at h ⊢
  exact ⟨_, rfl, h⟩

/-- A sequence of instructions whose first gives a known next state. -/
theorem runAll_next {i : Instr} {s t : State} (h : exec i s = .next t) (is : List Instr) :
    runAll (i :: is) s = runAll is t := by
  simp only [runAll, h]

/-! ### Response words -/

/-- The word of `respond(OK, 1, v)`. -/
theorem responseWord_value (v : Byte) : responseWord (answerValue v) = 0x0100 + v.setWidth 16 := by
  revert v; decide +kernel

/-- The word of `respond(PENDING, 1, v)`. -/
theorem responseWord_pending (v : Byte) : responseWord (answerPending v) = 0x2100 + v.setWidth 16 := by
  revert v; decide +kernel

/-- A byte count as a byte and as a word. -/
theorem ofNat_setWidth {n : Nat} (h : n < 256) : (BitVec.ofNat 8 n).setWidth 16 = BitVec.ofNat 16 n := by
  apply BitVec.eq_of_toNat_eq; simp; omega

/-! ### Decoding by fields -/

/-- Decoding of the word with the given fields. -/
theorem decode_mkWord (p : BitVec 3) (op : BitVec 5) (d8 : Byte) (payload : List Byte) :
    decode ⟨mkWord p op d8, payload⟩ =
      match Port.ofCode p, opRow op with
      | some port, some row =>
        if owns row port = false then .error .role
        else if d8 &&& row.resv ≠ 0 then .error .resv
        else if payload.length ≠ requiredLen row.plen d8 then .error .payloadLen
        else .ok (row.read port d8 payload)
      | _, _ => .error .illegal := by
  unfold decode
  simp only [portField_mkWord, opField_mkWord, d8Field_mkWord] <;> rfl

/-- The exceptions of an operation that one port owns are those of its row. -/
theorem commandFaults_of_row {op : BitVec 5} {port : BitVec 3} {owner : Port} {row : OpRow} {len : Byte → Nat}
    (hp : Port.ofCode port = some owner) (hr : opRow op = some row) (ho : row.owner = some owner)
    (hl : ∀ d, requiredLen row.plen d = len d) : CommandFaults op port row.resv len := by
  have hown : owns row owner = true := by simp [owns, ho]
  refine ⟨?_, ?_, ?_, ?_⟩
  · intro p d8 payload h7 hne
    rw [decode_mkWord, hr]
    cases hq : Port.ofCode p with
    | none => exact absurd (ofCode_eq_none.1 hq) h7
    | some q =>
      have : owns row q = false := by
        simp only [owns, ho, decide_eq_false_iff_not]
        intro e; subst e; exact hne ((ofCode_eq_some hq).trans (ofCode_eq_some hp).symm)
      simp [this]
  · intro d8 payload h
    rw [decode_mkWord, hr, hp]
    simp only []
    rw [if_neg (by simp [hown]), if_pos h]
  · intro d8 payload h hlen
    rw [decode_mkWord, hr, hp]
    simp only []
    rw [if_neg (by simp [hown]), if_neg (by simp [h]), if_pos (by rw [hl]; exact hlen)]
  · intro d8 payload h hlen
    rw [decode_mkWord, hr, hp]
    simp only []
    rw [if_neg (by simp [hown]), if_neg (by simp [h]), if_neg (by rw [hl]; simp [hlen])]
    exact ⟨_, rfl⟩

/-- An operand byte put below a fixed upper byte is an addition. -/
theorem or_eq_add (base : Word) (b : Byte) (h : base &&& 0x00FF = 0) :
    base ||| b.setWidth 16 = base + b.setWidth 16 := by
  have h255 : (b.setWidth 16 : Word) = 0x00FF &&& b.setWidth 16 := by
    clear h; revert b; decide +kernel
  rw [BitVec.add_eq_or_of_and_eq_zero]
  rw [h255, ← BitVec.and_assoc, h]
  exact BitVec.zero_and

/-- An operand byte put below a word with the fields given is its `D8` field. -/
theorem or_eq_mkWord {base : Word} {p : BitVec 3} {op : BitVec 5} (d8 : Byte) (h : base = mkWord p op 0) :
    base ||| d8.setWidth 16 = mkWord p op d8 := by
  rw [h, or_eq_add _ _ (by clear h; revert op; revert p; decide)]
  apply BitVec.eq_of_toNat_eq
  rw [BitVec.toNat_add, mkWord_toNat, mkWord_toNat]
  have := p.isLt; have := op.isLt; have := d8.isLt
  simp; omega

/-! ### Payload values -/

theorem le16_toNat (a b : Byte) : (le16 a b).toNat = b.toNat * 256 + a.toNat := by
  have := a.isLt
  simp only [le16, BitVec.toNat_append]
  rw [← Nat.shiftLeft_add_eq_or_of_lt (by omega), Nat.shiftLeft_eq]

theorem le32_toNat (a b c d : Byte) :
    (le32 a b c d).toNat = d.toNat * 16777216 + c.toNat * 65536 + b.toNat * 256 + a.toNat := by
  have := a.isLt; have := b.isLt; have := c.isLt
  simp only [le32, BitVec.toNat_append]
  rw [← Nat.shiftLeft_add_eq_or_of_lt (by omega), ← Nat.shiftLeft_add_eq_or_of_lt (by omega),
    ← Nat.shiftLeft_add_eq_or_of_lt (by omega)]
  simp only [Nat.shiftLeft_eq]
  omega

/-- The bytes of a 16-bit value made of two bytes are those bytes. -/
theorem bytes16_le16 (a b : Byte) : bytes16 (le16 a b) = [a, b] := by
  have h1 := a.isLt; have h2 := b.isLt
  simp only [bytes16, List.cons.injEq, and_true]
  refine ⟨?_, ?_⟩ <;> apply BitVec.eq_of_toNat_eq <;>
    simp only [BitVec.extractLsb'_toNat, le16_toNat, Nat.shiftRight_eq_div_pow] <;> omega

/-- The bytes of a 32-bit value made of four bytes are those bytes. -/
theorem bytes32_le32 (a b c d : Byte) : bytes32 (le32 a b c d) = [a, b, c, d] := by
  have h1 := a.isLt; have h2 := b.isLt; have h3 := c.isLt; have h4 := d.isLt
  simp only [bytes32, List.cons.injEq, and_true]
  refine ⟨?_, ?_, ?_, ?_⟩ <;> apply BitVec.eq_of_toNat_eq <;>
    simp only [BitVec.extractLsb'_toNat, le32_toNat, Nat.shiftRight_eq_div_pow] <;> omega

/-- A 16-bit value made of its own two bytes. -/
theorem le16_bytes16 (v : BitVec 16) : le16 (v.extractLsb' 0 8) (v.extractLsb' 8 8) = v := by
  apply BitVec.eq_of_toNat_eq
  have := v.isLt
  simp only [le16_toNat, BitVec.extractLsb'_toNat, Nat.shiftRight_eq_div_pow]
  omega

/-- A 32-bit value made of its own four bytes. -/
theorem le32_bytes32 (v : BitVec 32) :
    le32 (v.extractLsb' 0 8) (v.extractLsb' 8 8) (v.extractLsb' 16 8) (v.extractLsb' 24 8) = v := by
  apply BitVec.eq_of_toNat_eq
  have := v.isLt
  simp only [le32_toNat, BitVec.extractLsb'_toNat, Nat.shiftRight_eq_div_pow]
  omega

end Sys2Proof.Machine
end

