-- ==== Sys2Proof/Tests/Slice0.lean ====
section
/-!
SUPPORT. Tests. Expected values come from the spec: the vectors of 95_test_vectors.md (named in each comment), the encodings of
30_encoding.md R75, R88, or a calculation from the rules. The last part gives, for every statement with hypotheses, a state and
operands that meet them.
-/
namespace Sys2Proof.Tests
open Sys2Proof.Machine

/-! ### Helpers -/

/-- The bridged state `B0` of 95_test_vectors.md, under REF-A. -/
def b0 : Block :=
  { Block.reset Config.refA with
    state := .configured, config := 1, bridge := true, lcBaud := 9600, lcBits := 8
    trace := [.epReinit, .uartCfg 9600 0 0 8] }

/-- `B0` with other RX cursors, and one byte of the array. -/
def b0Rx (w r : Byte) (buf : Memory) : Block := { b0 with rx := ⟨w, r, buf⟩ }

/-- `B0` with other TX cursors, and one byte of the array. -/
def b0Tx (w r : Byte) (buf : Memory) : Block := { b0 with tx := ⟨w, r, buf⟩ }

/-- The block after reset, under REF-A, in another device state. -/
def inState (d : DevState) : Block := { Block.reset Config.refA with state := d }

/-- Suspended from Configured with a baud rate. -/
def asleep : Block :=
  { Block.reset Config.refA with
    state := .suspended, prev := .configured, config := 1, ienSusp := false, ienWake := true, lcBaud := 9600, lcBits := 8 }

/-- The machine with this block, nothing delivered, nothing answered. -/
def atBlock (k : Block) : State := ⟨k, [], []⟩

/-- The machine with this block and one command delivered. -/
def given (k : Block) (c : Command) : State := ⟨k, [.command c], []⟩

/-- The state one step later, when the step gives one. -/
def run (k : Block) (word : Word) (payload : List Byte) : Option State :=
  match step (given k ⟨word, payload⟩) with
  | .next t => some t
  | .fault _ => none
  | .refused _ => none

/-- A view of the state one step later. -/
def seen {α : Type} (view : Block → α) (k : Block) (word : Word) (payload : List Byte) : Option (α × List Response) :=
  (run k word payload).map fun t => (view t.block, t.responses)

/-! ### Well-formedness, with an ill-formed term for each check -/

theorem test_outstep_256_refused : (Instr.outstep (List.replicate 256 0)).wellFormed = false := by decide +kernel
theorem test_ctluns_256_refused : (Instr.ctluns 0 (List.replicate 256 0)).wellFormed = false := by decide +kernel
theorem test_oversize_refused : decodeFor Config.refA ⟨0x4907, [1, 2, 3, 4, 5, 6, 7]⟩ = .error .outOversize := by decide

/-- Each bound of the parameters, broken alone. -/
theorem test_illformed_parameters :
    [{ Config.refA with nRx := 1 }, { Config.refA with nRx := 6 }, { Config.refA with nRx := 512 },
     { Config.refA with nTx := 1 }, { Config.refA with nTx := 512 },
     { Config.refA with thresh := 0 }, { Config.refA with thresh := 5 }, { Config.refB with thresh := 128, epInSize := 255 },
     { Config.refA with thresh := 1, epInSize := 0 }, { Config.refA with epInSize := 256 },
     { Config.refA with epOutSize := 0 }, { Config.refA with epOutSize := 8 }, { Config.refA with nTx := 256, epOutSize := 256 },
     { Config.refA with flushTicks := 0 }, { Config.refA with flushTicks := 256 },
     { Config.refA with pulseTicks := 0 }, { Config.refA with pulseTicks := 256 }].all (fun c => !configOk c) = true := by
  decide
theorem test_wellformed_parameters :
    configOk Config.refA = true ∧ configOk Config.refB = true
      ∧ configOk ⟨2, 2, 1, 1, 1, 1, 1⟩ = true ∧ configOk ⟨256, 256, 255, 255, 255, 255, 255⟩ = true := by decide

/-! ### Decoding: words written out from the tables of 30_encoding.md -/

theorem test_decode_nop : decode ⟨0b000_00000_00000000, []⟩ = .ok (.nop .urx)
    ∧ decode ⟨0b110_00000_00000000, []⟩ = .ok (.nop .obs) := by decide
theorem test_decode_rxpush : decode ⟨0b000_00001_01000001, []⟩ = .ok (.rxpush 0x41) := by decide
theorem test_decode_rxpop : decode ⟨0b010_00010_00000000, []⟩ = .ok .rxpop := by decide
theorem test_decode_rxocc : decode ⟨0b010_00011_00000000, []⟩ = .ok .rxocc := by decide
theorem test_decode_txpush : decode ⟨0b010_00100_10100001, []⟩ = .ok (.txpush 0xA1) := by decide
theorem test_decode_txpop : decode ⟨0b001_00101_00000000, []⟩ = .ok .txpop := by decide
theorem test_decode_txocc : decode ⟨0b010_00110_00000000, []⟩ = .ok .txocc := by decide
theorem test_decode_ringrst : decode ⟨0b011_00111_00000010, []⟩ = .ok (.ringrst 2) := by decide
theorem test_decode_instep : decode ⟨0b010_01000_00000001, []⟩ = .ok (.instep true) := by decide
theorem test_decode_outstep : decode ⟨0b010_01001_00000011, [0x31, 0x32, 0x33]⟩ = .ok (.outstep [0x31, 0x32, 0x33]) := by
  decide
theorem test_decode_tick : decode ⟨0b101_01010_00000000, []⟩ = .ok .tick := by decide
theorem test_decode_csrrd : decode ⟨0b110_01111_00000111, []⟩ = .ok (.csrrd 7) := by decide
theorem test_decode_vbus : decode ⟨0b011_10000_00000000, []⟩ = .ok .vbusoff
    ∧ decode ⟨0b011_10000_00000001, []⟩ = .ok .vbuson := by decide
theorem test_decode_suspend : decode ⟨0b011_10001_00000000, []⟩ = .ok .suspend := by decide
theorem test_decode_wake : decode ⟨0b011_10010_00000000, []⟩ = .ok .wake := by decide
theorem test_decode_eorst : decode ⟨0b011_10011_00000000, []⟩ = .ok .eorst := by decide
theorem test_decode_addressed : decode ⟨0b011_10100_00000000, []⟩ = .ok .addressed := by decide
theorem test_decode_setcfg : decode ⟨0b011_10101_00000010, []⟩ = .ok (.setcfg 2) := by decide
theorem test_decode_getlc : decode ⟨0b100_11000_00000000, []⟩ = .ok .getlc := by decide
/-- 115200 is 0x0001C200 (vector S7). -/
theorem test_decode_setlc : decode ⟨0b100_11001_00000000, [0x00, 0xC2, 0x01, 0x00, 0x00, 0x00, 0x08]⟩
    = .ok (.setlc 115200 0 0 8) := by decide
theorem test_decode_setcls : decode ⟨0b100_11010_00000000, [0x03, 0x01]⟩ = .ok (.setcls 0x0103) := by decide
/-- 500 is 0x01F4 (vector K11). -/
theorem test_decode_sendbrk : decode ⟨0b100_11011_00000000, [0xF4, 0x01]⟩ = .ok (.sendbrk 500) := by decide
theorem test_decode_ctluns : decode ⟨0b100_11101_00000010, [1, 2]⟩ = .ok (.ctluns 1 [1, 2])
    ∧ decode ⟨0b100_11111_00000000, []⟩ = .ok (.ctluns 3 []) := by decide

/-- Vectors E1 to E15 and E17. -/
theorem test_decode_faults :
    decode ⟨0xE141, []⟩ = .error .illegal ∧ decode ⟨0x0B00, []⟩ = .error .illegal ∧ decode ⟨0x9600, []⟩ = .error .illegal
    ∧ decode ⟨0x0500, []⟩ = .error .role ∧ decode ⟨0x1C00, []⟩ = .error .role ∧ decode ⟨0x4F00, []⟩ = .error .role
    ∧ decode ⟨0x2501, []⟩ = .error .resv ∧ decode ⟨0x7002, []⟩ = .error .resv ∧ decode ⟨0x6704, []⟩ = .error .resv
    ∧ decode ⟨0x4802, []⟩ = .error .resv ∧ decode ⟨0x0001, []⟩ = .error .resv
    ∧ decode ⟨0x4200, [0]⟩ = .error .payloadLen
    ∧ decode ⟨0x9900, [0x80, 0x25, 0, 0, 0, 0]⟩ = .error .payloadLen
    ∧ decode ⟨0x4903, [1, 2]⟩ = .error .payloadLen
    ∧ decodeFor Config.refA ⟨0x4907, [1, 2, 3]⟩ = .error .payloadLen := by decide

/-- The bits as spec/opcode_table.json numbers them: the word first, the payload above it. -/
theorem test_table_word :
    decodeTableWord 16 0x4801 = some (.instep true) ∧ decodeTableWord 24 0x554901 = some (.outstep [0x55])
    ∧ decodeTableWord 16 0x4902 = some (.outstep [0, 0]) ∧ decodeTableWord 16 0xE000 = none := by decide
theorem test_fetch_word : step (State.reset.withFetchWord 16 0x7001)
    = exec .vbuson State.reset := rfl

/-! ### One step of each instruction -/

/-- Y1. -/
theorem test_nop : run b0 0x8000 [] = some ⟨b0, [], [⟨4, 0x0000, []⟩]⟩ := by decide
/-- G5: the write cursor wraps. -/
theorem test_rxpush_wraps : seen (·.rx) (b0Rx 7 3 []) 0x0155 [] = some (⟨0, 3, [(7, 0x55)]⟩, [⟨0, 0x0000, []⟩]) := by decide
/-- S2 row 8. -/
theorem test_rxpush_full : seen (fun k => (k.rx.w, k.rxOvr)) (b0Rx 7 0 []) 0x0108 [] = some ((7, true), [⟨0, 0x1000, []⟩]) := by
  decide
/-- G6. -/
theorem test_rxpop_wraps : seen (fun k => (k.rx.r, k.pulseRx)) (b0Rx 2 7 [(7, 0x5A)]) 0x4200 []
    = some ((0, 2), [⟨2, 0x015A, []⟩]) := by decide
/-- G7. -/
theorem test_rxocc : seen (·.rx) (b0Rx 1 6 []) 0x4300 [] = some (⟨1, 6, []⟩, [⟨2, 0x0103, []⟩]) := by decide
/-- G9. -/
theorem test_txpush_wraps : seen (fun k => (k.tx, k.pulseTx)) (b0Tx 7 2 []) 0x4409 []
    = some ((⟨0, 2, [(7, 0x09)]⟩, 2), [⟨2, 0x0000, []⟩]) := by decide
/-- G8. -/
theorem test_txpush_full : run (b0Tx 3 4 []) 0x4409 [] = some ⟨b0Tx 3 4 [], [], [⟨2, 0x1000, []⟩]⟩ := by decide
/-- G10: TXPOP arms no pulse. -/
theorem test_txpop_wraps : seen (fun k => (k.tx.r, k.pulseTx)) (b0Tx 0 7 [(7, 0x08)]) 0x2500 []
    = some ((0, 0), [⟨1, 0x0108, []⟩]) := by decide
/-- G11. -/
theorem test_txocc : seen (·.tx.w) (b0Tx 5 0 []) 0x4600 [] = some (5, [⟨2, 0x0105, []⟩]) := by decide
/-- G12. -/
theorem test_ringrst_rx : seen (fun k => (k.rx, k.tx.w)) { b0Rx 5 2 [(3, 9)] with tx := ⟨3, 3, []⟩ } 0x6701 []
    = some ((⟨0, 0, [(3, 9)]⟩, 3), [⟨3, 0x0000, []⟩]) := by decide
/-- A8: four bytes across the wrap. -/
theorem test_instep_wraps : seen (·.rx.r) (b0Rx 3 6 [(0, 3), (1, 4), (6, 1), (7, 2)]) 0x4801 []
    = some (2, [⟨2, 0x0104, [1, 2, 3, 4]⟩]) := by decide
/-- A5. -/
theorem test_instep_below_threshold : seen (·.rx.r) (b0Rx 3 0 []) 0x4801 [] = some (0, [⟨2, 0x1000, []⟩]) := by decide
/-- P3, fourth line: a transfer across the wrap. -/
theorem test_outstep_wraps : seen (fun k => (k.tx.w, k.tx.buf)) (b0Tx 5 1 []) 0x4903 [6, 7, 8]
    = some ((0, [(5, 6), (6, 7), (7, 8)]), [⟨2, 0x0103, []⟩]) := by decide
/-- A12. -/
theorem test_outstep_pends : run (b0Tx 5 0 []) 0x4903 [6, 7, 8] = some ⟨b0Tx 5 0 [], [], [⟨2, 0x2102, []⟩]⟩ := by decide
/-- A14. -/
theorem test_tick_elapses : seen (fun k => (k.flushCnt, k.flushPend, k.pulseRx)) { b0 with flushCnt := 2, pulseRx := 1 } 0xAA00 []
    = some ((0, true, 0), [⟨5, 0x0000, []⟩]) := by decide
/-- A15: no flush count in WAIT. -/
theorem test_tick_waits : seen (·.flushCnt) (Block.reset Config.refA) 0xAA00 [] = some (0, [⟨5, 0x0000, []⟩]) := by decide
/-- P4: OUTS reads 0x18 while suspended. -/
theorem test_csrrd_outs : seen (·.state) asleep 0xCF0B [] = some (.suspended, [⟨6, 0x0118, []⟩]) := by decide
/-- Y2. -/
theorem test_csrrd_reserved : seen (·.config) b0 0xCF0E [] = some (1, [⟨6, 0x0100, []⟩]) := by decide
/-- U18. -/
theorem test_vbusoff : seen (fun k => (k.state, k.config, k.bridge, k.lcBaud)) b0 0x7000 []
    = some ((.unattached, 0, false, 9600), [⟨3, 0x0000, []⟩]) := by decide
/-- U6. -/
theorem test_vbuson_ignored : run (inState .powered) 0x7001 [] = some ⟨inState .powered, [], [⟨3, 0x3000, []⟩]⟩ := by decide
/-- A17. -/
theorem test_suspend : seen (fun k => (devstateByte k, ienByte k, modeByte k, k.pulseRx, k.rx.w))
    { b0Rx 2 0 [] with pulseRx := 2, flushCnt := 1 } 0x7100 [] = some ((0x52, 0x0D, 0, 0, 0), [⟨3, 0x0000, []⟩]) := by decide
/-- P4: the wake enters BRIDGE. -/
theorem test_wake_to_bridge : seen (fun k => (devstateByte k, ienByte k, modeByte k)) asleep 0x7200 []
    = some ((0x05, 0x0B, 0x01), [⟨3, 0x0000, []⟩]) := by decide
/-- U8: Default wakes to Powered. -/
theorem test_wake_default : seen devstateByte { asleep with prev := .default, config := 0 } 0x7200 []
    = some (0x01, [⟨3, 0x0000, []⟩]) := by decide
/-- S4, from Configured. -/
theorem test_eorst : seen (fun k => (devstateByte k, k.config, modeByte k, k.trace.length)) b0 0x7300 []
    = some ((0x03, 0, 0, 3), [⟨3, 0x0000, []⟩]) := by decide
/-- P1, third line. -/
theorem test_addressed : seen (·.state) (inState .default) 0x7400 [] = some (.addressed, [⟨3, 0x0000, []⟩]) := by decide
/-- U13. -/
theorem test_setcfg : seen (fun k => (k.config, k.rx.w, k.flushCnt, k.bridge)) { b0Rx 2 0 [] with flushCnt := 2 } 0x7502 []
    = some ((2, 0, 0, true), [⟨3, 0x0000, []⟩]) := by decide
/-- U12. -/
theorem test_setcfg_zero : seen (fun k => (k.state, k.config, k.bridge)) b0 0x7500 []
    = some ((.addressed, 0, false), [⟨3, 0x0000, []⟩]) := by decide
/-- P1, last line. -/
theorem test_getlc : seen (·.lcBits) b0 0x9800 [] = some (8, [⟨4, 0x0107, [0x80, 0x25, 0, 0, 0, 0, 8]⟩]) := by decide
/-- S7 row 3. -/
theorem test_setlc_flushes : seen (fun k => (k.tx.w, k.tx.r, k.bridge, k.trace.getLast?)) (b0Tx 3 1 [])
    0x9900 [0x00, 0xC2, 0x01, 0x00, 0x00, 0x00, 0x08]
    = some ((0, 0, true, some (.uartCfg 115200 0 0 8)), [⟨4, 0x0000, []⟩]) := by decide
/-- K5: one and a half stop bits. -/
theorem test_setlc_invalid : run (inState .default) 0x9900 [0x80, 0x25, 0, 0, 1, 0, 8]
    = some ⟨inState .default, [], [⟨4, 0x3000, []⟩]⟩ := by decide
/-- K10: RTS alone has no effect on RESET_LINE. -/
theorem test_setcls : seen (fun k => (k.cls, resetLine k)) { b0 with cls := 3 } 0x9A00 [0x02, 0x00]
    = some ((2, false), [⟨4, 0x0000, []⟩]) := by decide
/-- K11. -/
theorem test_sendbrk : run b0 0x9B00 [0xF4, 0x01] = some ⟨b0, [], [⟨4, 0x0000, []⟩]⟩ := by decide
/-- K13. -/
theorem test_ctluns : run b0 0x9D02 [1, 2] = some ⟨b0, [], [⟨4, 0x3000, []⟩]⟩ := by decide
/-- E19: a fault changes only the record. -/
theorem test_fault : seen (fun k => (k.rx.r, k.faultCode, k.faultCmd, k.faultMulti)) (b0Rx 1 0 []) 0x4201 []
    = some ((0, 3, 0x42, false), [⟨2, 0xF103, []⟩]) := by decide
/-- E18, second step. -/
theorem test_fault_again : seen (fun k => (faultByte k, k.faultCmd))
    { Block.reset Config.refA with faultCode := 1, faultCmd := 0xE0 } 0x0500 []
    = some ((0x81, 0xE0), [⟨0, 0xF102, []⟩]) := by decide
/-- Ill-formed parameters are refused. -/
theorem test_illformed_refused : step (atBlock (Block.reset { Config.refA with nRx := 3 })) =
    .refused .illFormedConfig := rfl
/-- 60_exceptions.md R164: DEV before CTL before URX before SCH before OBS. -/
theorem test_same_cycle : arbitrate [⟨0xCF07, []⟩, ⟨0x4801, []⟩, ⟨0x0141, []⟩, ⟨0x9800, []⟩, ⟨0x7100, []⟩]
    = [⟨0x7100, []⟩, ⟨0x9800, []⟩, ⟨0x0141, []⟩, ⟨0x4801, []⟩, ⟨0xCF07, []⟩] := by decide

/-! ### The statements' hypotheses can be met: one theorem per statement, one conjunct per clause -/

/-- The invariant as one decidable conjunction. -/
abbrev invFields (k : Block) : Prop :=
  configOk k.cfg = true
  ∧ (k.rx.w.toNat ≤ k.cfg.nRx - 1 ∧ k.rx.r.toNat ≤ k.cfg.nRx - 1 ∧ k.rx.buf.wf = true ∧ k.rx.buf.within k.cfg.nRx = true)
  ∧ (k.tx.w.toNat ≤ k.cfg.nTx - 1 ∧ k.tx.r.toNat ≤ k.cfg.nTx - 1 ∧ k.tx.buf.wf = true ∧ k.tx.buf.within k.cfg.nTx = true)
  ∧ k.bridge = gate k
  ∧ (k.bridge = false → k.rx.w = k.rx.r ∧ k.tx.w = k.tx.r)
  ∧ (k.bridge = false → k.flushCnt = 0 ∧ k.flushPend = false)
  ∧ (k.ienWake = decide (k.state = .suspended) ∧ k.ienSusp = decide (k.state ≠ .suspended))
  ∧ (if k.state = .suspended then isPowered k.prev = true else k.prev = .unattached)
  ∧ (k.state = .configured ∨ k.prev = .configured → k.config ≠ 0)
  ∧ k.flushCnt.toNat < k.cfg.flushTicks
  ∧ (k.pulseRx.toNat ≤ k.cfg.pulseTicks ∧ k.pulseTx.toNat ≤ k.cfg.pulseTicks)
  ∧ k.faultCode.toNat ≤ 5
  ∧ (k.faultCode = 0 → k.faultMulti = false ∧ k.faultCmd = 0)
  ∧ ((k.lcBaud = 0 ∧ k.lcFmt = 0 ∧ k.lcParity = 0 ∧ k.lcBits = 0)
      ∨ validEncoding k.lcFmt k.lcParity k.lcBits = true)

theorem inv_of_fields {k : Block} (h : invFields k) : k.Inv := by
  obtain ⟨a, ⟨b1, b2, b3, b4⟩, ⟨c1, c2, c3, c4⟩, d, e, f, g, i, j, l, m, n, o, p⟩ := h
  exact ⟨a, ⟨b1, b2, b3, b4⟩, ⟨c1, c2, c3, c4⟩, d, e, f, g, i, j, l, m, n, o, p⟩

/-- `B0` with both rings full, to their last byte. -/
def b0Full : Block := { b0Rx 6 7 [(7, 0x5A)] with tx := ⟨3, 4, [(4, 0x08)]⟩ }

/-- `B0` with room for one byte in each ring. -/
def b0Room : Block := { b0Rx 7 1 [(1, 0x11)] with tx := ⟨7, 1, [(1, 0x22)] ⟩ }

/-- `B0` with both rings full, the flush timer due and counting, both pulses armed and DTR set. -/
def b0Busy : Block := { b0Full with flushCnt := 1, flushPend := true, pulseRx := 2, pulseTx := 2, cls := 1 }

theorem test_inv_reset : State.reset.Inv := inv_of_fields (by decide)
theorem test_inv_b0 : b0.Inv := inv_of_fields (by decide)
theorem test_inv_b0Full : b0Full.Inv := inv_of_fields (by decide)
theorem test_inv_b0Room : b0Room.Inv := inv_of_fields (by decide)
theorem test_inv_b0Busy : b0Busy.Inv := inv_of_fields (by decide)
theorem test_inv_asleep : asleep.Inv := inv_of_fields (by decide)

theorem test_hyps_DecodeOfEncode :
    (Instr.outstep (List.replicate 255 1)).wellFormed = true ∧ (Instr.ctluns 3 (List.replicate 255 1)).wellFormed = true
    ∧ (Instr.ctluns 0 []).wellFormed = true := by decide +kernel
theorem test_hyps_EncodeOfDecode : decode ⟨0x6703, []⟩ = .ok (.ringrst 3) := by decide
theorem test_hyps_ConfigurationWellFormedIff :
    configOk (atBlock (Block.reset { Config.refA with nRx := 3 })).block.cfg = false ∧ configOk b0.cfg = true := by decide
theorem test_hyps_OtherInputsOfTheStep :
    (configOk State.reset.block.cfg = true ∧ State.reset.inbox = [])
    ∧ (configOk b0.cfg = true ∧ (⟨b0, [.blockReset], []⟩ : State).inbox = [.blockReset]) := by decide
theorem test_hyps_StepRunsTheDecodedCommand :
    configOk b0.cfg = true ∧ (given b0 ⟨0x4200, []⟩).inbox = [.command ⟨0x4200, []⟩]
    ∧ decodeFor b0.cfg ⟨0x4200, []⟩ = .ok .rxpop
    ∧ decodeFor b0.cfg ⟨0x4906, [1, 2, 3, 4, 5, 6]⟩ = .ok (.outstep [1, 2, 3, 4, 5, 6]) := by decide
theorem test_hyps_FaultEntryIsPrecise :
    configOk b0.cfg = true ∧ (given b0 ⟨0xE000, []⟩).inbox = [.command ⟨0xE000, []⟩]
    ∧ decodeFor b0.cfg ⟨0xE000, []⟩ = .error .illegal ∧ b0.faultCode = 0
    ∧ decodeFor b0.cfg ⟨0x4907, [1, 2, 3, 4, 5, 6, 7]⟩ = .error .outOversize := by decide
theorem test_hyps_FaultRecordIsSticky :
    let k : Block := { b0 with faultCode := 5, faultMulti := true, faultCmd := 0x49 }
    configOk k.cfg = true ∧ (given k ⟨0x2501, []⟩).inbox = [.command ⟨0x2501, []⟩]
    ∧ k.faultCode ≠ 0 ∧ k.faultMulti = true
    ∧ decodeFor k.cfg ⟨0x2501, []⟩ = .error .resv ∧ decodeFor k.cfg ⟨0x2500, []⟩ = .ok .txpop := by decide
theorem test_hyps_EveryCommandAnswersOnce :
    configOk b0.cfg = true ∧ (given b0 ⟨0xFFFF, []⟩).inbox = [.command ⟨0xFFFF, []⟩] := by decide
theorem test_hyps_ResetHasTheInvariant : configOk Config.refB = true := by decide
theorem test_hyps_StepKeepsTheInvariant :
    (given b0Full ⟨0x4200, []⟩).Inv ∧ ∃ t, step (given b0Full ⟨0x4200, []⟩) = .next t :=
  ⟨test_inv_b0Full, _, rfl⟩
theorem test_hyps_StepNeverStops : configOk (given b0 ⟨0xFFFF, []⟩).block.cfg = true := by decide
theorem test_hyps_GateInSyncAfterEveryCommand : ∃ t, exec .suspend (atBlock b0) = .next t := ⟨_, rfl⟩
theorem test_hyps_GateUpdateAndExitActions :
    (let k : Block := { b0Full with lcBaud := 0 }
     k.bridge = true ∧ ¬(k.state = .configured ∧ k.lcBaud ≠ 0))
    ∧ (let k : Block := { b0 with bridge := false }
       k.bridge = false ∧ k.state = .configured ∧ k.lcBaud ≠ 0)
    ∧ (b0.bridge = true ∧ b0.state = .configured ∧ b0.lcBaud ≠ 0)
    ∧ (asleep.bridge = false ∧ ¬(asleep.state = .configured ∧ asleep.lcBaud ≠ 0)) := by decide
theorem test_hyps_GateUpdateAndExitActions_command :
    b0Full.bridge = true ∧ ∃ t, exec .suspend (atBlock b0Full) = .next t ∧ t.block.bridge = false :=
  ⟨by decide, _, rfl, by decide⟩
theorem test_hyps_RingArraysFrame :
    (atBlock b0Room).Inv ∧ (∃ t, exec (.rxpush 9) (atBlock b0Room) = .next t)
    ∧ b0Room.bridge = true ∧ occ (maskRx b0Room) b0Room.rx ≠ maskRx b0Room
    ∧ (∃ t, exec (.txpush 9) (atBlock b0Room) = .next t) ∧ occ (maskTx b0Room) b0Room.tx ≠ maskTx b0Room
    ∧ (∃ t, exec (.outstep [9]) (atBlock b0Room) = .next t)
    ∧ [(9 : Byte)].length ≤ (maskTx b0Room).toNat - (occ (maskTx b0Room) b0Room.tx).toNat
    ∧ (0 : Nat) ≠ b0Room.rx.w.toNat ∧ (0 : Nat) ≠ b0Room.tx.w.toNat
    ∧ (∀ j, j < 1 → (0 : Nat) ≠ ((b0Room.tx.w + BitVec.ofNat 8 j) &&& maskTx b0Room).toNat) :=
  ⟨test_inv_b0Room, ⟨_, rfl⟩, by decide, by decide, ⟨_, rfl⟩, by decide, ⟨_, rfl⟩, by decide, by decide, by decide, by decide⟩
/-- Forms that store nothing, where even the slot at the write cursor reads as before: full, pending, and in WAIT. -/
theorem test_hyps_RingArraysFrame_refused :
    ((atBlock b0Full).Inv ∧ (∃ t, exec (.rxpush 9) (atBlock b0Full) = .next t) ∧ occ (maskRx b0Full) b0Full.rx = maskRx b0Full
      ∧ (∃ t, exec (.txpush 9) (atBlock b0Full) = .next t) ∧ occ (maskTx b0Full) b0Full.tx = maskTx b0Full)
    ∧ ((∃ t, exec (.outstep [9, 9]) (atBlock b0Room) = .next t)
      ∧ ¬ [(9 : Byte), 9].length ≤ (maskTx b0Room).toNat - (occ (maskTx b0Room) b0Room.tx).toNat)
    ∧ (atBlock asleep).Inv ∧ asleep.bridge = false ∧ (∃ t, exec (.rxpush 9) (atBlock asleep) = .next t)
      ∧ ∃ t, exec (.outstep [9]) (atBlock asleep) = .next t :=
  ⟨⟨test_inv_b0Full, ⟨_, rfl⟩, by decide, ⟨_, rfl⟩, by decide⟩, ⟨⟨_, rfl⟩, by decide⟩, test_inv_asleep, by decide, ⟨_, rfl⟩, _, rfl⟩
theorem test_hyps_CursorArithmetic :
    (∃ k, 1 ≤ k ∧ k ≤ 8 ∧ (2 : Nat) = 2 ^ k) ∧ (∃ k, 1 ≤ k ∧ k ≤ 8 ∧ (256 : Nat) = 2 ^ k) :=
  ⟨⟨1, by decide⟩, ⟨8, by decide⟩⟩
theorem test_hyps_CapacityLaw :
    (atBlock b0Full).Inv ∧ (∃ t, exec (.rxpush 9) (atBlock b0Full) = .next t) ∧ b0Full.bridge = true
    ∧ (∃ t, exec (.txpush 9) (atBlock b0Full) = .next t) :=
  ⟨test_inv_b0Full, ⟨_, rfl⟩, by decide, ⟨_, rfl⟩⟩
theorem test_hyps_RxpushStoresOrRefuses :
    (GateInSync asleep ∧ asleep.bridge = false)
    ∧ (GateInSync b0Full ∧ b0Full.bridge = true ∧ occ (maskRx b0Full) b0Full.rx = maskRx b0Full)
    ∧ (GateInSync b0Room ∧ b0Room.bridge = true ∧ occ (maskRx b0Room) b0Room.rx ≠ maskRx b0Room) := by decide
theorem test_hyps_PopsTakeTheOldestByte :
    (GateInSync b0 ∧ b0.rx.w = b0.rx.r ∧ b0.tx.w = b0.tx.r)
    ∧ (GateInSync b0Full ∧ b0Full.rx.w ≠ b0Full.rx.r ∧ b0Full.tx.w ≠ b0Full.tx.r) := by decide
theorem test_hyps_OccupancyQueries : GateInSync b0Full := by decide
theorem test_hyps_TxpushStoresOrRefuses :
    (GateInSync asleep ∧ (asleep.bridge = false ∨ occ (maskTx asleep) asleep.tx = maskTx asleep))
    ∧ (GateInSync b0Full ∧ (b0Full.bridge = false ∨ occ (maskTx b0Full) b0Full.tx = maskTx b0Full))
    ∧ (GateInSync b0Room ∧ b0Room.bridge = true ∧ occ (maskTx b0Room) b0Room.tx ≠ maskTx b0Room) := by decide
theorem test_hyps_RingrstClearsSelectedCursors : GateInSync b0Full := by decide
theorem test_hyps_PushesPopInOrder :
    (atBlock b0).Inv ∧ b0.bridge = true ∧ rxQueue b0 = [] ∧ txQueue b0 = []
    ∧ [(1 : Byte), 2, 3, 4, 5, 6, 7].length ≤ b0.cfg.nRx - 1 ∧ [(1 : Byte), 2, 3, 4, 5, 6, 7].length ≤ b0.cfg.nTx - 1 :=
  ⟨test_inv_b0, by decide⟩
theorem test_hyps_RxRingIsAQueue :
    (atBlock b0Full).Inv ∧ (∀ b, Instr.txocc ≠ .rxpush b) ∧ Instr.txocc ≠ .rxpop ∧ (∀ r, Instr.txocc ≠ .instep r)
    ∧ ∃ t, exec .txocc (atBlock b0Full) = .next t :=
  ⟨test_inv_b0Full, nofun, nofun, nofun, _, rfl⟩
theorem test_hyps_TxRingIsAQueue :
    (atBlock b0Full).Inv ∧ (∀ b, Instr.rxocc ≠ .txpush b) ∧ (∀ p, Instr.rxocc ≠ .outstep p) ∧ Instr.rxocc ≠ .txpop
    ∧ ∃ t, exec .rxocc (atBlock b0Full) = .next t :=
  ⟨test_inv_b0Full, nofun, nofun, nofun, _, rfl⟩
theorem test_hyps_UnoccupiedBytesAreUnobservable :
    let a := b0Rx 2 1 [(1, 0x5A), (4, 0x77)]
    let b := b0Rx 2 1 [(1, 0x5A)]
    (atBlock a).Inv ∧ (atBlock b).Inv ∧ SameVisible a b
    ∧ (∃ t, exec .rxpop (atBlock a) = .next t) ∧ ∃ t, exec .rxpop (atBlock b) = .next t :=
  ⟨inv_of_fields (by decide), inv_of_fields (by decide), ⟨by decide, by decide, by decide⟩, ⟨_, rfl⟩, _, rfl⟩
theorem test_hyps_VbusonAndAddressed :
    (GateInSync (inState .unattached) ∧ (inState .unattached).state = .unattached ∧ (inState .unattached).state ≠ .default)
    ∧ (GateInSync (inState .default) ∧ (inState .default).state = .default ∧ (inState .default).state ≠ .unattached) := by
  decide
theorem test_hyps_VbusoffDetaches :
    (GateInSync (inState .unattached) ∧ (inState .unattached).state = .unattached)
    ∧ (GateInSync b0Full ∧ b0Full.state ≠ .unattached) := by decide
theorem test_hyps_SuspendSavesTheState :
    (GateInSync b0 ∧ b0.ienSusp = true ∧ b0.state ∈ [DevState.powered, .default, .addressed, .configured])
    ∧ (GateInSync asleep ∧ (asleep.ienSusp = false ∨ asleep.state ∉ [DevState.powered, .default, .addressed, .configured]))
    ∧ (let k := inState .unattached
       GateInSync k ∧ (k.ienSusp = false ∨ k.state ∉ [DevState.powered, .default, .addressed, .configured])) := by decide
theorem test_hyps_WakeRestoresTheState :
    (GateInSync asleep ∧ asleep.ienWake = true ∧ asleep.state = .suspended ∧ asleep.prev = .configured)
    ∧ (let k : Block := { asleep with prev := .default, config := 0 }
       GateInSync k ∧ k.ienWake = true ∧ k.state = .suspended ∧ k.prev = .default)
    ∧ (GateInSync b0 ∧ (b0.ienWake = false ∨ b0.state ≠ .suspended)) := by decide
theorem test_hyps_WakeWithAnUnstatedTargetCompletes :
    (let k : Block := { asleep with prev := .unattached }
     GateInSync k ∧ k.ienWake = true ∧ k.state = .suspended ∧ (k.prev = .unattached ∨ k.prev = .suspended))
    ∧ (let k : Block := { asleep with prev := .suspended }
       GateInSync k ∧ k.ienWake = true ∧ k.state = .suspended ∧ (k.prev = .unattached ∨ k.prev = .suspended)) := by decide
theorem test_hyps_EorstYieldsDefault : GateInSync b0 ∧ GateInSync asleep := by decide
theorem test_hyps_SetcfgSelectsAConfiguration :
    (GateInSync b0 ∧ (b0.state = .addressed ∨ b0.state = .configured) ∧ (255 : Byte) ≠ 0)
    ∧ (let k := inState .addressed
       GateInSync k ∧ (k.state = .addressed ∨ k.state = .configured) ∧ (1 : Byte) ≠ 0)
    ∧ (GateInSync asleep ∧ asleep.state ≠ .addressed ∧ asleep.state ≠ .configured) := by decide
theorem test_hyps_FullTransitionTable :
    (atBlock b0Full).Inv ∧ isDeviceEvent .vbusoff = true ∧ isDeviceEvent (.setcfg 0) = true
    ∧ (atBlock asleep).Inv ∧ isDeviceEvent .wake = true :=
  ⟨test_inv_b0Full, by decide, by decide, test_inv_asleep, by decide⟩
theorem test_hyps_SuspendThenWakeKeepsEnables :
    (atBlock b0Full).Inv ∧ b0Full.state ≠ .unattached ∧ b0Full.state ≠ .suspended :=
  ⟨test_inv_b0Full, by decide⟩
theorem test_hyps_ConfiguredIsEnteredOnlyTwoWays :
    (atBlock asleep).Inv ∧ (∃ t, exec .wake (atBlock asleep) = .next t ∧ t.block.state = .configured)
    ∧ asleep.state ≠ .configured :=
  ⟨test_inv_asleep, ⟨_, rfl, by decide⟩, by decide⟩
theorem test_hyps_SingleWriterMap :
    (atBlock b0Busy).Inv
    ∧ (∃ t, exec .eorst (atBlock b0Busy) = .next t
      ∧ t.block.rx.w ≠ b0Busy.rx.w ∧ t.block.rx.r ≠ b0Busy.rx.r ∧ t.block.tx.w ≠ b0Busy.tx.w ∧ t.block.tx.r ≠ b0Busy.tx.r
      ∧ t.block.state ≠ b0Busy.state ∧ t.block.cls ≠ b0Busy.cls ∧ t.block.flushCnt ≠ b0Busy.flushCnt
      ∧ t.block.flushPend ≠ b0Busy.flushPend ∧ t.block.pulseRx ≠ b0Busy.pulseRx ∧ t.block.pulseTx ≠ b0Busy.pulseTx
      ∧ LeavesBridge b0Busy t.block)
    ∧ ∃ t, exec (.setlc 0 2 1 5) (atBlock b0Busy) = .next t ∧ t.block.lcBaud ≠ b0Busy.lcBaud ∧ LeavesBridge b0Busy t.block :=
  ⟨test_inv_b0Busy, ⟨_, rfl, by decide⟩, _, rfl, by decide⟩
theorem test_hyps_ControlIgnoredOutsideCtlStates :
    (GateInSync asleep ∧ isControlCommand (.setcls 3) = true
      ∧ (asleep.state = .unattached ∨ asleep.state = .powered ∨ asleep.state = .suspended))
    ∧ (GateInSync (inState .powered) ∧ isControlCommand .getlc = true ∧ (inState .powered).state = .powered)
    ∧ (GateInSync (inState .unattached) ∧ (inState .unattached).state = .unattached) := by decide
theorem test_hyps_GetlcReturnsTheLineEncoding :
    (GateInSync b0 ∧ b0.state ∈ [DevState.default, .addressed, .configured])
    ∧ (GateInSync asleep ∧ asleep.state ∉ [DevState.default, .addressed, .configured]) := by decide
theorem test_hyps_SetlcStoresFlushesAndAnnounces :
    (GateInSync b0Full ∧ b0Full.state ∈ [DevState.default, .addressed, .configured]
      ∧ ((2 : Byte) = 0 ∨ (2 : Byte) = 2) ∧ ((2 : Byte) = 0 ∨ (2 : Byte) = 1 ∨ (2 : Byte) = 2)
      ∧ ((5 : Byte) = 5 ∨ (5 : Byte) = 6 ∨ (5 : Byte) = 7 ∨ (5 : Byte) = 8))
    ∧ (GateInSync b0 ∧ ¬((5 : Byte) = 0 ∨ (5 : Byte) = 2))
    ∧ (GateInSync asleep ∧ asleep.state ∉ [DevState.default, .addressed, .configured]) := by decide
theorem test_hyps_SetclsStoresTheControlLines :
    (GateInSync b0 ∧ b0.state ∈ [DevState.default, .addressed, .configured])
    ∧ (GateInSync asleep ∧ asleep.state ∉ [DevState.default, .addressed, .configured]) := by decide
theorem test_hyps_SendbrkAndCtlunsChangeNothing :
    (GateInSync b0 ∧ b0.state ∈ [DevState.default, .addressed, .configured])
    ∧ (GateInSync asleep ∧ asleep.state ∉ [DevState.default, .addressed, .configured])
    ∧ [(1 : Byte), 2].length ≤ 255 := by decide
theorem test_hyps_GetlcIsVerbatim :
    acceptsControl b0.state = true ∧ validEncoding 2 2 5 = true
    ∧ ∃ t u, exec (.setlc 9600 2 2 5) (atBlock b0) = .next t
      ∧ (∀ b f p d, Instr.setlc b f p d ∈ [Instr.setlc 1 1 0 8, .eorst] → validEncoding f p d = false)
      ∧ runAll [.setlc 1 1 0 8, .eorst] t = some u ∧ acceptsControl u.block.state = true := by
  refine ⟨by decide, by decide, _, _, rfl, ?_, rfl, by decide⟩
  intro b f p d h
  rcases List.mem_cons.1 h with h | h
  · cases h; decide
  · rcases List.mem_cons.1 h with h | h <;> cases h
theorem test_hyps_ResetLineFollowsDtr :
    acceptsControl b0.state = true
    ∧ ∃ t u, exec (.setcls 1) (atBlock b0) = .next t ∧ (∀ w, Instr.setcls w ∉ [Instr.suspend, .tick])
      ∧ Instr.eorst ∉ [Instr.suspend, .tick] ∧ Instr.vbusoff ∉ [Instr.suspend, .tick]
      ∧ runAll [.suspend, .tick] t = some u :=
  ⟨by decide, _, _, rfl, fun w h => by simp at h, by decide, by decide, rfl⟩
theorem test_hyps_InstepDrainsWhenDue :
    (let k := b0Rx 4 0 []
     GateInSync k ∧ k.bridge = true ∧ ((k.rx.w - k.rx.r) &&& maskRx k).toNat ≥ k.cfg.thresh)
    ∧ (let k : Block := { b0Rx 1 0 [] with flushPend := true }
       GateInSync k ∧ k.bridge = true ∧ k.flushPend = true ∧ ((k.rx.w - k.rx.r) &&& maskRx k).toNat > 0)
    ∧ (let k := b0Rx 3 0 []
       GateInSync k ∧ ¬(((k.rx.w - k.rx.r) &&& maskRx k).toNat ≥ k.cfg.thresh
         ∨ k.flushPend = true ∧ ((k.rx.w - k.rx.r) &&& maskRx k).toNat > 0))
    ∧ (GateInSync asleep ∧ asleep.bridge = false) := by decide
theorem test_hyps_OutstepAcceptsOrPends :
    (GateInSync asleep ∧ asleep.bridge = false)
    ∧ (GateInSync b0Room ∧ b0Room.bridge = true
      ∧ (maskTx b0Room).toNat - (occ (maskTx b0Room) b0Room.tx).toNat ≥ [(1 : Byte)].length)
    ∧ (GateInSync b0Room ∧ b0Room.bridge = true
      ∧ (maskTx b0Room).toNat - (occ (maskTx b0Room) b0Room.tx).toNat < [(1 : Byte), 2].length)
    ∧ ([(1 : Byte), 2].length ≤ 255 ∧ [(1 : Byte), 2, 3, 4, 5, 6, 7].length = (7 : Byte).toNat
      ∧ b0.cfg.epOutSize < (7 : Byte).toNat) := by decide
theorem test_hyps_TickAdvancesTheTimers : GateInSync b0 ∧ GateInSync asleep := by decide
theorem test_hyps_PulsesCountDownInEveryMode : GateInSync { b0 with pulseRx := 2 } ∧ GateInSync asleep := by decide
theorem test_hyps_LatencyLaw : (atBlock b0Full).Inv ∧ b0Full.bridge = true ∧ rxQueue b0Full ≠ [] :=
  ⟨test_inv_b0Full, by decide, by decide⟩
theorem test_hyps_BackpressureLaw :
    (atBlock b0Room).Inv ∧ b0Room.bridge = true
    ∧ (free (maskTx b0Room) b0Room.tx).toNat < [(1 : Byte), 2, 3].length
    ∧ (∀ i ∈ [Instr.txpop, .tick], isDataCommand i = true)
    ∧ [Instr.txpop, .tick].count .txpop < [(1 : Byte), 2, 3].length - (free (maskTx b0Room) b0Room.tx).toNat
    ∧ ∃ t, runAll [.txpop, .tick] (atBlock b0Room) = some t :=
  ⟨test_inv_b0Room, by decide, by decide, by decide, by decide, _, rfl⟩
theorem test_hyps_NopDoesNothing : GateInSync b0 ∧ (6 : BitVec 3) ≠ 7 ∧ (1 : Byte) ≠ 0 ∧ [(0 : Byte)] ≠ [] := by decide
theorem test_hyps_CsrrdReadsTheObservationMap :
    GateInSync b0 ∧ (0x1F : Byte) ∈ [(0x0E : Byte), 0x0F, 0x17, 0x1A, 0x1B, 0x1C, 0x1D, 0x1E, 0x1F]
    ∧ 0x27 ≤ (0x27 : Byte).toNat ∧ 0x27 ≤ (0xFF : Byte).toNat := by decide
theorem test_hyps_ObservationLaw :
    GateInSync b0Full ∧ (∀ i ∈ [Instr.nop .urx, .csrrd 7], isObservation i = true)
    ∧ ∃ u, runAll [.rxpop] (atBlock b0Full) = some u :=
  ⟨by decide, by decide, _, rfl⟩
theorem test_hyps_TraceIsAppendOnly : ∃ t, exec (.setlc 9600 0 0 8) (atBlock b0) = .next t := ⟨_, rfl⟩
theorem test_hyps_RxOverrunIsSticky :
    configOk b0Full.cfg = true ∧ (given b0Full ⟨0x0109, []⟩).inbox = [.command ⟨0x0109, []⟩]
    ∧ decodeFor b0Full.cfg ⟨0x0109, []⟩ = .ok (.rxpush 9) ∧ occ (maskRx b0Full) b0Full.rx = maskRx b0Full
    ∧ (⟨{ b0 with rxOvr := true }, [.blockReset], []⟩ : State).inbox = [.blockReset] := by decide

end Sys2Proof.Tests
end

section
/-!
PROOFS. Which parameter sets are well-formed, and that the step refuses exactly the others (00_scope.md R6 to R9).
-/
namespace Sys2Proof.Machine

/-! ### The conditions on the parameters -/

/-- The list of ring sizes in the model is R6's power of two between 2 and 256. -/
theorem isRingSize_iff_two_pow {n : Nat} : isRingSize n = true ↔ ∃ k, 1 ≤ k ∧ k ≤ 8 ∧ n = 2 ^ k := by
  constructor
  · intro h
    rcases ringSize_cases h with rfl | rfl | rfl | rfl | rfl | rfl | rfl | rfl
    · exact ⟨1, by decide⟩
    · exact ⟨2, by decide⟩
    · exact ⟨3, by decide⟩
    · exact ⟨4, by decide⟩
    · exact ⟨5, by decide⟩
    · exact ⟨6, by decide⟩
    · exact ⟨7, by decide⟩
    · exact ⟨8, by decide⟩
  · rintro ⟨k, hlow, hhigh, rfl⟩
    interval_cases k <;> rfl

/-- The test of the parameters, condition by condition. -/
theorem configOk_iff (c : Config) : configOk c = true ↔
    isRingSize c.nRx = true ∧ isRingSize c.nTx = true
    ∧ 1 ≤ c.thresh ∧ c.thresh ≤ c.nRx - 1 ∧ c.thresh ≤ c.epInSize
    ∧ 1 ≤ c.epInSize ∧ c.epInSize ≤ 255
    ∧ 1 ≤ c.epOutSize ∧ c.epOutSize ≤ 255 ∧ c.epOutSize ≤ c.nTx - 1
    ∧ 1 ≤ c.flushTicks ∧ c.flushTicks ≤ 255 ∧ 1 ≤ c.pulseTicks ∧ c.pulseTicks ≤ 255 := by
  simp only [configOk, List.all_cons, List.all_nil, Bool.and_true, Bool.and_eq_true, decide_eq_true_eq]

/-! ### Refusal at the step -/

/-- Executing an instruction never refuses: it completes with a next state. -/
theorem exec_ne_refused (i : Instr) (s : State) (r : Refusal) : exec i s ≠ .refused r := by
  rw [exec_eq]
  exact nofun

/-- With well-formed parameters the step refuses for no reason: it waits, resets, takes a fault or executes. -/
theorem step_ne_refused {s : State} (hc : configOk s.block.cfg = true) (r : Refusal) : step s ≠ .refused r := by
  obtain ⟨hbad, -⟩ | ⟨-, ⟨-, h⟩ | ⟨rest, -, h⟩ | ⟨c, rest, e, -, -, h⟩ | ⟨c, rest, i, -, -, h⟩⟩ := step_cases s
  · exact absurd hc (by simp [hbad])
  · rw [h]; exact nofun
  · rw [h]; exact nofun
  · rw [h]; exact nofun
  · rw [h]; exact exec_ne_refused i _ r

/-- The step refuses the parameters exactly when they fail the test. -/
theorem configOk_eq_false_iff_step_refused (s : State) :
    configOk s.block.cfg = false ↔ step s = .refused .illFormedConfig := by
  constructor
  · intro hbad
    obtain ⟨-, h⟩ | ⟨hc, -⟩ := step_cases s
    · exact h
    · exact absurd hc (by simp [hbad])
  · intro h
    by_contra hok
    exact step_ne_refused (Bool.eq_true_of_not_eq_false hok) _ h

/-- Settles O5: the test read condition by condition, ring sizes as powers of two; the refusal from the cases of the step. -/
theorem configurationWellFormedIff : Obligations.ConfigurationWellFormedIff := by
  refine ⟨configOk_eq_false_iff_step_refused, fun c => ?_⟩
  rw [configOk_iff, isRingSize_iff_two_pow, isRingSize_iff_two_pow]

end Sys2Proof.Machine
end

section
/-!
PROOFS. The state elements with a rule of their own (10_state.md): their values at block reset, the trace, and the sticky mark of a lost
byte.
-/
namespace Sys2Proof.Machine

/-! ### The shared endings and these elements -/

@[simp] theorem gateUpdate_trace (k : Block) : (gateUpdate k).trace = k.trace := by
  obtain ⟨-, -, h⟩ | ⟨-, -, h⟩ | ⟨-, h⟩ := gateUpdate_cases k <;> rw [h]
  rfl

@[simp] theorem gateUpdate_rxOvr (k : Block) : (gateUpdate k).rxOvr = k.rxOvr := by
  obtain ⟨-, -, h⟩ | ⟨-, -, h⟩ | ⟨-, h⟩ := gateUpdate_cases k <;> rw [h]
  rfl

@[simp] theorem recordFault_trace (e : FaultCode) (w : Word) (k : Block) : (recordFault e w k).trace = k.trace := by
  unfold recordFault
  split <;> rfl

@[simp] theorem recordFault_rxOvr (e : FaultCode) (w : Word) (k : Block) : (recordFault e w k).rxOvr = k.rxOvr := by
  unfold recordFault
  split <;> rfl

@[simp] theorem flushTick_trace (k : Block) : (flushTick k).trace = k.trace := by
  unfold flushTick
  split_ifs <;> rfl

@[simp] theorem flushTick_rxOvr (k : Block) : (flushTick k).rxOvr = k.rxOvr := by
  unfold flushTick
  split_ifs <;> rfl

/-! ### What a step does with a delivered input -/

/-- A delivered command that fails its checks takes the block's fault. -/
theorem step_of_decodeFor_error {s : State} {c : Command} {rest : List Input} {e : FaultCode}
    (hcfg : configOk s.block.cfg = true) (hin : s.inbox = .command c :: rest) (hdec : decodeFor s.block.cfg c = .error e) :
    step s = .next (takeFault e c { s with inbox := rest }) := by
  simp [step, takeInput, hcfg, hin, hdec]

/-- A delivered command that decodes is executed. -/
theorem step_of_decodeFor_ok {s : State} {c : Command} {rest : List Input} {i : Instr}
    (hcfg : configOk s.block.cfg = true) (hin : s.inbox = .command c :: rest) (hdec : decodeFor s.block.cfg c = .ok i) :
    step s = exec i { s with inbox := rest } := by
  simp [step, takeInput, hcfg, hin, hdec]

/-- A delivered block reset resets the block. -/
theorem step_of_blockReset {s : State} {rest : List Input}
    (hcfg : configOk s.block.cfg = true) (hin : s.inbox = .blockReset :: rest) :
    step s = .next (blockReset { s with inbox := rest }) := by
  simp [step, takeInput, hcfg, hin]

/-! ### The trace -/

/-- The events an instruction emits in the device-connection state `d` (10_state.md R46). -/
def emittedEvents (d : DevState) : Instr → List Event
  | .eorst => [.epReinit]
  | .setlc baud fmt parity bits =>
      if acceptsControl d = true ∧ validEncoding fmt parity bits = true then [.uartCfg baud fmt parity bits] else []
  | _ => []

/-- SETLC emits its `UART_CFG` exactly when it is accepted (43_cdc_control.md R126 to R128). -/
theorem ruleSetlc_trace (baud : BitVec 32) (fmt parity bits : Byte) (k : Block) :
    (ruleSetlc baud fmt parity bits k).1.trace = k.trace ++ emittedEvents k.state (.setlc baud fmt parity bits) := by
  unfold ruleSetlc emittedEvents
  split_ifs <;> simp_all

/-- A rule appends the instruction's events to the trace. -/
theorem rule_trace (i : Instr) (k : Block) : (rule i k).1.trace = k.trace ++ emittedEvents k.state i := by
  cases i with
  | eorst => rfl
  | setlc baud fmt parity bits => exact ruleSetlc_trace baud fmt parity bits k
  | nop | rxocc | txocc | csrrd | ctluns => simp [rule, emittedEvents]
  | rxpush | rxpop | txpush | txpop | ringrst | instep | outstep =>
    simp only [rule, emittedEvents, ruleRxpush, ruleRxpop, ruleTxpush, ruleTxpop, ruleRingrst, ruleInstep, ruleOutstep]
    split_ifs <;> simp
  | tick => simp [rule, ruleTick, emittedEvents]
  | vbusoff | vbuson | suspend | wake | addressed | setcfg =>
    simp only [rule, emittedEvents, ruleVbusoff, ruleVbuson, ruleSuspend, ruleWake, ruleAddressed, ruleSetcfg]
    split_ifs <;> simp
  | getlc | setcls | sendbrk =>
    simp only [rule, emittedEvents, ruleGetlc, ruleSetcls, ruleSendbrk]
    split_ifs <;> simp

/-- Settles O57: no ending touches the trace, so it grows by what the instruction's rule appends. -/
theorem traceIsAppendOnly : Obligations.TraceIsAppendOnly := by
  constructor
  · intro i s t h
    obtain ⟨hblock, -, -⟩ := exec_next h
    rw [hblock, gateUpdate_trace, rule_trace]
    cases i <;> rfl
  · intro e c s
    rw [takeFault_eq, recordFault_trace]

/-! ### The mark of a lost byte -/

/-- RXPUSH sets the mark exactly where it loses its byte: in BRIDGE with the RX ring full (41_ring.md R93). -/
theorem ruleRxpush_rxOvr (b : Byte) (k : Block) : (ruleRxpush b k).1.rxOvr = true ↔
    k.rxOvr = true ∨ k.bridge = true ∧ occ (maskRx k) k.rx = maskRx k := by
  unfold ruleRxpush
  split_ifs with hwait hfull
  · simp [hwait]
  · have hocc : occ (maskRx k) k.rx = maskRx k := of_decide_eq_true hfull
    simp [hwait, hocc]
  · have hocc : occ (maskRx k) k.rx ≠ maskRx k := fun h => hfull (decide_eq_true h)
    simp [hocc]

/-- No rule but that of RXPUSH writes the mark. -/
theorem rule_rxOvr_of_ne_rxpush {i : Instr} (hi : ¬ ∃ b, i = .rxpush b) (k : Block) : (rule i k).1.rxOvr = k.rxOvr := by
  cases i with
  | rxpush b => exact absurd ⟨b, rfl⟩ hi
  | nop | rxocc | txocc | csrrd | ctluns => rfl
  | tick => simp [rule, ruleTick]
  | eorst => simp [rule, ruleEorst]
  | rxpop | txpush | txpop | ringrst | instep | outstep =>
    simp only [rule, ruleRxpop, ruleTxpush, ruleTxpop, ruleRingrst, ruleInstep, ruleOutstep]
    split_ifs <;> simp
  | vbusoff | vbuson | suspend | wake | addressed | setcfg =>
    simp only [rule, ruleVbusoff, ruleVbuson, ruleSuspend, ruleWake, ruleAddressed, ruleSetcfg]
    split_ifs <;> simp
  | getlc | setlc | setcls | sendbrk =>
    simp only [rule, ruleGetlc, ruleSetlc, ruleSetcls, ruleSendbrk]
    split_ifs <;> simp

/-- An instruction's rule leaves the mark set exactly when it was set or the instruction is an RXPUSH that loses its byte. -/
theorem rule_rxOvr_iff (i : Instr) (k : Block) : (rule i k).1.rxOvr = true ↔
    k.rxOvr = true ∨ (∃ b, i = .rxpush b) ∧ k.bridge = true ∧ occ (maskRx k) k.rx = maskRx k := by
  by_cases hi : ∃ b, i = .rxpush b
  · obtain ⟨b, rfl⟩ := hi
    exact (ruleRxpush_rxOvr b k).trans (by simp)
  · simp [rule_rxOvr_of_ne_rxpush hi, hi]

/-- Settles O58: a fault leaves the mark alone, an executed command does what its rule does, block reset clears it. -/
theorem rxOverrunIsSticky : Obligations.RxOverrunIsSticky := by
  constructor
  · intro s c rest hcfg hin
    cases hdec : decodeFor s.block.cfg c with
    | error e =>
      refine ⟨_, step_of_decodeFor_error hcfg hin hdec, ?_⟩
      simp [takeFault_eq]
    | ok i =>
      refine ⟨_, (step_of_decodeFor_ok hcfg hin hdec).trans (exec_eq i _), ?_⟩
      simp [rule_rxOvr_iff]
  · intro s rest hcfg hin
    exact ⟨_, step_of_blockReset hcfg hin, rfl⟩

/-! ### The values at block reset -/

/-- The suspend enable and the two hard-wired ones are on (10_state.md R26, R52). -/
theorem ienMask_reset (cfg : Config) : ienMask (Block.reset cfg) = 0xB := by
  simp [ienMask, Block.reset]

/-- No pulse runs, the control lines and the baud rate are 0, and the block is not suspended: every output is low
(10_state.md R37 to R41). -/
theorem outputs_reset (cfg : Config) :
    ledRx (Block.reset cfg) = false ∧ ledTx (Block.reset cfg) = false ∧ resetLine (Block.reset cfg) = false
      ∧ clkFrozen (Block.reset cfg) = false ∧ uartEn (Block.reset cfg) = false :=
  ⟨rfl, rfl, by simp [resetLine, Block.reset], rfl, rfl⟩

/-- Settles O7: the stored elements are the fields of `Block.reset`; the enable mask and the outputs follow from them. -/
theorem resetValues : Obligations.ResetValues := by
  intro cfg k
  obtain ⟨hledRx, hledTx, hline, hclk, huart⟩ := outputs_reset cfg
  exact ⟨⟨rfl, rfl, rfl, rfl⟩, rfl, rfl, rfl, rfl, rfl, ienMask_reset cfg, rfl, rfl, rfl, rfl, rfl, rfl, rfl, rfl, rfl, rfl,
    rfl, rfl, rfl, rfl, rfl, hledRx, hledTx, hline, hclk, huart, rfl⟩

end Sys2Proof.Machine
end

section
/-!
PROOFS. The port of a command in its word, encoded and decoded (30_encoding.md R74, R75).
-/
namespace Sys2Proof

/-- An operand placed below bit 13 does not reach the `PORT` field. -/
theorem portField_or_setWidth {n : Nat} (hn : n ≤ 13) (base : Word) (b : BitVec n) :
    portField (base ||| b.setWidth 16) = portField base := by
  have hb : portField (b.setWidth 16) = 0#3 := by
    have hlt : b.toNat < 2 ^ 13 := Nat.lt_of_lt_of_le b.isLt (Nat.pow_le_pow_right (by decide) hn)
    apply BitVec.eq_of_toNat_eq
    rw [portField_toNat, BitVec.toNat_setWidth, Nat.mod_eq_of_lt (by omega), BitVec.toNat_ofNat]
    omega
  unfold portField at hb ⊢
  rw [BitVec.extractLsb'_or, hb, BitVec.or_zero]

/-- The word that encodes an instruction names the instruction's port. -/
theorem portField_encode (i : Instr) : portField (encode i).word = i.port.code := by
  cases i with
  | nop port => exact portField_mkWord port.code 0x00 0
  | rxpush b | txpush b | csrrd b | setcfg b | ringrst b => exact portField_or_setWidth (by decide) _ b
  | instep r => exact portField_or_setWidth (by decide) _ (BitVec.ofBool r)
  | outstep bytes => exact portField_or_setWidth (by decide) _ (countByte bytes)
  | ctluns o bytes =>
    refine (portField_or_setWidth (by decide) _ (countByte bytes)).trans ?_
    show portField (0x9C00 ||| (o.setWidth 16 <<< 8)) = Port.ctl.code
    revert o
    decide
  | rxpop | rxocc | txpop | txocc | tick | vbusoff | vbuson | suspend | wake | eorst | addressed | getlc => rfl
  | setlc | setcls | sendbrk =>
    simp only [encode, Instr.port, Port.code]
    decide

/-- The instruction a row reads belongs to the row's owner; one without an owner, to the port that issued it. -/
theorem opRow_read_port {op : BitVec 5} {row : OpRow} (h : opRow op = some row) (port : Port) (d8 : Byte)
    (payload : List Byte) : (row.read port d8 payload).port = row.owner.getD port := by
  unfold opRow at h
  split at h <;> cases h
  any_goals rfl
  -- the one row that reads two instructions
  show (if d8.getLsbD 0 then Instr.vbuson else .vbusoff).port = .dev
  split_ifs <;> rfl

/-- A port that may issue a row's operation is its owner, where it has one. -/
theorem owner_getD_of_owns {row : OpRow} {port : Port} (h : owns row port = true) : row.owner.getD port = port := by
  unfold owns at h
  cases howner : row.owner with
  | none => rfl
  | some owner => simpa [howner] using h

/-- What decoding an instruction says of its command: the port and the row its word names, and the instruction read from them. -/
theorem decode_eq_ok {c : Command} {i : Instr} (h : decode c = .ok i) :
    ∃ port row, portField c.word = port.code ∧ opRow (opField c.word) = some row ∧ owns row port = true
      ∧ i = row.read port (d8Field c.word) c.payload := by
  unfold decode at h
  split at h
  next port row hport hrow =>
    split_ifs at h with howns
    cases h
    exact ⟨port, row, ofCode_eq_some hport, hrow, Bool.eq_true_of_not_eq_false howns, rfl⟩
  next => cases h

/-- A command decodes only to an instruction of the port in its word. -/
theorem port_code_of_decode {c : Command} {i : Instr} (h : decode c = .ok i) : i.port.code = portField c.word := by
  obtain ⟨port, row, hport, hrow, howns, rfl⟩ := decode_eq_ok h
  rw [opRow_read_port hrow, owner_getD_of_owns howns, hport]

end Sys2Proof
end

section
/-!
PROOFS. Every command completes and is answered once, in the response format (30_encoding.md R79, R80).
-/
namespace Sys2Proof.Machine

/-! ### The fields of a response word -/

theorem responseWord_toNat (a : Answer) : (responseWord a).toNat =
    (statusCode a.status).toNat * 4096 + a.v.toNat * 256 + a.data.toNat := by
  have hdata := a.data.isLt
  have hv := a.v.toNat_lt
  simp only [responseWord, BitVec.toNat_append, BitVec.toNat_ofBool]
  rw [← Nat.shiftLeft_add_eq_or_of_lt hdata, ← Nat.shiftLeft_add_eq_or_of_lt (by omega),
    ← Nat.shiftLeft_add_eq_or_of_lt (by decide)]
  simp only [Nat.shiftLeft_eq, BitVec.toNat_ofNat]
  omega

@[simp] theorem responseWord_status (a : Answer) : (responseWord a).extractLsb' 12 4 = statusCode a.status := by
  have hdata := a.data.isLt
  have hv := a.v.toNat_lt
  have hstatus := (statusCode a.status).isLt
  apply BitVec.eq_of_toNat_eq
  rw [BitVec.extractLsb'_toNat, responseWord_toNat, Nat.shiftRight_eq_div_pow]
  omega

@[simp] theorem responseWord_reserved (a : Answer) : (responseWord a).extractLsb' 9 3 = 0#3 := by
  have hdata := a.data.isLt
  have hv := a.v.toNat_lt
  apply BitVec.eq_of_toNat_eq
  rw [BitVec.extractLsb'_toNat, responseWord_toNat, Nat.shiftRight_eq_div_pow, BitVec.toNat_ofNat]
  omega

theorem responseWord_v (a : Answer) : (responseWord a).getLsbD 8 = a.v := by
  have hdata := a.data.isLt
  rw [BitVec.getLsbD, Nat.testBit_eq_decide_div_mod_eq, responseWord_toNat]
  cases a.v <;> simp <;> omega

@[simp] theorem responseWord_data (a : Answer) : (responseWord a).extractLsb' 0 8 = a.data := by
  have hdata := a.data.isLt
  apply BitVec.eq_of_toNat_eq
  rw [BitVec.extractLsb'_toNat, responseWord_toNat, Nat.shiftRight_eq_div_pow]
  omega

/-! ### The answers of the rules -/

/-- The answers an instruction's rule may give (30_encoding.md R79, R80): a value only with V set, a payload only from GETLC and INSTEP. -/
inductive RuleAnswer (i : Instr) : Answer → Prop where
  | ok : RuleAnswer i answerOk
  | no : RuleAnswer i answerNo
  | ignored : RuleAnswer i answerIgnored
  | value (d : Byte) : RuleAnswer i (answerValue d)
  | pending (d : Byte) : RuleAnswer i (answerPending d)
  | payload (d : Byte) (p : List Byte) (hi : i = .getlc ∨ ∃ ready, i = .instep ready) : RuleAnswer i (answerPayload d p)

/-- Every rule gives one of these answers. -/
theorem rule_answer (i : Instr) (k : Block) : RuleAnswer i (rule i k).2 := by
  cases i with
  | nop | tick | ringrst | eorst => exact .ok
  | rxocc | txocc | csrrd => exact .value _
  | ctluns => exact .ignored
  | rxpush | txpush =>
    simp only [rule, ruleRxpush, ruleTxpush]
    split_ifs <;> constructor
  | rxpop | txpop =>
    simp only [rule, ruleRxpop, ruleTxpop]
    split_ifs <;> constructor
  | outstep =>
    simp only [rule, ruleOutstep]
    split_ifs <;> constructor
  | instep ready =>
    simp only [rule, ruleInstep]
    split_ifs
    · exact .no
    · exact .payload _ _ (.inr ⟨ready, rfl⟩)
    · exact .no
  | getlc =>
    simp only [rule, ruleGetlc]
    split_ifs
    · exact .ignored
    · exact .payload _ _ (.inl rfl)
  | vbusoff | vbuson | suspend | wake | addressed | setcfg =>
    simp only [rule, ruleVbusoff, ruleVbuson, ruleSuspend, ruleWake, ruleAddressed, ruleSetcfg]
    split_ifs <;> constructor
  | setlc | setcls | sendbrk =>
    simp only [rule, ruleSetlc, ruleSetcls, ruleSendbrk]
    split_ifs <;> constructor

/-- The codes of the statuses that do not announce a fault (30_encoding.md R80). -/
theorem statusCode_mem_of_ne_fault {status : Status} (h : status ≠ .fault) :
    statusCode status ∈ ([0x0, 0x1, 0x2, 0x3] : List (BitVec 4)) := by
  cases status with
  | ok | no | pending | ignored => decide
  | fault => exact absurd rfl h

theorem RuleAnswer.status_ne_fault {i : Instr} {a : Answer} (h : RuleAnswer i a) : a.status ≠ .fault := by
  cases h <;> exact nofun

/-- Without a value the data is 0. -/
theorem RuleAnswer.data_eq_zero {i : Instr} {a : Answer} (h : RuleAnswer i a) (hv : a.v = false) : a.data = 0 := by
  cases h with
  | ok | no | ignored => rfl
  | value | pending | payload => cases hv

/-- Only GETLC and INSTEP answer with a payload. -/
theorem RuleAnswer.payload_only {i : Instr} {a : Answer} (h : RuleAnswer i a) (hp : a.payload ≠ []) :
    i = .getlc ∨ ∃ ready, i = .instep ready := by
  cases h with
  | payload d p hi => exact hi
  | ok | no | ignored | value | pending => exact absurd rfl hp

/-- The status field of an answer that a rule gives. -/
theorem RuleAnswer.word_status_mem {i : Instr} {a : Answer} (h : RuleAnswer i a) :
    (responseWord a).extractLsb' 12 4 ∈ ([0x0, 0x1, 0x2, 0x3] : List (BitVec 4)) := by
  rw [responseWord_status]
  exact statusCode_mem_of_ne_fault h.status_ne_fault

/-- The fields V and DATA of an answer that a rule gives. -/
theorem RuleAnswer.word_data_eq_zero {i : Instr} {a : Answer} (h : RuleAnswer i a)
    (hv : (responseWord a).getLsbD 8 = false) : (responseWord a).extractLsb' 0 8 = 0 := by
  rw [responseWord_v] at hv
  rw [responseWord_data, h.data_eq_zero hv]

/-! ### The parameters -/

@[simp] theorem gateUpdate_cfg (k : Block) : (gateUpdate k).cfg = k.cfg := by
  obtain ⟨-, -, h⟩ | ⟨-, -, h⟩ | ⟨-, h⟩ := gateUpdate_cases k <;> rw [h]
  rfl

@[simp] theorem recordFault_cfg (e : FaultCode) (w : Word) (k : Block) : (recordFault e w k).cfg = k.cfg := by
  unfold recordFault
  split <;> rfl

@[simp] theorem flushTick_cfg (k : Block) : (flushTick k).cfg = k.cfg := by
  unfold flushTick
  split_ifs <;> rfl

/-- No rule writes the parameters (00_scope.md R10). -/
@[simp] theorem rule_cfg (i : Instr) (k : Block) : (rule i k).1.cfg = k.cfg := by
  cases i with
  | nop | rxocc | txocc | csrrd | ctluns | eorst => rfl
  | tick => exact flushTick_cfg k
  | rxpush | rxpop | txpush | txpop | ringrst | instep | outstep =>
    simp only [rule, ruleRxpush, ruleRxpop, ruleTxpush, ruleTxpop, ruleRingrst, ruleInstep, ruleOutstep]
    split_ifs <;> rfl
  | vbusoff | vbuson | suspend | wake | addressed | setcfg =>
    simp only [rule, ruleVbusoff, ruleVbuson, ruleSuspend, ruleWake, ruleAddressed, ruleSetcfg]
    split_ifs <;> rfl
  | getlc | setlc | setcls | sendbrk =>
    simp only [rule, ruleGetlc, ruleSetlc, ruleSetcls, ruleSendbrk]
    split_ifs <;> rfl

/-! ### One answer per command -/

/-- A command that is executed was decoded from the word that names its port. -/
theorem port_code_of_decodeFor {cfg : Config} {c : Command} {i : Instr} (h : decodeFor cfg c = .ok i) :
    i.port.code = portField c.word := by
  obtain ⟨e, -, herr⟩ | ⟨j, -, -, herr⟩ | ⟨j, hdec, -, hok⟩ := decodeFor_cases cfg c
  · rw [h] at herr; cases herr
  · rw [h] at herr; cases herr
  · rw [h] at hok; cases hok; exact port_code_of_decode hdec

/-- Settles O11: an executed command answers with its rule's answer, a faulting one with the answer of its fault; in both the word's fields
are the answer's and the port is the one in the command's word. -/
theorem everyCommandAnswersOnce : Obligations.EveryCommandAnswersOnce := by
  constructor
  · intro i s
    have ha := rule_answer i s.block
    exact ⟨_, _, exec_eq i s, rfl, rfl, by simp, (portField_encode i).symm, responseWord_reserved _, ha.word_status_mem,
      ha.word_data_eq_zero, ha.payload_only⟩
  · intro s c rest hcfg hin
    cases hdec : decodeFor s.block.cfg c with
    | error e =>
      refine ⟨_, _, step_of_decodeFor_error hcfg hin hdec, rfl, rfl, by simp [takeFault_eq], rfl, responseWord_reserved _, ?_, ?_⟩
      · simp [answerFault, statusCode]
      · rw [responseWord_v]
        exact nofun
    | ok i =>
      have ha := rule_answer i s.block
      exact ⟨_, _, (step_of_decodeFor_ok hcfg hin hdec).trans (exec_eq i _), rfl, rfl, by simp, port_code_of_decodeFor hdec,
        responseWord_reserved _, List.mem_append_left [0xF] ha.word_status_mem, ha.word_data_eq_zero⟩

end Sys2Proof.Machine
end

section
/-!
PROOFS. Cursors and occupancy as arithmetic modulo the ring size (41_ring.md R101, 00_scope.md R13).
-/
namespace Sys2Proof.Machine

/-- The cursor at `MASK` wraps to 0. -/
theorem advance_maskOf_one {n : Nat} (h : isRingSize n = true) : advance (maskOf n) (maskOf n) 1 = 0 := by
  have hpos := ringSize_pos h
  have hsucc : n - 1 + (1 : Byte).toNat = n := Nat.sub_add_cancel (by omega)
  apply BitVec.eq_of_toNat_eq
  rw [advance_toNat h, maskOf_toNat h, hsucc]
  exact Nat.mod_self n

/-- The occupancy as a difference of integers: the 256 that keeps the subtraction of bytes from going below 0 is a multiple of the ring
size. -/
theorem occ_toInt {n : Nat} (h : isRingSize n = true) (q : Ring) :
    ((occ (maskOf n) q).toNat : Int) = ((q.w.toNat : Int) - (q.r.toNat : Int)) % (n : Int) := by
  obtain ⟨m, hm⟩ := ringSize_dvd h
  have hr := q.r.isLt
  have hsum : ((q.w.toNat + (256 - q.r.toNat) : Nat) : Int) = (q.w.toNat - q.r.toNat : Int) + (n : Int) * (m : Int) := by
    rw [← Nat.cast_mul, ← hm]
    omega
  rw [occ_toNat h, Int.natCast_emod, hsum, Int.add_mul_emod_self_left]

/-- The occupancy is at most `MASK`. -/
theorem occ_le {n : Nat} (h : isRingSize n = true) (q : Ring) : (occ (maskOf n) q).toNat ≤ n - 1 :=
  Nat.le_sub_one_of_lt (occ_lt h q)

/-- Settles O19: a power of two from 2 to 256 is a ring size of the model, and masking there is the remainder modulo the size. -/
theorem cursorArithmetic : Obligations.CursorArithmetic := by
  intro n q hpow
  have h := isRingSize_iff_two_pow.2 hpow
  exact ⟨advance_toNat h, advance_maskOf_one h, occ_toInt h q, occ_le h q, free_toNat h q, decide_eq_true_iff, isFull_iff h⟩

end Sys2Proof.Machine
end

section
/-!
PROOFS. The commands of the ring engine (41_ring.md R93 to R99, R103): what each rule does in each of its cases, and from it the complete
next state and response.
-/
namespace Sys2Proof.Machine

/-! ### How a command completes whose rule keeps mode and GATE in step -/

/-- Where the block that the rule leaves has its mode in step with GATE, the command completes with that block and the rule's answer. -/
theorem completesWith_of_rule {i : Instr} {s : State} {k : Block} {a : Answer} (hrule : rule i s.block = (k, a))
    (hsync : GateInSync k) : CompletesWith i s k i.port.code (responseWord a) a.payload := by
  rw [CompletesWith, exec_eq, hrule, gateUpdate_of_sync hsync]

theorem completesWith_ok {i : Instr} {s : State} {k : Block} (hrule : rule i s.block = (k, answerOk))
    (hsync : GateInSync k) : CompletesWith i s k i.port.code 0x0000 [] :=
  completesWith_of_rule hrule hsync

theorem completesWith_no {i : Instr} {s : State} {k : Block} (hrule : rule i s.block = (k, answerNo))
    (hsync : GateInSync k) : CompletesWith i s k i.port.code 0x1000 [] :=
  completesWith_of_rule hrule hsync

theorem completesWith_value {i : Instr} {s : State} {k : Block} {v : Byte} (hrule : rule i s.block = (k, answerValue v))
    (hsync : GateInSync k) : CompletesWith i s k i.port.code (0x0100 + v.setWidth 16) [] :=
  responseWord_value v ▸ completesWith_of_rule hrule hsync

/-- The exceptions of an operation that one port owns and that carries no payload. -/
theorem commandFaults_of_no_payload {op : BitVec 5} {port : BitVec 3} {resv : Byte} {owner : Port} {row : OpRow}
    (hport : Port.ofCode port = some owner) (hrow : opRow op = some row) (howner : row.owner = some owner)
    (hresv : row.resv = resv) (hlen : row.plen = .fixed 0) : CommandFaults op port resv (fun _ => 0) := by
  subst hresv
  exact commandFaults_of_row hport hrow howner fun _ => by rw [hlen, requiredLen]

/-! ### RXPUSH -/

theorem ruleRxpush_of_wait {k : Block} (hwait : k.bridge = false) (b : Byte) : ruleRxpush b k = (k, answerNo) :=
  if_pos hwait

theorem ruleRxpush_of_full {k : Block} (hbridge : k.bridge = true) (hfull : occ (maskRx k) k.rx = maskRx k) (b : Byte) :
    ruleRxpush b k = ({ k with rxOvr := true }, answerNo) := by
  simp [ruleRxpush, isFull, hbridge, hfull]

theorem ruleRxpush_of_room {k : Block} (hbridge : k.bridge = true) (hroom : occ (maskRx k) k.rx ≠ maskRx k) (b : Byte) :
    ruleRxpush b k = ({ k with rx := pushByte (maskRx k) b k.rx }, answerOk) := by
  simp [ruleRxpush, isFull, hbridge, hroom]

/-- Settles O21: the three cases of the rule, none of which touches GATE or the mode. -/
theorem rxpushStoresOrRefuses : Obligations.RxpushStoresOrRefuses := by
  intro b s hsync
  refine ⟨fun hwait => ?_, fun hbridge hfull => ?_, fun hbridge hroom => ?_, congrArg (Command.mk · []) (or_eq_add 0x0100 b (by decide)),
    commandFaults_of_no_payload rfl rfl rfl rfl rfl⟩
  · exact completesWith_no (ruleRxpush_of_wait hwait b) hsync
  · exact completesWith_no (ruleRxpush_of_full hbridge hfull b) hsync
  · exact completesWith_ok (ruleRxpush_of_room hbridge hroom b) hsync

/-! ### RXPOP and TXPOP -/

theorem ruleRxpop_of_empty {k : Block} (hempty : k.rx.w = k.rx.r) : ruleRxpop k = (k, answerNo) :=
  if_pos (decide_eq_true hempty)

theorem ruleRxpop_of_nonempty {k : Block} (hne : k.rx.w ≠ k.rx.r) :
    ruleRxpop k = (armRx { k with rx := dropBytes (maskRx k) 1 k.rx }, answerValue (headByte k.rx)) := by
  simp [ruleRxpop, isEmpty, hne]

theorem ruleTxpop_of_empty {k : Block} (hempty : k.tx.w = k.tx.r) : ruleTxpop k = (k, answerNo) :=
  if_pos (decide_eq_true hempty)

theorem ruleTxpop_of_nonempty {k : Block} (hne : k.tx.w ≠ k.tx.r) :
    ruleTxpop k = ({ k with tx := dropBytes (maskTx k) 1 k.tx }, answerValue (headByte k.tx)) := by
  simp [ruleTxpop, isEmpty, hne]

/-- Settles O22: both rules, on an empty ring and on one with bytes. -/
theorem popsTakeTheOldestByte : Obligations.PopsTakeTheOldestByte := by
  refine ⟨fun s hsync => ⟨fun hempty => ?_, fun hne => ?_, rfl, commandFaults_of_no_payload rfl rfl rfl rfl rfl⟩,
    fun s hsync => ⟨fun hempty => ?_, fun hne => ?_, rfl, commandFaults_of_no_payload rfl rfl rfl rfl rfl⟩⟩
  · exact completesWith_no (ruleRxpop_of_empty hempty) hsync
  · exact completesWith_value (ruleRxpop_of_nonempty hne) hsync
  · exact completesWith_no (ruleTxpop_of_empty hempty) hsync
  · exact completesWith_value (ruleTxpop_of_nonempty hne) hsync

/-! ### RXOCC and TXOCC -/

/-- Settles O23: both rules leave the block as it is and answer the occupancy as a value. -/
theorem occupancyQueries : Obligations.OccupancyQueries := by
  intro s hsync
  have hrx : CompletesWith .rxocc s s.block 2 (0x0100 + (occ (maskRx s.block) s.block.rx).setWidth 16) [] :=
    completesWith_value rfl hsync
  have htx : CompletesWith .txocc s s.block 2 (0x0100 + (occ (maskTx s.block) s.block.tx).setWidth 16) [] :=
    completesWith_value rfl hsync
  exact ⟨hrx, htx, rfl, rfl, commandFaults_of_no_payload rfl rfl rfl rfl rfl, commandFaults_of_no_payload rfl rfl rfl rfl rfl⟩

/-! ### TXPUSH -/

theorem ruleTxpush_of_wait_or_full {k : Block} (h : k.bridge = false ∨ occ (maskTx k) k.tx = maskTx k) (b : Byte) :
    ruleTxpush b k = (k, answerNo) :=
  if_pos (h.imp_right decide_eq_true)

theorem ruleTxpush_of_room {k : Block} (hbridge : k.bridge = true) (hroom : occ (maskTx k) k.tx ≠ maskTx k) (b : Byte) :
    ruleTxpush b k = (armTx { k with tx := pushByte (maskTx k) b k.tx }, answerOk) := by
  simp [ruleTxpush, isFull, hbridge, hroom]

/-- Settles O24: the two cases of the rule, neither of which touches GATE or the mode. -/
theorem txpushStoresOrRefuses : Obligations.TxpushStoresOrRefuses := by
  intro b s hsync
  refine ⟨fun hrefused => ?_, fun hbridge hroom => ?_, congrArg (Command.mk · []) (or_eq_add 0x4400 b (by decide)),
    commandFaults_of_no_payload rfl rfl rfl rfl rfl⟩
  · exact completesWith_no (ruleTxpush_of_wait_or_full hrefused b) hsync
  · exact completesWith_ok (ruleTxpush_of_room hbridge hroom b) hsync

/-! ### RINGRST -/

/-- Each bit of the mask resets its own ring. -/
theorem ruleRingrst_eq (m : BitVec 2) (k : Block) :
    ruleRingrst m k = ({ k with rx := if m.getLsbD 0 = true then ringReset k.rx else k.rx
                                tx := if m.getLsbD 1 = true then ringReset k.tx else k.tx }, answerOk) := by
  unfold ruleRingrst
  split_ifs <;> rfl

/-- Settles O25: the rule for every mask; clearing cursors touches neither GATE nor the mode. -/
theorem ringrstClearsSelectedCursors : Obligations.RingrstClearsSelectedCursors := by
  intro m s hsync
  refine ⟨completesWith_ok (ruleRingrst_eq m s.block) hsync, ?_, commandFaults_of_no_payload rfl rfl rfl rfl rfl⟩
  revert m
  decide

end Sys2Proof.Machine
end

section
/-!
PROOFS. The commands that drive the device-connection state machine (42_usb_state.md R106 to R114): what each rule does in each of its
cases, and what `gate_update` makes of the block it leaves.
-/
namespace Sys2Proof.Machine

/-! ### GATE and the mode around a change of device state -/

theorem gate_eq_decide (k : Block) : gate k = decide (k.state = .configured ∧ k.lcBaud ≠ 0) :=
  (Bool.decide_and _ _).symm

/-- GATE holds in Configured only (10_state.md R43). -/
theorem gate_of_state_ne {k : Block} (hstate : k.state ≠ .configured) : gate k = false := by
  simp [gate, hstate]

/-- A block in step with GATE is in WAIT outside Configured. -/
theorem GateInSync.wait_of_state_ne {k : Block} (hsync : GateInSync k) (hstate : k.state ≠ .configured) : k.bridge = false :=
  hsync.trans (gate_of_state_ne hstate)

/-- A block outside Configured that moves to another state outside Configured stays in step with GATE. -/
theorem GateInSync.with_state {k : Block} (hsync : GateInSync k) (hold : k.state ≠ .configured) {d : DevState}
    (hnew : d ≠ .configured) : GateInSync { k with state := d } :=
  (hsync.wait_of_state_ne hold).trans (gate_of_state_ne (k := { k with state := d }) hnew).symm

/-- From WAIT, `gate_update` sets the mode to GATE and writes nothing else. -/
theorem gateUpdate_of_wait {k : Block} (hwait : k.bridge = false) : gateUpdate k = { k with bridge := gate k } := by
  obtain ⟨hbridge, -⟩ | ⟨-, hgate, heq⟩ | ⟨hsync, heq⟩ := gateUpdate_cases k
  · exact absurd hbridge (by simp [hwait])
  · rw [heq, hgate]
  · rw [heq, ← hsync]

/-- Where GATE does not hold, `gate_update` leaves BRIDGE if the block was in it. -/
theorem gateUpdate_of_gate_off {k : Block} (hgate : gate k = false) : gateUpdate k = leftBridge k := by
  rw [gateUpdate_eq, if_neg (by simp [hgate])]

/-- `leftBridge` element by element: in WAIT each of them stays as it is. -/
theorem leftBridge_eq (k : Block) : leftBridge k =
    { k with
      rx := if k.bridge = true then ringReset k.rx else k.rx
      tx := if k.bridge = true then ringReset k.tx else k.tx
      pulseRx := if k.bridge = true then 0 else k.pulseRx
      pulseTx := if k.bridge = true then 0 else k.pulseTx
      flushCnt := if k.bridge = true then 0 else k.flushCnt
      flushPend := if k.bridge = true then false else k.flushPend
      bridge := false } := by
  unfold leftBridge
  split_ifs with hbridge
  · rfl
  · rw [← Bool.eq_false_of_not_eq_true hbridge]

/-! ### How these commands complete -/

/-- A command completes with what `gate_update` makes of the block its rule leaves. -/
theorem completesWith_of_gateUpdate {i : Instr} {s : State} {k k' : Block} {a : Answer} (hrule : rule i s.block = (k, a))
    (hend : gateUpdate k = k') : CompletesWith i s k' i.port.code (responseWord a) a.payload := by
  rw [CompletesWith, exec_eq, hrule, hend]

/-- A command that takes the block out of Configured, or finds it outside, leaves BRIDGE if the block was in it. -/
theorem completesWith_ok_leftBridge {i : Instr} {s : State} {k : Block} (hrule : rule i s.block = (k, answerOk))
    (hstate : k.state ≠ .configured) : CompletesWith i s (leftBridge k) i.port.code 0x0000 [] :=
  completesWith_of_gateUpdate hrule (gateUpdate_of_gate_off (gate_of_state_ne hstate))

/-- A command that runs in WAIT enters BRIDGE exactly where GATE then holds. -/
theorem completesWith_ok_of_wait {i : Instr} {s : State} {k : Block} (hrule : rule i s.block = (k, answerOk))
    (hwait : k.bridge = false) : CompletesWith i s { k with bridge := gate k } i.port.code 0x0000 [] :=
  completesWith_of_gateUpdate hrule (gateUpdate_of_wait hwait)

/-- An ignored command changes nothing. -/
theorem completesWith_ignored {i : Instr} {s : State} (hrule : rule i s.block = (s.block, answerIgnored))
    (hsync : GateInSync s.block) : CompletesWith i s s.block i.port.code 0x3000 [] :=
  completesWith_of_rule hrule hsync

/-! ### VBUSON and ADDRESSED -/

theorem ruleVbuson_of_unattached {k : Block} (hstate : k.state = .unattached) :
    ruleVbuson k = ({ k with state := .powered }, answerOk) :=
  if_pos hstate

theorem ruleVbuson_of_attached {k : Block} (hstate : k.state ≠ .unattached) : ruleVbuson k = (k, answerIgnored) :=
  if_neg hstate

theorem ruleAddressed_of_default {k : Block} (hstate : k.state = .default) :
    ruleAddressed k = ({ k with state := .addressed }, answerOk) :=
  if_pos hstate

theorem ruleAddressed_of_not_default {k : Block} (hstate : k.state ≠ .default) : ruleAddressed k = (k, answerIgnored) :=
  if_neg hstate

/-- Settles O30: neither command starts or ends in Configured, so GATE stays off and the mode stays WAIT. -/
theorem vbusonAndAddressed : Obligations.VbusonAndAddressed := by
  refine ⟨fun s hsync => ⟨fun hstate => ?_, fun hstate => ?_, rfl, commandFaults_of_no_payload rfl rfl rfl rfl rfl⟩,
    fun s hsync => ⟨fun hstate => ?_, fun hstate => ?_, rfl, commandFaults_of_no_payload rfl rfl rfl rfl rfl⟩⟩
  · exact completesWith_ok (ruleVbuson_of_unattached hstate) (hsync.with_state (by simp [hstate]) nofun)
  · exact completesWith_ignored (ruleVbuson_of_attached hstate) hsync
  · exact completesWith_ok (ruleAddressed_of_default hstate) (hsync.with_state (by simp [hstate]) nofun)
  · exact completesWith_ignored (ruleAddressed_of_not_default hstate) hsync

/-! ### VBUSOFF -/

theorem ruleVbusoff_of_unattached {k : Block} (hstate : k.state = .unattached) : ruleVbusoff k = (k, answerIgnored) :=
  if_pos hstate

theorem ruleVbusoff_of_attached {k : Block} (hstate : k.state ≠ .unattached) :
    ruleVbusoff k =
      ({ k with state := .unattached, prev := .unattached, config := 0, ienSusp := true, ienWake := false, cls := 0,
                rx := ringReset k.rx, tx := ringReset k.tx }, answerOk) :=
  if_neg hstate

/-- Settles O31: the rule resets both rings itself, so of the exit actions only the pulses and the flush timer depend on the mode. -/
theorem vbusoffDetaches : Obligations.VbusoffDetaches := by
  intro s hsync
  refine ⟨fun hstate => ?_, fun hstate => ?_, rfl, commandFaults_of_no_payload rfl rfl rfl rfl rfl⟩
  · exact completesWith_ignored (ruleVbusoff_of_unattached hstate) hsync
  · have hdone : CompletesWith .vbusoff s (leftBridge _) 3 0x0000 [] :=
      completesWith_ok_leftBridge (ruleVbusoff_of_attached hstate) nofun
    simpa only [leftBridge_eq, ringReset, ite_self] using hdone

/-! ### SUSPEND -/

theorem isPowered_iff {d : DevState} : isPowered d = true ↔ d ∈ [.powered, .default, .addressed, .configured] :=
  decide_eq_true_iff

theorem ruleSuspend_of_enabled {k : Block} (hien : k.ienSusp = true) (hpowered : isPowered k.state = true) :
    ruleSuspend k = ({ k with state := .suspended, prev := k.state, ienSusp := false, ienWake := true }, answerOk) :=
  if_pos ⟨hien, hpowered⟩

theorem ruleSuspend_of_disabled {k : Block} (h : k.ienSusp = false ∨ isPowered k.state ≠ true) :
    ruleSuspend k = (k, answerIgnored) :=
  if_neg fun ⟨hien, hpowered⟩ => h.elim (by simp [hien]) (absurd hpowered)

/-- Settles O32: GATE is off in Suspended, so the command leaves BRIDGE if the block was in it. -/
theorem suspendSavesTheState : Obligations.SuspendSavesTheState := by
  intro s hsync
  refine ⟨fun hien hpowered => ?_, fun hoff => ?_, rfl, commandFaults_of_no_payload rfl rfl rfl rfl rfl⟩
  · exact completesWith_ok_leftBridge (ruleSuspend_of_enabled hien (isPowered_iff.2 hpowered)) nofun
  · exact completesWith_ignored (ruleSuspend_of_disabled (hoff.imp_right (mt isPowered_iff.1))) hsync

/-! ### WAKE -/

theorem ruleWake_of_suspended {k : Block} (hien : k.ienWake = true) (hstate : k.state = .suspended) :
    ruleWake k =
      ({ k with state := wakeTarget k.prev, prev := .unattached, ienSusp := true, ienWake := false }, answerOk) :=
  if_pos ⟨hien, hstate⟩

theorem ruleWake_of_disabled {k : Block} (h : k.ienWake = false ∨ k.state ≠ .suspended) :
    ruleWake k = (k, answerIgnored) :=
  if_neg fun ⟨hien, hstate⟩ => h.elim (by simp [hien]) (absurd hstate)

/-- The wake targets that 42_usb_state.md R105 states. -/
theorem wakeTarget_of_stated {saved target : DevState}
    (h : saved = .powered ∧ target = .powered ∨ saved = .default ∧ target = .powered
      ∨ saved = .addressed ∧ target = .addressed ∨ saved = .configured ∧ target = .configured) :
    wakeTarget saved = target := by
  obtain ⟨rfl, rfl⟩ | ⟨rfl, rfl⟩ | ⟨rfl, rfl⟩ | ⟨rfl, rfl⟩ := h <;> rfl

/-- WAKE where it acts, whatever state was saved: a suspended block is in WAIT, so the mode becomes GATE in the target. -/
theorem completesWith_wake {s : State} (hsync : GateInSync s.block) (hien : s.block.ienWake = true)
    (hstate : s.block.state = .suspended) :
    CompletesWith .wake s
      { s.block with
        state := wakeTarget s.block.prev
        prev := .unattached
        ienSusp := true
        ienWake := false
        bridge := decide (wakeTarget s.block.prev = .configured ∧ s.block.lcBaud ≠ 0) } 3 0x0000 [] := by
  have hwait : s.block.bridge = false := hsync.wait_of_state_ne (by simp [hstate])
  have hdone := completesWith_ok_of_wait (i := .wake) (ruleWake_of_suspended hien hstate) hwait
  rwa [gate_eq_decide] at hdone

/-- Settles O33: the wake of any saved state, with the target the spec states for this one. -/
theorem wakeRestoresTheState : Obligations.WakeRestoresTheState := by
  intro s hsync
  refine ⟨fun target hien hstate htarget => ?_, fun hoff => ?_, rfl, commandFaults_of_no_payload rfl rfl rfl rfl rfl⟩
  · exact wakeTarget_of_stated htarget ▸ completesWith_wake hsync hien hstate
  · exact completesWith_ignored (ruleWake_of_disabled hoff) hsync

/-! ### EORST -/

theorem ruleEorst_eq (k : Block) :
    ruleEorst k =
      ({ k with state := .default, prev := .unattached, config := 0, ienSusp := true, ienWake := false, cls := 0,
                trace := k.trace ++ [.epReinit] }, answerOk) := rfl

/-- Settles O35: GATE is off in Default, so the command leaves BRIDGE if the block was in it. -/
theorem eorstYieldsDefault : Obligations.EorstYieldsDefault := by
  intro s _
  exact ⟨completesWith_ok_leftBridge (ruleEorst_eq s.block) nofun, rfl,
    commandFaults_of_no_payload rfl rfl rfl rfl rfl⟩

end Sys2Proof.Machine
end

section
/-!
PROOFS. The commands of the control port (43_cdc_control.md): where they are ignored (R122), and what SETCLS, SENDBRK and CTLUNS do
elsewhere (R129 to R131).
-/
namespace Sys2Proof.Machine

/-! ### Where control requests are accepted -/

theorem acceptsControl_iff {d : DevState} : acceptsControl d = true ↔ d ∈ [.default, .addressed, .configured] :=
  decide_eq_true_iff

theorem acceptsControl_eq_false_iff {d : DevState} :
    acceptsControl d = false ↔ d ∉ [.default, .addressed, .configured] :=
  decide_eq_false_iff_not

theorem port_of_isControlCommand {i : Instr} (hi : isControlCommand i = true) : i.port = .ctl := by
  cases i with
  | getlc | setlc | setcls | sendbrk | ctluns => rfl
  | _ => cases hi

/-- Every control command's rule tests the device state before anything else. -/
theorem rule_control_of_not_accepted {i : Instr} {k : Block} (hi : isControlCommand i = true)
    (hstate : acceptsControl k.state = false) : rule i k = (k, answerIgnored) := by
  cases i with
  | getlc | setlc | setcls | sendbrk => exact if_pos hstate
  | ctluns => rfl
  | _ => cases hi

/-- A control command outside the accepting states is ignored. -/
theorem completesWith_control_of_not_accepted {i : Instr} {s : State} (hsync : GateInSync s.block)
    (hi : isControlCommand i = true) (hstate : acceptsControl s.block.state = false) :
    CompletesWith i s s.block 4 0x3000 [] := by
  have hdone := completesWith_ignored (rule_control_of_not_accepted hi hstate) hsync
  rwa [port_of_isControlCommand hi] at hdone

/-- Settles O41: each of the three states is outside the accepting ones, and there every control command is ignored. -/
theorem controlIgnoredOutsideCtlStates : Obligations.ControlIgnoredOutsideCtlStates := by
  intro i s hsync hi hstate
  refine completesWith_control_of_not_accepted hsync hi ?_
  obtain hstate | hstate | hstate := hstate <;> rw [hstate] <;> rfl

/-! ### The exceptions of the control port's operations -/

/-- The exceptions of an operation of the control port, read off its row. -/
theorem commandFaults_of_ctl_row {op : BitVec 5} {resv : Byte} {plen : PayloadLen} {read : Port → Byte → List Byte → Instr}
    (hrow : opRow op = some ⟨some .ctl, resv, plen, read⟩) : CommandFaults op 4 resv (requiredLen plen) :=
  commandFaults_of_row rfl hrow rfl fun _ => rfl

/-! ### SETCLS -/

theorem ruleSetcls_of_accepted {k : Block} (hstate : acceptsControl k.state = true) (v : BitVec 16) :
    ruleSetcls v k = ({ k with cls := v }, answerOk) :=
  if_neg (by simp [hstate])

/-- Settles O44: the control lines are no input of GATE, so storing them leaves the mode in step. -/
theorem setclsStoresTheControlLines : Obligations.SetclsStoresTheControlLines := by
  intro v s hsync
  refine ⟨fun hin => ⟨?_, rfl⟩, fun hout => ?_, rfl, commandFaults_of_ctl_row (plen := .fixed 2) rfl⟩
  · exact completesWith_ok (ruleSetcls_of_accepted (acceptsControl_iff.2 hin) v) hsync
  · exact completesWith_control_of_not_accepted hsync rfl (acceptsControl_eq_false_iff.2 hout)

/-! ### SENDBRK and CTLUNS -/

theorem ruleSendbrk_of_accepted {k : Block} (hstate : acceptsControl k.state = true) (v : BitVec 16) :
    ruleSendbrk v k = (k, answerOk) :=
  if_neg (by simp [hstate])

/-- The operation number of a CTLUNS command is `0x1C + o`, above its byte count (30_encoding.md R75, R88). -/
theorem encode_ctluns {bytes : List Byte} (hcount : bytes.length ≤ 255) (o : BitVec 2) :
    encode (.ctluns o bytes) = ⟨0x9C00 + BitVec.ofNat 16 (256 * o.toNat + bytes.length), bytes⟩ := by
  have hclear : ((0x9C00 : Word) ||| (o.setWidth 16 <<< 8)) &&& 0x00FF = 0 := by revert o; decide
  have hop : (0x9C00 : Word) ||| (o.setWidth 16 <<< 8) = 0x9C00 + BitVec.ofNat 16 (256 * o.toNat) := by revert o; decide
  have hword := calc (0x9C00 : Word) ||| (o.setWidth 16 <<< 8) ||| (countByte bytes).setWidth 16
    _ = ((0x9C00 : Word) ||| (o.setWidth 16 <<< 8)) + (countByte bytes).setWidth 16 := or_eq_add _ _ hclear
    _ = 0x9C00 + BitVec.ofNat 16 (256 * o.toNat) + BitVec.ofNat 16 bytes.length := by
      rw [hop, countByte, ofNat_setWidth (by omega)]
    _ = 0x9C00 + BitVec.ofNat 16 (256 * o.toNat + bytes.length) := by rw [BitVec.add_assoc, ← BitVec.ofNat_add]
  exact congrArg (Command.mk · bytes) hword

/-- Settles O45: both rules leave the block as it is, SENDBRK with OK where control requests are accepted. -/
theorem sendbrkAndCtlunsChangeNothing : Obligations.SendbrkAndCtlunsChangeNothing := by
  refine ⟨fun v s hsync => ⟨fun hin => ?_, fun hout => ?_, rfl, commandFaults_of_ctl_row (plen := .fixed 2) rfl⟩,
    fun o bytes s hsync => ⟨?_, fun hcount => encode_ctluns hcount o, ?_⟩⟩
  · exact completesWith_ok (ruleSendbrk_of_accepted (acceptsControl_iff.2 hin) v) hsync
  · exact completesWith_control_of_not_accepted hsync rfl (acceptsControl_eq_false_iff.2 hout)
  · exact completesWith_ignored rfl hsync
  · have hfaults {op : BitVec 5} {read : Port → Byte → List Byte → Instr}
        (hrow : opRow op = some ⟨some .ctl, 0x00, .count, read⟩) : CommandFaults op 4 0x00 (fun d8 => d8.toNat) :=
      commandFaults_of_ctl_row hrow
    exact ⟨hfaults rfl, hfaults rfl, hfaults rfl, hfaults rfl⟩

end Sys2Proof.Machine
end

section
/-!
PROOFS. The backpressure arbiter (44_arbiter.md): the mode update with its exit actions, INSTEP, OUTSTEP, and the timers that TICK advances.
-/
namespace Sys2Proof.Machine

/-! ### The mode update (R136, R137) -/

theorem gate_eq_true_iff {k : Block} : gate k = true ↔ k.state = .configured ∧ k.lcBaud ≠ 0 := by
  rw [gate_eq_decide, decide_eq_true_iff]

theorem gate_eq_false_iff {k : Block} : gate k = false ↔ ¬(k.state = .configured ∧ k.lcBaud ≠ 0) := by
  rw [gate_eq_decide, decide_eq_false_iff_not]

/-- In BRIDGE without GATE, `gate_update` performs the exit actions and leaves. -/
theorem gateUpdate_of_leaving {k : Block} (hbridge : k.bridge = true) (hgate : gate k = false) :
    gateUpdate k = { exitActions k with bridge := false } :=
  if_pos ⟨hbridge, hgate⟩

/-- No rule writes the mode, so a command that goes from BRIDGE to WAIT does it by the exit actions on what its rule left. -/
theorem exec_leaving_bridge {i : Instr} {s t : State} (h : exec i s = .next t) (hleaves : LeavesBridge s.block t.block) :
    t.block = { exitActions (rule i s.block).1 with bridge := false } := by
  obtain ⟨hbefore, hafter⟩ := hleaves
  obtain ⟨hblock, -, -⟩ := exec_next h
  have hbridge : (rule i s.block).1.bridge = true := (rule_bridge i s.block).trans hbefore
  have hgate : gate (rule i s.block).1 = false := by
    rw [hblock, gateUpdate_eq] at hafter
    split at hafter
    · cases hafter
    · exact Bool.eq_false_of_not_eq_true ‹_›
  rw [hblock, gateUpdate_of_leaving hbridge hgate]

/-- Settles O17: every command ends in `gate_update`, after which mode and GATE agree; the update itself is read case by case. -/
theorem gateUpdateAndExitActions : Obligations.GateUpdateAndExitActions := by
  refine ⟨fun i s t h => ⟨?_, fun hbefore hafter => ?_⟩, fun k => ⟨fun hbridge hoff => ?_, fun hwait hstate hbaud => ?_,
    fun hbridge hstate hbaud => ?_, fun hwait hoff => ?_⟩⟩
  · obtain ⟨hblock, -, -⟩ := exec_next h
    rw [hblock, gateUpdate_of_sync (gateUpdate_inSync _)]
  · rw [exec_leaving_bridge h ⟨hbefore, hafter⟩]
    exact ⟨⟨rfl, rfl, rfl, rfl⟩, rfl, rfl, rfl, rfl⟩
  · exact gateUpdate_of_leaving hbridge (gate_eq_false_iff.2 hoff)
  · rw [gateUpdate_of_wait hwait, gate_eq_true_iff.2 ⟨hstate, hbaud⟩]
  · exact gateUpdate_of_sync (hbridge.trans (gate_eq_true_iff.2 ⟨hstate, hbaud⟩).symm)
  · exact gateUpdate_of_sync (hwait.trans (gate_eq_false_iff.2 hoff).symm)

/-! ### TICK (R145, R148) -/

theorem countDown_eq (p : Byte) : countDown p = if p ≠ 0 then p - 1 else p := by
  by_cases hp : p = 0
  · simp [countDown, hp]
  · rw [countDown, if_neg hp, if_pos hp]

/-- A tick takes one from a countdown and leaves 0 at 0. -/
theorem countDown_toNat (p : Byte) : (countDown p).toNat = p.toNat - 1 := by
  unfold countDown
  split_ifs with hp
  · simp [hp]
  · bv_omega

/-- The whole of a tick: the timer's two elements in BRIDGE only, both countdowns in either mode. -/
theorem ruleTick_eq (k : Block) : ruleTick k =
    ({ k with
       flushCnt := if k.bridge = true then (if k.flushCnt.toNat + 1 = k.cfg.flushTicks then 0 else k.flushCnt + 1) else k.flushCnt
       flushPend := if k.bridge = true ∧ k.flushCnt.toNat + 1 = k.cfg.flushTicks then true else k.flushPend
       pulseRx := countDown k.pulseRx
       pulseTx := countDown k.pulseTx }, answerOk) := by
  cases hbridge : k.bridge with
  | false => simp [ruleTick, flushTick, hbridge]
  | true =>
    by_cases hperiod : k.flushCnt.toNat + 1 = k.cfg.flushTicks <;> simp [ruleTick, flushTick, hbridge, hperiod]

/-- Settles O50: the rule of TICK touches neither GATE nor the mode. -/
theorem tickAdvancesTheTimers : Obligations.TickAdvancesTheTimers := by
  intro s hsync
  refine ⟨?_, rfl, commandFaults_of_no_payload rfl rfl rfl rfl rfl⟩
  simp only [← countDown_eq]
  exact completesWith_ok (ruleTick_eq s.block) hsync

/-- Every sequence of instructions runs to its end. -/
theorem exists_runAll (is : List Instr) (s : State) : ∃ t, runAll is s = some t := by
  induction is generalizing s with
  | nil => exact ⟨s, rfl⟩
  | cons i is ih => simpa only [runAll_next (exec_eq i s)] using ih _

/-- A tick from a block in step with GATE leaves it so, and takes one from each countdown. -/
theorem exec_tick_pulses {s t : State} (h : exec .tick s = .next t) (hsync : GateInSync s.block) :
    GateInSync t.block ∧ t.block.pulseRx.toNat = s.block.pulseRx.toNat - 1
      ∧ t.block.pulseTx.toNat = s.block.pulseTx.toNat - 1 := by
  obtain ⟨hblock, -, -⟩ := exec_next h
  rw [gateUpdate_data hsync rfl, rule, ruleTick_eq] at hblock
  rw [hblock]
  exact ⟨hsync, countDown_toNat _, countDown_toNat _⟩

/-- `j` ticks take `j` from each countdown, stopping at 0. -/
theorem runAll_ticks_pulses (j : Nat) {s t : State} (h : runAll (List.replicate j .tick) s = some t)
    (hsync : GateInSync s.block) :
    t.block.pulseRx.toNat = s.block.pulseRx.toNat - j ∧ t.block.pulseTx.toNat = s.block.pulseTx.toNat - j := by
  induction j generalizing s with
  | zero => cases h; exact ⟨rfl, rfl⟩
  | succ j ih =>
    obtain ⟨u, hfirst, hrest⟩ := runAll_cons h
    obtain ⟨hsync', hrx, htx⟩ := exec_tick_pulses hfirst hsync
    obtain ⟨hrx', htx'⟩ := ih hrest hsync'
    omega

/-- An indicator is active exactly while its countdown is above 0 (R148). -/
theorem pulse_active_iff {p : Byte} : decide (p ≠ 0) = true ↔ 0 < p.toNat := by
  rw [decide_eq_true_iff]
  bv_omega

/-- Settles O51: the countdowns after `j` ticks by induction on `j`, and the indicators from them. -/
theorem pulsesCountDownInEveryMode : Obligations.PulsesCountDownInEveryMode := by
  intro s j
  obtain ⟨t, hrun⟩ := exists_runAll (List.replicate j .tick) s
  refine ⟨t, hrun, fun hsync => ?_⟩
  obtain ⟨hrx, htx⟩ := runAll_ticks_pulses j hrun hsync
  exact ⟨hrx, htx, pulse_active_iff.trans (by omega), pulse_active_iff.trans (by omega)⟩

/-! ### INSTEP (R139 to R141) -/

theorem drainDue_iff {k : Block} {n : Nat} :
    drainDue k n = true ↔ n ≥ k.cfg.thresh ∨ k.flushPend = true ∧ n > 0 := by
  simp [drainDue]

theorem ruleInstep_of_due {k : Block} (hbridge : k.bridge = true) (hdue : drainDue k (occ (maskRx k) k.rx).toNat = true) :
    ruleInstep true k =
      (armRx { k with rx := dropBytes (maskRx k) (BitVec.ofNat 8 (drainCount k)) k.rx, flushPend := false },
        answerPayload (BitVec.ofNat 8 (drainCount k)) (oldestBytes (maskRx k) (drainCount k) k.rx)) := by
  simp [ruleInstep, hbridge, hdue]

theorem ruleInstep_of_not_due {r : Bool} {k : Block}
    (h : k.bridge = false ∨ r = false ∨ drainDue k (occ (maskRx k) k.rx).toNat ≠ true) : ruleInstep r k = (k, answerNo) := by
  obtain hwait | hbusy | hnotDue := h
  · simp [ruleInstep, hwait]
  · simp [ruleInstep, hbusy]
  · simp [ruleInstep, hnotDue]

/-- A drain moves no more bytes than a response can count. -/
theorem drainCount_lt (k : Block) : drainCount k < 256 :=
  (min_le_left _ _).trans_lt (occ (maskRx k) k.rx).isLt

/-- A byte count as the data of an OK response. -/
theorem responseWord_payload_count {n : Nat} (hn : n < 256) (payload : List Byte) :
    responseWord (answerPayload (BitVec.ofNat 8 n) payload) = 0x0100 + BitVec.ofNat 16 n := by
  rw [← ofNat_setWidth hn]
  exact responseWord_value _

/-- Settles O48: the due drain and the two ways to answer NO, none of which touches GATE or the mode. -/
theorem instepDrainsWhenDue : Obligations.InstepDrainsWhenDue := by
  intro r s hsync n k
  refine ⟨fun hbridge hready hdue => ?_, fun hnot => ?_, by cases r <;> rfl, commandFaults_of_no_payload rfl rfl rfl rfl rfl⟩
  · subst hready
    have hcount : k < 256 := drainCount_lt s.block
    rw [← responseWord_payload_count hcount (oldestBytes (maskRx s.block) k s.block.rx)]
    exact completesWith_of_rule (ruleInstep_of_due hbridge (drainDue_iff.2 hdue)) hsync
  · exact completesWith_no (ruleInstep_of_not_due (hnot.imp_right (Or.imp_right (mt drainDue_iff.1)))) hsync

/-! ### OUTSTEP (R142 to R144) -/

/-- Free space as a difference of numbers, for any mask: a masked difference is at most the mask. -/
theorem free_toNat_sub (mask : Byte) (q : Ring) : (free mask q).toNat = mask.toNat - (occ mask q).toNat := by
  have hle : occ mask q ≤ mask := by
    rw [BitVec.le_def, occ, BitVec.toNat_and]
    exact Nat.and_le_right
  exact BitVec.toNat_sub_of_le hle

theorem ruleOutstep_of_wait {k : Block} (hwait : k.bridge = false) (bytes : List Byte) :
    ruleOutstep bytes k = (k, answerNo) :=
  if_pos hwait

theorem ruleOutstep_of_room {k : Block} {bytes : List Byte} (hbridge : k.bridge = true)
    (hroom : bytes.length ≤ (free (maskTx k) k.tx).toNat) :
    ruleOutstep bytes k =
      ({ k with tx := pushBytes (maskTx k) bytes k.tx
                pulseTx := if bytes.length > 0 then pulseLoad k else k.pulseTx },
        answerValue (BitVec.ofNat 8 bytes.length)) := by
  rw [ruleOutstep, if_neg (by simp [hbridge]), if_pos hroom]
  cases bytes <;> rfl

theorem ruleOutstep_of_no_room {k : Block} {bytes : List Byte} (hbridge : k.bridge = true)
    (hroom : (free (maskTx k) k.tx).toNat < bytes.length) :
    ruleOutstep bytes k = (k, answerPending (free (maskTx k) k.tx)) := by
  simp [ruleOutstep, hbridge, hroom]

/-- A byte count that fits the field `D8` stands below the operation number of its word (30_encoding.md R76, R88). -/
theorem encode_outstep {bytes : List Byte} (hcount : bytes.length ≤ 255) :
    encode (.outstep bytes) = ⟨0x4900 + BitVec.ofNat 16 bytes.length, bytes⟩ := by
  rw [← ofNat_setWidth (by omega)]
  exact congrArg (Command.mk · bytes) (or_eq_add 0x4900 (countByte bytes) (by decide))

theorem commandFaults_outstep : CommandFaults 0x09 2 0x00 (fun d8 => d8.toNat) :=
  commandFaults_of_row (row := ⟨some .sch, 0x00, .count, fun _ _ p => .outstep p⟩) rfl rfl rfl fun _ => rfl

/-- The last check of decoding, for a transfer whose payload has the length it states (30_encoding.md R81). -/
theorem decodeFor_outstep_of_oversize {cfg : Config} {d8 : Byte} {payload : List Byte}
    (hlen : payload.length = d8.toNat) (hsize : cfg.epOutSize < d8.toNat) :
    decodeFor cfg ⟨mkWord 2 0x09 d8, payload⟩ = .error .outOversize := by
  obtain ⟨i, hdecode⟩ := commandFaults_outstep.decodes d8 payload BitVec.and_zero hlen
  have hover : oversize cfg ⟨mkWord 2 0x09 d8, payload⟩ = true := by simp [oversize, hsize]
  rw [decodeFor, hdecode]
  exact if_pos hover

/-- Settles O49: the three cases of the rule, none of which touches GATE or the mode, and the check against the endpoint size. -/
theorem outstepAcceptsOrPends : Obligations.OutstepAcceptsOrPends := by
  intro bytes s hsync room
  have hfree : (free (maskTx s.block) s.block.tx).toNat = room := free_toNat_sub _ _
  have hroomLt : room < 256 := hfree ▸ (free (maskTx s.block) s.block.tx).isLt
  refine ⟨fun hwait => ?_, fun hbridge hroom => ?_, fun hbridge hroom => ?_, encode_outstep,
    commandFaults_outstep, fun _ _ => decodeFor_outstep_of_oversize⟩
  · exact completesWith_no (ruleOutstep_of_wait hwait bytes) hsync
  · rw [← ofNat_setWidth (hroom.trans_lt hroomLt)]
    exact completesWith_value (ruleOutstep_of_room hbridge (hroom.trans_eq hfree.symm)) hsync
  · have hdata : (free (maskTx s.block) s.block.tx).setWidth 16 = BitVec.ofNat 16 room := by
      rw [← hfree, BitVec.ofNat_toNat]
    rw [← hdata, ← responseWord_pending]
    exact completesWith_of_rule (ruleOutstep_of_no_room hbridge (hfree.trans_lt hroom)) hsync

end Sys2Proof.Machine
end

section
/-!
PROOFS. The two commands that belong to no data path (45_system.md R152, R153): NOP on every port, and the observation read.
-/
namespace Sys2Proof.Machine

/-! ### NOP (R152) -/

/-- No command on port 7 decodes, whatever its operation (30_encoding.md R82). -/
theorem decode_of_port_seven (op : BitVec 5) (d8 : Byte) (payload : List Byte) :
    decode ⟨mkWord 7 op d8, payload⟩ = .error .illegal := by
  rw [decode_mkWord]
  rfl

/-- Operation 0 on any port that names an agent: only a nonzero `D8` and a payload are left to fault, in this order. -/
theorem decode_nop (port : Port) (d8 : Byte) (payload : List Byte) :
    decode ⟨mkWord port.code 0 d8, payload⟩ =
      if d8 ≠ 0 then .error .resv else if payload ≠ [] then .error .payloadLen else .ok (.nop port) := by
  have hrow : opRow 0 = some ⟨none, 0xFF, .fixed 0, fun port _ _ => .nop port⟩ := rfl
  have hresv : d8 &&& 255#8 = d8 := BitVec.and_allOnes
  rw [decode_mkWord, ofCode_code, hrow]
  simp [owns, requiredLen, hresv]

/-- A port number other than 7 names an agent (30_encoding.md R74). -/
theorem exists_port_of_ne_seven {p : BitVec 3} (hp : p ≠ 7) : ∃ port : Port, p = port.code := by
  cases hport : Port.ofCode p with
  | none => exact absurd (ofCode_eq_none.1 hport) hp
  | some port => exact ⟨port, ofCode_eq_some hport⟩

/-- NOP is owned by every port that names an agent (30_encoding.md R83). -/
theorem decode_nop_ne_role {p : BitVec 3} (hp : p ≠ 7) : decode ⟨mkWord p 0 0, []⟩ ≠ .error .role := by
  obtain ⟨port, rfl⟩ := exists_port_of_ne_seven hp
  rw [decode_nop]
  exact nofun

/-- The word of a NOP holds its port number above 13 zero bits (30_encoding.md R73). -/
theorem encode_nop (port : Port) : encode (.nop port) = ⟨BitVec.ofNat 16 (8192 * port.code.toNat), []⟩ := by
  cases port <;> rfl

/-- Settles O54: the rule keeps the block; the exceptions are the two checks left once the port names an agent. -/
theorem nopDoesNothing : Obligations.NopDoesNothing := by
  intro port s hsync
  refine ⟨completesWith_ok rfl hsync, encode_nop port, fun _ => decode_nop_ne_role, decode_of_port_seven 0,
    fun d8 payload hd8 => ?_, fun payload hpayload => ?_⟩
  · rw [decode_nop, if_pos hd8]
  · rw [decode_nop, if_neg (not_not_intro rfl), if_pos hpayload]

/-! ### The packed observation bytes (10_state.md R48, R49) -/

/-- Bits placed above `n` others count `2 ^ n` times. -/
theorem append_toNat {m n : Nat} (x : BitVec m) (y : BitVec n) : (x ++ y).toNat = x.toNat * 2 ^ n + y.toNat := by
  rw [BitVec.toNat_append, ← Nat.shiftLeft_add_eq_or_of_lt y.isLt, Nat.shiftLeft_eq]

theorem devstateByte_toNat (k : Block) :
    (devstateByte k).toNat = 16 * (stateCode k.prev).toNat + (stateCode k.state).toNat := by
  simp only [devstateByte, append_toNat, BitVec.toNat_ofNat]
  omega

theorem ienByte_toNat (k : Block) : (ienByte k).toNat = 9 + 2 * k.ienSusp.toNat + 4 * k.ienWake.toNat := by
  simp only [ienByte, ienMask, append_toNat, BitVec.toNat_ofNat, BitVec.toNat_ofBool, Bool.toNat_true]
  omega

theorem modeByte_toNat (k : Block) :
    (modeByte k).toNat = k.bridge.toNat + 2 * k.flushPend.toNat + 4 * k.rxOvr.toNat := by
  simp only [modeByte, append_toNat, BitVec.toNat_ofNat, BitVec.toNat_ofBool]
  omega

theorem outsByte_toNat (k : Block) :
    (outsByte k).toNat = (ledRx k).toNat + 2 * (ledTx k).toNat + 4 * (resetLine k).toNat + 8 * (clkFrozen k).toNat
      + 16 * (uartEn k).toNat := by
  simp only [outsByte, append_toNat, BitVec.toNat_ofNat, BitVec.toNat_ofBool]
  omega

theorem faultByte_toNat (k : Block) : (faultByte k).toNat = k.faultCode.toNat + 128 * k.faultMulti.toNat := by
  simp only [faultByte, append_toNat, BitVec.toNat_ofNat, BitVec.toNat_ofBool]
  omega

/-! ### CSRRD (R153) -/

/-- The indices that the observation map lists (10_state.md R48 to R50). -/
def csrIndices : List Byte :=
  [0x00, 0x01, 0x02, 0x03, 0x04, 0x05, 0x06, 0x07, 0x08, 0x09, 0x0A, 0x0B, 0x0C, 0x0D, 0x10, 0x11, 0x12, 0x13, 0x14, 0x15, 0x16,
    0x18, 0x19, 0x20, 0x21, 0x22, 0x23, 0x24, 0x25, 0x26]

theorem csrMap_indices (k : Block) : (csrMap k).map Prod.fst = csrIndices := rfl

/-- The map lists no reserved index (10_state.md R51): none of its gaps, and nothing from 0x27 on. -/
theorem not_reserved_of_mem_csrIndices : ∀ i ∈ csrIndices,
    ¬(i ∈ ([0x0E, 0x0F, 0x17, 0x1A, 0x1B, 0x1C, 0x1D, 0x1E, 0x1F] : List Byte) ∨ 0x27 ≤ i.toNat) := by
  decide

/-- An index that the map does not list reads 0. -/
theorem csrRead_of_not_mem {i : Byte} (h : i ∉ csrIndices) (k : Block) : csrRead k i = 0 := by
  have hnone : (csrMap k).lookup i = none := by
    rw [← csrMap_indices k] at h
    exact List.lookup_eq_none_iff.2 fun p hp => bne_iff_ne.2 fun hi => h (hi ▸ List.mem_map_of_mem hp)
  rw [csrRead, hnone]
  rfl

/-- Settles O55: the rule keeps the block and answers its map at the index, which computes to the entry listed there; each packed
byte is the number its fields make. -/
theorem csrrdReadsTheObservationMap : Obligations.CsrrdReadsTheObservationMap := by
  intro i s hsync k
  have hentry {j : Byte} (h : i = j) : csrRead k i = csrRead k j := congrArg (csrRead k) h
  refine ⟨csrRead k i, completesWith_value rfl hsync,
    -- 0x00 to 0x0D: cursors, device state, mode, timers, outputs, fault
    hentry, hentry, hentry, hentry,
    fun h => hentry h ▸ devstateByte_toNat k, fun h => hentry h ▸ ienByte_toNat k, hentry, fun h => hentry h ▸ modeByte_toNat k,
    hentry, hentry, hentry, fun h => hentry h ▸ outsByte_toNat k, fun h => hentry h ▸ faultByte_toNat k, hentry,
    -- 0x10 to 0x19: line encoding and control lines
    hentry, hentry, hentry, hentry, hentry, hentry, hentry, hentry, hentry,
    -- 0x20 to 0x26: parameters
    hentry, hentry, hentry, hentry, hentry, hentry, hentry,
    fun hreserved => csrRead_of_not_mem (fun hi => not_reserved_of_mem_csrIndices i hi hreserved) k,
    congrArg (Command.mk · []) (or_eq_add 0xCF00 i (by decide)), commandFaults_of_no_payload rfl rfl rfl rfl rfl⟩

end Sys2Proof.Machine
end

section
/-!
PROOFS. The exceptions (60_exceptions.md): the checks of decoding in their order with the spec's tables (R157), and what taking a fault
does to the block (R158, R160, R161).
-/
namespace Sys2Proof.Machine

/-! ### The operation table against the spec's lists -/

/-- The operations without a row are the reserved ones (30_encoding.md R82). -/
theorem opRow_eq_none_iff {op : BitVec 5} : opRow op = none ↔ op ∈ specReservedOps := by
  revert op; decide

/-- The ports that may not issue the operation of a row are those outside the list of its owners (30_encoding.md R83). -/
theorem owns_eq_false_iff {op : BitVec 5} {row : OpRow} (hrow : opRow op = some row) (port : Port) :
    owns row port = false ↔ port.code ∉ specOwners op := by
  have htable : ∀ op : BitVec 5, ∀ row ∈ opRow op, owns row port = false ↔ port.code ∉ specOwners op := by
    cases port <;> decide
  exact htable op row hrow

/-- A row's reserved bits (30_encoding.md R81, R84). -/
theorem opRow_resv {op : BitVec 5} {row : OpRow} (hrow : opRow op = some row) : row.resv = specReservedBits op := by
  have htable : ∀ op : BitVec 5, ∀ row ∈ opRow op, row.resv = specReservedBits op := by decide
  exact htable op row hrow

/-- The payload length a row requires (30_encoding.md R78). -/
theorem requiredLen_opRow {op : BitVec 5} {row : OpRow} (hrow : opRow op = some row) (d8 : Byte) :
    requiredLen row.plen d8 = specPayloadLen op d8 := by
  have hnumber : op = BitVec.ofNat 5 op.toNat := by simp
  unfold opRow at hrow
  split at hrow <;> cases hrow
  all_goals
    next hop =>
      rw [hnumber, hop]
      rfl

/-! ### The checks in order -/

/-- Port 7 or a reserved operation: nothing else of the command is looked at. -/
theorem decode_mkWord_illegal {port : BitVec 3} {op : BitVec 5} (h : port = 7 ∨ op ∈ specReservedOps) (d8 : Byte)
    (payload : List Byte) : decode ⟨mkWord port op d8, payload⟩ = .error .illegal := by
  obtain rfl | hop := h
  · exact decode_of_port_seven op d8 payload
  · rw [decode_mkWord, opRow_eq_none_iff.2 hop]
    cases Port.ofCode port <;> rfl

theorem oversize_mkWord_iff {cfg : Config} {port : BitVec 3} {op : BitVec 5} {d8 : Byte} {payload : List Byte} :
    oversize cfg ⟨mkWord port op d8, payload⟩ = true ↔ op = 0x09 ∧ cfg.epOutSize < d8.toNat := by
  simp [oversize]

/-- On a port that names an agent, an operation with a row goes through the remaining checks as the spec's lists have them. -/
theorem decodeFor_mkWord {op : BitVec 5} {row : OpRow} (hrow : opRow op = some row) (cfg : Config) (port : Port) (d8 : Byte)
    (payload : List Byte) :
    decodeFor cfg ⟨mkWord port.code op d8, payload⟩ =
      if port.code ∉ specOwners op then .error .role
      else if d8 &&& specReservedBits op ≠ 0 then .error .resv
      else if payload.length ≠ specPayloadLen op d8 then .error .payloadLen
      else if op = 0x09 ∧ cfg.epOutSize < d8.toNat then .error .outOversize
      else .ok (row.read port d8 payload) := by
  have hdecode := decode_mkWord port.code op d8 payload
  rw [ofCode_code, hrow] at hdecode
  simp only [owns_eq_false_iff hrow, opRow_resv hrow, requiredLen_opRow hrow] at hdecode
  simp only [decodeFor, hdecode, oversize_mkWord_iff]
  split_ifs <;> rfl

/-- Settles O4: past the first check the port names an agent and the operation has a row, whose columns are the spec's lists. -/
theorem decodeChecksInOrder : Obligations.DecodeChecksInOrder := by
  refine ⟨⟨rfl, rfl, rfl, rfl, rfl⟩, fun cfg p op d8 payload => ?_⟩
  by_cases hillegal : p = 7 ∨ op ∈ specReservedOps
  · rw [if_pos hillegal, decodeFor, decode_mkWord_illegal hillegal]
  rw [if_neg hillegal]
  obtain ⟨hport, hop⟩ := not_or.1 hillegal
  obtain ⟨port, rfl⟩ := exists_port_of_ne_seven hport
  obtain ⟨row, hrow⟩ := Option.ne_none_iff_exists'.1 (mt opRow_eq_none_iff.1 hop)
  rw [decodeFor_mkWord hrow]
  split_ifs
  -- reserved bit, payload length, endpoint size, the command that decodes, and the port that is no owner
  · rfl
  · rfl
  · rfl
  · exact ⟨_, rfl⟩
  · rfl

/-! ### The fault record -/

/-- The three fault fields (10_state.md R35, R36). -/
def faultRecord (k : Block) : BitVec 4 × Bool × Byte := (k.faultCode, k.faultMulti, k.faultCmd)

theorem faultRecord_eq_iff {k k' : Block} : faultRecord k' = faultRecord k ↔
    k'.faultCode = k.faultCode ∧ k'.faultMulti = k.faultMulti ∧ k'.faultCmd = k.faultCmd := by
  simp [faultRecord]

@[simp] theorem gateUpdate_faultRecord (k : Block) : faultRecord (gateUpdate k) = faultRecord k := by
  obtain ⟨-, -, h⟩ | ⟨-, -, h⟩ | ⟨-, h⟩ := gateUpdate_cases k <;> rw [h] <;> rfl

@[simp] theorem flushTick_faultRecord (k : Block) : faultRecord (flushTick k) = faultRecord k := by
  unfold flushTick
  split_ifs <;> rfl

/-- No rule writes the fault fields: only taking a fault does (60_exceptions.md R158). -/
@[simp] theorem rule_faultRecord (i : Instr) (k : Block) : faultRecord (rule i k).1 = faultRecord k := by
  cases i with
  | nop | rxocc | txocc | csrrd | ctluns | eorst => rfl
  | tick => exact flushTick_faultRecord k
  | rxpush | rxpop | txpush | txpop | ringrst | instep | outstep =>
    simp only [rule, ruleRxpush, ruleRxpop, ruleTxpush, ruleTxpop, ruleRingrst, ruleInstep, ruleOutstep]
    split_ifs <;> rfl
  | vbusoff | vbuson | suspend | wake | addressed | setcfg =>
    simp only [rule, ruleVbusoff, ruleVbuson, ruleSuspend, ruleWake, ruleAddressed, ruleSetcfg]
    split_ifs <;> rfl
  | getlc | setlc | setcls | sendbrk =>
    simp only [rule, ruleGetlc, ruleSetlc, ruleSetcls, ruleSendbrk]
    split_ifs <;> rfl

/-- The first fault is recorded with its code and the upper byte of its word. -/
theorem recordFault_of_none {k : Block} (h : k.faultCode = 0) (e : FaultCode) (w : Word) :
    recordFault e w k = { k with faultCode := e.code, faultCmd := w.extractLsb' 8 8 } :=
  if_pos h

/-- A later fault only leaves its mark. -/
theorem recordFault_of_recorded {k : Block} (h : k.faultCode ≠ 0) (e : FaultCode) (w : Word) :
    recordFault e w k = { k with faultMulti := true } :=
  if_neg h

theorem code_ne_zero (e : FaultCode) : e.code ≠ 0 := by
  cases e <;> decide

/-- The mark of a later fault is never cleared by a fault. -/
theorem recordFault_faultMulti {k : Block} (h : k.faultMulti = true) (e : FaultCode) (w : Word) :
    (recordFault e w k).faultMulti = true := by
  by_cases hnone : k.faultCode = 0
  · rwa [recordFault_of_none hnone]
  · rw [recordFault_of_recorded hnone]

/-- After a fault there is a recorded one. -/
theorem recordFault_faultCode_ne_zero (e : FaultCode) (w : Word) (k : Block) : (recordFault e w k).faultCode ≠ 0 := by
  by_cases hnone : k.faultCode = 0
  · rw [recordFault_of_none hnone]
    exact code_ne_zero e
  · rwa [recordFault_of_recorded hnone]

/-! ### Taking a fault -/

/-- The response word of a fault: status 0xF, V set, the code as DATA (60_exceptions.md R158). -/
theorem responseWord_fault (e : FaultCode) : responseWord (answerFault e) = 0xF100 + e.code.setWidth 16 := by
  cases e <;> rfl

/-- Settles O9: the step takes the fault, which writes the record and answers, and does nothing else. -/
theorem faultEntryIsPrecise : Obligations.FaultEntryIsPrecise := by
  intro s c rest e hcfg hin hdec
  rw [step_of_decodeFor_error hcfg hin hdec, takeFault_eq, responseWord_fault]
  rfl

/-- Settles O10: a fault on a recorded one writes the mark only, and a command that decodes runs a rule, which writes none of the
three fields. -/
theorem faultRecordIsSticky : Obligations.FaultRecordIsSticky := by
  intro s c rest hcfg hin
  cases hdec : decodeFor s.block.cfg c with
  | error e =>
    refine ⟨_, step_of_decodeFor_error hcfg hin hdec, rfl, fun hrecorded => ?_, fun hmulti => ?_,
      fun _ _ => ⟨?_, fun hrecorded => ?_⟩, nofun⟩
    · simp [takeFault_eq, recordFault_of_recorded hrecorded]
    · exact recordFault_faultMulti hmulti e c.word
    · exact recordFault_faultCode_ne_zero e c.word s.block
    · simp [takeFault_eq, recordFault_of_recorded hrecorded]
  | ok i =>
    have hexec := exec_eq i { s with inbox := rest }
    obtain ⟨hcode, hmulti, hcmd⟩ := faultRecord_eq_iff.1
      ((gateUpdate_faultRecord (rule i s.block).1).trans (rule_faultRecord i s.block))
    refine ⟨_, (step_of_decodeFor_ok hcfg hin hdec).trans hexec, rfl, fun _ => ⟨hcode, hcmd⟩, fun h => hmulti.trans h, nofun,
      fun j hj => ?_⟩
    cases hj
    exact ⟨hexec, hcode, hmulti, hcmd⟩

end Sys2Proof.Machine
end

section
/-!
PROOFS. Decoding and encoding undo each other (30_encoding.md sections 2, 5 and 7): the command of an instruction as its three fields and
payload, and decoding as the one row of the operation table that reads them back.
-/
namespace Sys2Proof

/-! ### The fields of an instruction's command -/

/-- The `OP` field of an instruction's command (30_encoding.md R75). -/
def Instr.opNumber : Instr → BitVec 5
  | .nop _ => 0x00
  | .rxpush _ => 0x01
  | .rxpop => 0x02
  | .rxocc => 0x03
  | .txpush _ => 0x04
  | .txpop => 0x05
  | .txocc => 0x06
  | .ringrst _ => 0x07
  | .instep _ => 0x08
  | .outstep _ => 0x09
  | .tick => 0x0A
  | .csrrd _ => 0x0F
  | .vbusoff | .vbuson => 0x10
  | .suspend => 0x11
  | .wake => 0x12
  | .eorst => 0x13
  | .addressed => 0x14
  | .setcfg _ => 0x15
  | .getlc => 0x18
  | .setlc _ _ _ _ => 0x19
  | .setcls _ => 0x1A
  | .sendbrk _ => 0x1B
  | .ctluns o _ => 0x1C + o.setWidth 5

/-- The `D8` field of an instruction's command (30_encoding.md R76). -/
def Instr.operandByte : Instr → Byte
  | .rxpush b | .txpush b | .csrrd b | .setcfg b => b
  | .ringrst m => m.setWidth 8
  | .instep r => (BitVec.ofBool r).setWidth 8
  | .vbuson => 1
  | .outstep bytes | .ctluns _ bytes => countByte bytes
  | _ => 0

/-- The payload of an instruction's command (30_encoding.md R78). -/
def Instr.payload : Instr → List Byte
  | .outstep bytes | .ctluns _ bytes => bytes
  | .setlc baud fmt parity bits => bytes32 baud ++ [fmt, parity, bits]
  | .setcls v | .sendbrk v => bytes16 v
  | _ => []

/-- The command of an instruction, put together from its fields. -/
theorem encode_eq_fields (i : Instr) : encode i = ⟨mkWord i.port.code i.opNumber i.operandByte, i.payload⟩ := by
  cases i with
  | nop port => rfl
  | rxpush b | txpush b | csrrd b | setcfg b =>
    refine congrArg (Command.mk · []) (Machine.or_eq_mkWord b ?_)
    simp only [Instr.port, Port.code, Instr.opNumber]
    decide
  | outstep bytes =>
    refine congrArg (Command.mk · bytes) (Machine.or_eq_mkWord (countByte bytes) ?_)
    simp only [Instr.port, Port.code, Instr.opNumber]
    decide
  | ctluns o bytes =>
    refine congrArg (Command.mk · bytes) (Machine.or_eq_mkWord (countByte bytes) ?_)
    simp only [Instr.port, Port.code, Instr.opNumber]
    revert o
    decide
  | ringrst m => revert m; decide
  | instep r => cases r <;> rfl
  | rxpop | rxocc | txpop | txocc | tick | vbusoff | vbuson | suspend | wake | eorst | addressed | getlc => rfl
  | setlc | setcls | sendbrk =>
    refine congrArg (Command.mk · _) ?_
    simp only [Instr.port, Port.code, Instr.opNumber, Instr.operandByte]
    decide

/-! ### Decoding as one row of the operation table -/

/-- A row reads an instruction from a port, `D8` and a payload: the checks of 30_encoding.md R81 that the row makes all pass. -/
structure OpRow.Reads (row : OpRow) (port : Port) (d8 : Byte) (payload : List Byte) (i : Instr) : Prop where
  owner : owns row port = true
  reserved : d8 &&& row.resv = 0
  length : payload.length = requiredLen row.plen d8
  instr : row.read port d8 payload = i

/-- A command decodes to an instruction exactly when its port names an agent and the row of its operation reads the instruction. -/
theorem decode_eq_ok_iff {c : Command} {i : Instr} : decode c = .ok i ↔
    ∃ port row, Port.ofCode (portField c.word) = some port ∧ opRow (opField c.word) = some row
      ∧ row.Reads port (d8Field c.word) c.payload i := by
  constructor
  · intro h
    unfold decode at h
    split at h
    next port row hport hrow =>
      split_ifs at h with howns hresv hlen
      cases h
      exact ⟨port, row, hport, hrow, Bool.eq_true_of_not_eq_false howns, not_not.1 hresv, not_not.1 hlen, rfl⟩
    next => cases h
  · rintro ⟨port, row, hport, hrow, howns, hresv, hlen, rfl⟩
    simp [decode, hport, hrow, howns, hresv, hlen]

/-- The operation numbers of CTLUNS differ in their two lowest bits (30_encoding.md R75). -/
theorem opRow_ctluns (o : BitVec 2) : opRow (0x1C + o.setWidth 5) = some ⟨some .ctl, 0x00, .count, fun _ _ p => .ctluns o p⟩ := by
  have ho : o = 0 ∨ o = 1 ∨ o = 2 ∨ o = 3 := by revert o; decide
  obtain rfl | rfl | rfl | rfl := ho <;> rfl

/-! ### From the instruction to its command and back -/

/-- A byte count that has an encoding is its field `D8`. -/
theorem length_eq_countByte {bytes : List Byte} (h : countFits bytes = true) : bytes.length = (countByte bytes).toNat := by
  have hle : bytes.length ≤ 255 := of_decide_eq_true h
  rw [countByte, BitVec.toNat_ofNat]
  omega

/-- The row of an instruction's operation reads the instruction from its own fields. -/
theorem opRow_reads_fields {i : Instr} (h : i.wellFormed = true) :
    ∃ row, opRow i.opNumber = some row ∧ row.Reads i.port i.operandByte i.payload i := by
  cases i with
  | nop port => exact ⟨_, rfl, rfl, BitVec.zero_and, rfl, rfl⟩
  | rxpush b | txpush b | csrrd b | setcfg b => exact ⟨_, rfl, rfl, BitVec.and_zero, rfl, rfl⟩
  | ringrst m => exact ⟨_, rfl, rfl, by revert m; decide, rfl, congrArg Instr.ringrst (by revert m; decide)⟩
  | instep r => exact ⟨_, rfl, rfl, by cases r <;> rfl, rfl, by cases r <;> rfl⟩
  | rxpop | rxocc | txpop | txocc | tick | vbusoff | vbuson | suspend | wake | eorst | addressed | getlc =>
    exact ⟨_, rfl, rfl, rfl, rfl, rfl⟩
  | outstep bytes => exact ⟨_, rfl, rfl, BitVec.and_zero, length_eq_countByte h, rfl⟩
  | ctluns o bytes => exact ⟨_, opRow_ctluns o, rfl, BitVec.and_zero, length_eq_countByte h, rfl⟩
  | setlc baud fmt parity bits =>
    exact ⟨_, rfl, rfl, BitVec.zero_and, rfl, congrArg (Instr.setlc · fmt parity bits) (Machine.le32_bytes32 baud)⟩
  | setcls v => exact ⟨_, rfl, rfl, BitVec.zero_and, rfl, congrArg Instr.setcls (Machine.le16_bytes16 v)⟩
  | sendbrk v => exact ⟨_, rfl, rfl, BitVec.zero_and, rfl, congrArg Instr.sendbrk (Machine.le16_bytes16 v)⟩

/-- Settles O1: the fields of the encoded command name the instruction's port and row, which reads it back. -/
theorem decodeOfEncode : Obligations.DecodeOfEncode := by
  intro i hwf
  obtain ⟨row, hrow, hreads⟩ := opRow_reads_fields hwf
  rw [encode_eq_fields]
  exact decode_eq_ok_iff.2 ⟨i.port, row, by simp, by simpa using hrow, by simpa using hreads⟩

/-! ### From the command to its instruction and back -/

/-- A byte without the reserved bits `0xFF` is 0. -/
theorem eq_zero_of_and_all {d8 : Byte} (h : d8 &&& 0xFF = 0) : d8 = 0 :=
  (BitVec.and_allOnes (x := d8)).symm.trans h

/-- A byte without the reserved bits `0xFE` is its lowest bit. -/
theorem ofBool_getLsbD_zero {d8 : Byte} (h : d8 &&& 0xFE = 0) : (BitVec.ofBool (d8.getLsbD 0)).setWidth 8 = d8 := by
  revert d8; decide

/-- A byte without the reserved bits `0xFC` is its two lowest bits. -/
theorem setWidth_extract_two {d8 : Byte} (h : d8 &&& 0xFC = 0) : (d8.extractLsb' 0 2).setWidth 8 = d8 := by
  revert d8; decide

/-- A payload as long as a byte says has that byte as its count. -/
theorem countByte_eq {payload : List Byte} {d8 : Byte} (h : payload.length = d8.toNat) : countByte payload = d8 := by
  rw [countByte, h, BitVec.ofNat_toNat, BitVec.setWidth_eq]

/-- A payload as long as a byte says has a count that fits. -/
theorem countFits_of_length {payload : List Byte} {d8 : Byte} (h : payload.length = d8.toNat) : countFits payload = true :=
  decide_eq_true (by have := d8.isLt; omega)

/-- A 16-bit value read from a payload of two bytes is encoded in those bytes. -/
theorem bytes16_of_payload {p : List Byte} (h : p.length = 2) : bytes16 (le16 (payloadByte p 0) (payloadByte p 1)) = p := by
  obtain ⟨a, b, rfl⟩ := List.length_eq_two.1 h
  exact Machine.bytes16_le16 a b

/-- A line encoding read from a payload of seven bytes is encoded in those bytes. -/
theorem lineEncoding_of_payload {p : List Byte} (h : p.length = 7) :
    bytes32 (le32 (payloadByte p 0) (payloadByte p 1) (payloadByte p 2) (payloadByte p 3))
      ++ [payloadByte p 4, payloadByte p 5, payloadByte p 6] = p := by
  match p, h with
  | [a, b, c, d, _, _, _], _ => exact congrArg (· ++ _) (Machine.bytes32_le32 a b c d)

/-- VBUSOFF and VBUSON share a row, whose one operand bit tells them apart (30_encoding.md R75). -/
theorem vbus_fields {d8 : Byte} (h : d8 &&& 0xFE = 0) :
    let i : Instr := if d8.getLsbD 0 then .vbuson else .vbusoff
    i.opNumber = 0x10 ∧ i.operandByte = d8 ∧ i.payload = [] ∧ i.wellFormed = true := by
  revert d8; decide

/-- An instruction that a row reads has the operation number, operand byte and payload it was read from, and has an encoding. -/
theorem fields_of_opRow_reads {op : BitVec 5} {row : OpRow} (hrow : opRow op = some row) {port : Port} {d8 : Byte}
    {payload : List Byte} {i : Instr} (h : row.Reads port d8 payload i) :
    i.opNumber = op ∧ i.operandByte = d8 ∧ i.payload = payload ∧ i.wellFormed = true := by
  have hnumber {n : Nat} (hn : op.toNat = n) : BitVec.ofNat 5 n = op := by simp [← hn]
  obtain ⟨-, hresv, hlen, rfl⟩ := h
  unfold opRow at hrow
  split at hrow <;> cases hrow
  -- the cases are the rows of `opRow` in their order, grouped by what they read: nothing
  case h_1 | h_3 | h_4 | h_6 | h_7 | h_11 | h_14 | h_15 | h_16 | h_17 | h_19 =>
    next hop => exact ⟨hnumber hop, (eq_zero_of_and_all hresv).symm, (List.length_eq_zero_iff.1 hlen).symm, rfl⟩
  -- all of `D8`
  case h_2 | h_5 | h_12 | h_18 =>
    next hop => exact ⟨hnumber hop, rfl, (List.length_eq_zero_iff.1 hlen).symm, rfl⟩
  -- the two bits of RINGRST, the bit of INSTEP, the bit of the VBUS events
  case h_8 => next hop => exact ⟨hnumber hop, setWidth_extract_two hresv, (List.length_eq_zero_iff.1 hlen).symm, rfl⟩
  case h_9 => next hop => exact ⟨hnumber hop, ofBool_getLsbD_zero hresv, (List.length_eq_zero_iff.1 hlen).symm, rfl⟩
  case h_13 =>
    next hop =>
      obtain ⟨hnum, hbyte, hnone, hwf⟩ := vbus_fields hresv
      exact ⟨hnum.trans (hnumber hop), hbyte, hnone.trans (List.length_eq_zero_iff.1 hlen).symm, hwf⟩
  -- a payload of fixed length
  case h_20 => next hop => exact ⟨hnumber hop, (eq_zero_of_and_all hresv).symm, lineEncoding_of_payload hlen, rfl⟩
  case h_21 | h_22 => next hop => exact ⟨hnumber hop, (eq_zero_of_and_all hresv).symm, bytes16_of_payload hlen, rfl⟩
  -- a payload counted by `D8`
  case h_10 | h_23 | h_24 | h_25 | h_26 =>
    next hop => exact ⟨hnumber hop, countByte_eq hlen, rfl, countFits_of_length hlen⟩

/-- Settles O2: the row that read the instruction gives back every field of the word, and the payload. -/
theorem encodeOfDecode : Obligations.EncodeOfDecode := by
  intro c i h
  have hport := port_code_of_decode h
  obtain ⟨port, row, -, hrow, hreads⟩ := decode_eq_ok_iff.1 h
  obtain ⟨hop, hbyte, hpayload, hwf⟩ := fields_of_opRow_reads hrow hreads
  refine ⟨?_, hwf⟩
  rw [encode_eq_fields, hport, hop, hbyte, hpayload, mkWord_fields]

/-! ### Worked encodings -/

/-- Settles O3: each word of the table, decoded. -/
theorem workedEncodings : Obligations.WorkedEncodings := by
  unfold Obligations.WorkedEncodings
  decide

end Sys2Proof
end

section
/-!
PROOFS. The step and the inputs it takes (60_exceptions.md R156, R161, R164; 70_reset_and_hazards.md R176, R178): that it always gives a next
state, and the order of the commands presented in one cycle.
-/
namespace Sys2Proof.Machine

/-! ### What a step does with the next input -/

/-- With nothing delivered the machine waits (70_reset_and_hazards.md R178). -/
theorem step_of_nothing_delivered {s : State} (hcfg : configOk s.block.cfg = true) (hin : s.inbox = []) : step s = .next s := by
  simp [step, takeInput, hcfg, hin]

/-- Settles O6: the two forms of the step that take no command. -/
theorem otherInputsOfTheStep : Obligations.OtherInputsOfTheStep :=
  ⟨fun _ => step_of_nothing_delivered, fun _ _ => step_of_blockReset⟩

/-- Settles O8: the form of the step that executes. -/
theorem stepRunsTheDecodedCommand : Obligations.StepRunsTheDecodedCommand :=
  fun _ _ _ _ => step_of_decodeFor_ok

/-- Settles O15: each of the four forms of the step is a next state, and none writes the parameters. -/
theorem stepNeverStops : Obligations.StepNeverStops := by
  intro s hcfg
  obtain ⟨hbad, -⟩ | ⟨-, ⟨-, h⟩ | ⟨rest, -, h⟩ | ⟨c, rest, e, -, -, h⟩ | ⟨c, rest, i, -, -, h⟩⟩ := step_cases s
  · exact absurd hcfg (by simp [hbad])
  · exact ⟨s, h, rfl⟩
  · exact ⟨_, h, rfl⟩
  · exact ⟨_, h, recordFault_cfg e c.word s.block⟩
  · exact ⟨_, h.trans (exec_eq i _), (gateUpdate_cfg _).trans (rule_cfg i s.block)⟩

/-- Settles O16: every command ends in `gate_update`, after which the mode is GATE. -/
theorem gateInSyncAfterEveryCommand : Obligations.GateInSyncAfterEveryCommand := by
  intro i s t h
  obtain ⟨hblock, -, -⟩ := exec_next h
  rw [hblock, gateUpdate_inSync, gate_eq_true_iff]

/-! ### The commands of one cycle -/

/-- One command is before another in the order of their ports (60_exceptions.md R164). -/
abbrev RankLe (c d : Command) : Prop := portRank (portField c.word) ≤ portRank (portField d.word)

/-- The order of one cycle is the library's insertion sort by rank. -/
theorem arbitrate_eq_insertionSort (cs : List Command) : arbitrate cs = cs.insertionSort RankLe := by
  have hinsert (c : Command) (ds : List Command) : insertByRank c ds = ds.orderedInsert RankLe c := by
    induction ds with
    | nil => rfl
    | cons d ds ih => rw [insertByRank, ih, List.orderedInsert_cons]
  induction cs with
  | nil => rfl
  | cons c cs ih => rw [arbitrate, ih, hinsert, List.insertionSort_cons]

/-- The rank of a port number is its place in the list of R164, with number 7 last (log 12). -/
theorem portRank_eq_idxOf (p : BitVec 3) : portRank p = ([3, 4, 0, 1, 2, 5, 6, 7] : List (BitVec 3)).idxOf p := by
  revert p; decide

/-- The commands that insertion passes over are of an earlier rank, so of other ports: each port's commands keep their order. -/
theorem filter_insertByRank (p : BitVec 3) (c : Command) (ds : List Command) :
    (insertByRank c ds).filter (fun d => portField d.word = p) = (c :: ds).filter (fun d => portField d.word = p) := by
  induction ds with
  | nil => rfl
  | cons d ds ih =>
    rw [insertByRank]
    split_ifs with hrank
    · rfl
    · by_cases hd : portField d.word = p
      · have hc : portField c.word ≠ p := fun hc => hrank (by rw [hc, hd])
        simp [ih, hc, hd]
      · simp [List.filter_cons, ih, hd]

/-- Each port's own commands keep the order they were issued in (60_exceptions.md R171). -/
theorem filter_arbitrate (p : BitVec 3) (cs : List Command) :
    (arbitrate cs).filter (fun c => portField c.word = p) = cs.filter (fun c => portField c.word = p) := by
  induction cs with
  | nil => rfl
  | cons c cs ih => rw [arbitrate, filter_insertByRank, List.filter_cons, ih, List.filter_cons]

/-- Settles O12: the order is an insertion sort by rank, which is a sorted permutation and keeps each port's order. -/
theorem sameCycleOrder : Obligations.SameCycleOrder := by
  intro s cs
  refine ⟨arbitrate cs, rfl, ?_, ?_, fun p => filter_arbitrate p cs⟩
  · rw [arbitrate_eq_insertionSort]
    exact List.perm_insertionSort RankLe cs
  · have hsorted := List.pairwise_insertionSort RankLe cs
    rw [← arbitrate_eq_insertionSort] at hsorted
    simp only [← portRank_eq_idxOf]
    exact hsorted

end Sys2Proof.Machine
end

section
/-!
PROOFS. The remaining commands of the device and control ports, in full: WAKE into an unstated target, SETCFG, GETLC and SETLC
(42_usb_state.md R110, R115; 43_cdc_control.md R124 to R128).
-/
namespace Sys2Proof.Machine

/-! ### Where GATE holds if the mode is BRIDGE -/

/-- Where GATE holds if the mode is BRIDGE, `gate_update` sets the mode to GATE and performs no exit action. -/
theorem gateUpdate_of_not_leaving {k : Block} (h : k.bridge = true → gate k = true) : gateUpdate k = { k with bridge := gate k } := by
  cases hbridge : k.bridge with
  | false => exact gateUpdate_of_wait hbridge
  | true =>
    have hsync : k.bridge = gate k := by rw [hbridge, h hbridge]
    rw [gateUpdate_of_sync hsync, ← hsync]

/-- A block in step with GATE that is in BRIDGE is Configured and has a baud rate (10_state.md R43). -/
theorem GateInSync.of_bridge {k : Block} (hsync : GateInSync k) (hbridge : k.bridge = true) :
    k.state = .configured ∧ k.lcBaud ≠ 0 :=
  gate_eq_true_iff.1 (hsync.symm.trans hbridge)

/-- A command whose rule leaves no block in BRIDGE without GATE: the mode follows GATE, with no exit action. -/
theorem completesWith_ok_of_not_leaving {i : Instr} {s : State} {k : Block} (hrule : rule i s.block = (k, answerOk))
    (h : k.bridge = true → gate k = true) : CompletesWith i s { k with bridge := gate k } i.port.code 0x0000 [] :=
  completesWith_of_gateUpdate hrule (gateUpdate_of_not_leaving h)

/-! ### WAKE with an unstated target -/

/-- Settles O34: the wake of any saved state, with whatever state the free target is. -/
theorem wakeWithAnUnstatedTargetCompletes : Obligations.WakeWithAnUnstatedTargetCompletes :=
  fun s hsync hien hstate _ => ⟨wakeTarget s.block.prev, completesWith_wake hsync hien hstate⟩

/-! ### SETCFG -/

theorem ruleSetcfg_of_nonzero {k : Block} (hstate : k.state = .addressed ∨ k.state = .configured) {c : Byte} (hc : c ≠ 0) :
    ruleSetcfg c k =
      ({ k with state := .configured, config := c, rx := ringReset k.rx, tx := ringReset k.tx, flushCnt := 0, flushPend := false },
        answerOk) := by
  rw [ruleSetcfg, if_pos hstate, if_pos hc]
  rfl

theorem ruleSetcfg_zero {k : Block} (hstate : k.state = .addressed ∨ k.state = .configured) :
    ruleSetcfg 0 k = ({ k with state := .addressed, config := 0 }, answerOk) := by
  rw [ruleSetcfg, if_pos hstate, if_neg (not_not_intro rfl)]

theorem ruleSetcfg_of_other {k : Block} (hstate : ¬(k.state = .addressed ∨ k.state = .configured)) (c : Byte) :
    ruleSetcfg c k = (k, answerIgnored) :=
  if_neg hstate

/-- Settles O36: a nonzero number keeps a block that is in BRIDGE there, number 0 takes it out, elsewhere the command is ignored. -/
theorem setcfgSelectsAConfiguration : Obligations.SetcfgSelectsAConfiguration := by
  intro c s hsync
  refine ⟨fun hstate hc => ?_, fun hstate hc => ?_, fun haddressed hconfigured => ?_,
    congrArg (Command.mk · []) (or_eq_add 0x7500 c (by decide)), commandFaults_of_no_payload rfl rfl rfl rfl rfl⟩
  · have hdone := completesWith_ok_of_not_leaving (i := .setcfg c) (ruleSetcfg_of_nonzero hstate hc)
      (fun hbridge => gate_eq_true_iff.2 ⟨rfl, (hsync.of_bridge hbridge).2⟩)
    simp only [gate_eq_decide, true_and] at hdone
    exact hdone
  · subst hc
    exact completesWith_ok_leftBridge (ruleSetcfg_zero hstate) nofun
  · exact completesWith_ignored (ruleSetcfg_of_other (not_or.2 ⟨haddressed, hconfigured⟩) c) hsync

/-! ### GETLC -/

theorem ruleGetlc_of_accepted {k : Block} (hstate : acceptsControl k.state = true) :
    ruleGetlc k = (k, answerPayload 7 (lineEncoding k)) :=
  if_neg (by simp [hstate])

/-- GETLC where control requests are accepted. -/
theorem completesWith_getlc {s : State} (hsync : GateInSync s.block) (hstate : acceptsControl s.block.state = true) :
    CompletesWith .getlc s s.block 4 0x0107 (lineEncoding s.block) := by
  have hword : responseWord (answerPayload 7 (lineEncoding s.block)) = 0x0107 := responseWord_payload_count (n := 7) (by decide) _
  rw [← hword]
  exact completesWith_of_rule (i := .getlc) (ruleGetlc_of_accepted hstate) hsync

/-- Settles O42: the answer's payload is the line encoding, written out. -/
theorem getlcReturnsTheLineEncoding : Obligations.GetlcReturnsTheLineEncoding := by
  intro s hsync
  refine ⟨fun hin => ?_, fun hout => ?_, rfl, commandFaults_of_ctl_row (plen := .fixed 0) rfl⟩
  · exact completesWith_getlc hsync (acceptsControl_iff.2 hin)
  · exact completesWith_control_of_not_accepted hsync rfl (acceptsControl_eq_false_iff.2 hout)

/-! ### SETLC -/

/-- The valid codes of 43_cdc_control.md R125, field by field. -/
theorem validEncoding_iff {fmt parity bits : Byte} : validEncoding fmt parity bits = true ↔
    (fmt = 0 ∨ fmt = 2) ∧ (parity = 0 ∨ parity = 1 ∨ parity = 2) ∧ (bits = 5 ∨ bits = 6 ∨ bits = 7 ∨ bits = 8) := by
  simp [validEncoding, and_assoc]

/-- The block that an accepted SETLC leaves before `gate_update` (43_cdc_control.md R126 to R128). -/
def afterSetlc (baud : BitVec 32) (fmt parity bits : Byte) (k : Block) : Block :=
  { k with lcBaud := baud, lcFmt := fmt, lcParity := parity, lcBits := bits, tx := ringReset k.tx,
           trace := k.trace ++ [.uartCfg baud fmt parity bits] }

theorem ruleSetlc_of_accepted {k : Block} {fmt parity bits : Byte} (hstate : acceptsControl k.state = true)
    (hvalid : validEncoding fmt parity bits = true) (baud : BitVec 32) :
    ruleSetlc baud fmt parity bits k = (afterSetlc baud fmt parity bits k, answerOk) := by
  rw [ruleSetlc, if_neg (by simp [hstate]), if_neg (by simp [hvalid])]
  rfl

theorem ruleSetlc_of_refused {k : Block} {fmt parity bits : Byte}
    (h : acceptsControl k.state = false ∨ validEncoding fmt parity bits = false) (baud : BitVec 32) :
    ruleSetlc baud fmt parity bits k = (k, answerIgnored) := by
  unfold ruleSetlc
  split_ifs with hstate hvalid
  · rfl
  · rfl
  · exact absurd h (not_or.2 ⟨hstate, hvalid⟩)

/-- The mode after an accepted SETLC: baud rate 0 takes the block out of BRIDGE, any other makes the mode follow the device state. -/
theorem gateUpdate_afterSetlc {k : Block} (hsync : GateInSync k) (baud : BitVec 32) (fmt parity bits : Byte) :
    gateUpdate (afterSetlc baud fmt parity bits k) =
      if baud = 0 then leftBridge (afterSetlc baud fmt parity bits k)
      else { afterSetlc baud fmt parity bits k with bridge := decide (k.state = .configured) } := by
  split_ifs with hbaud
  · exact gateUpdate_of_gate_off (gate_eq_false_iff.2 fun h => h.2 hbaud)
  · have hgate : gate (afterSetlc baud fmt parity bits k) = decide (k.state = .configured) := by
      rw [gate_eq_decide, afterSetlc]
      simp only [ne_eq, hbaud, not_false_eq_true, and_true]
    rw [gateUpdate_of_not_leaving fun hbridge => ?_, hgate]
    rw [hgate, decide_eq_true_iff]
    exact (hsync.of_bridge hbridge).1

/-- Settles O43: an accepted SETLC stores, flushes and announces, and the mode follows the new baud rate; one refused is ignored. -/
theorem setlcStoresFlushesAndAnnounces : Obligations.SetlcStoresFlushesAndAnnounces := by
  intro baud fmt parity bits s hsync
  refine ⟨fun hin hfmt hparity hbits => ?_, fun hrefused => ?_, rfl, commandFaults_of_ctl_row (plen := .fixed 7) rfl⟩
  · have hrule := ruleSetlc_of_accepted (acceptsControl_iff.2 hin) (validEncoding_iff.2 ⟨hfmt, hparity, hbits⟩) baud
    exact completesWith_of_gateUpdate (i := .setlc baud fmt parity bits) hrule (gateUpdate_afterSetlc hsync baud fmt parity bits)
  · refine completesWith_ignored (ruleSetlc_of_refused ?_ baud) hsync
    rw [acceptsControl_eq_false_iff, ← Bool.not_eq_true, validEncoding_iff]
    tauto

end Sys2Proof.Machine
end

section
/-!
PROOFS. What a command does to the elements of the block, said once: the two rings by one operation each, and the elements that few commands
write (60_exceptions.md section 3). The invariant, the refinements and the single-writer map are derived from these lemmas.
-/
namespace Sys2Proof.Machine

/-! ### The operations on a ring -/

/-- What one command does to a ring (41_ring.md R93 to R102; 44_arbiter.md R141, R143). -/
inductive RingOp where
  | keep
  | append (bytes : List Byte)
  | drop (n : Nat)
  | clear

/-- The operation on the ring itself. -/
def RingOp.apply (mask : Byte) : RingOp → Ring → Ring
  | .keep, q => q
  | .append bytes, q => pushBytes mask bytes q
  | .drop n, q => dropBytes mask (BitVec.ofNat 8 n) q
  | .clear, q => ringReset q

/-- The operation on the queue that the ring stands for. -/
def RingOp.onQueue : RingOp → List Byte → List Byte
  | .keep, bytes => bytes
  | .append new, bytes => bytes ++ new
  | .drop n, bytes => bytes.drop n
  | .clear, _ => []

/-- The bytes the operation writes. -/
def RingOp.appended : RingOp → List Byte
  | .append bytes => bytes
  | _ => []

/-- The ring of `n` slots has room for what the operation appends, and the bytes that it drops. -/
def RingOp.Fits (n : Nat) (q : Ring) : RingOp → Prop
  | .append bytes => (occ (maskOf n) q).toNat + bytes.length ≤ n - 1
  | .drop k => k ≤ (occ (maskOf n) q).toNat
  | _ => True

theorem RingOp.apply_ok {n : Nat} (h : isRingSize n = true) {q : Ring} (hq : RingOk n q) {op : RingOp} (hfits : op.Fits n q) :
    RingOk n (op.apply (maskOf n) q) := by
  cases op with
  | keep => exact hq
  | append bytes => exact (pushBytes_spec h bytes hq hfits).1
  | drop k => exact dropBytes_ok h hq _
  | clear => exact ringReset_ok hq

/-- The ring refines the queue, operation by operation (41_ring.md section 3). -/
theorem RingOp.queue_apply {n : Nat} (h : isRingSize n = true) {q : Ring} (hq : RingOk n q) {op : RingOp} (hfits : op.Fits n q) :
    queue (maskOf n) (op.apply (maskOf n) q) = op.onQueue (queue (maskOf n) q) := by
  cases op with
  | keep => rfl
  | append bytes => exact (pushBytes_spec h bytes hq hfits).2
  | drop k => exact queue_dropBytes h hq hfits
  | clear => exact queue_ringReset _ q

/-- A byte outside the slots that the operation writes reads as before (20_memory.md R54, R55). -/
theorem RingOp.read_apply_other {n : Nat} (h : isRingSize n = true) {q : Ring} (hq : RingOk n q) {op : RingOp} {a : Nat}
    (ha : ∀ j, j < op.appended.length → a ≠ (advance (maskOf n) q.w (BitVec.ofNat 8 j)).toNat) :
    memRead a (op.apply (maskOf n) q).buf = memRead a q.buf := by
  cases op with
  | keep | drop | clear => rfl
  | append bytes =>
    obtain ⟨-, hother, -⟩ := writeFrom_spec h q.w bytes 0 hq.canonical
    simp only [Nat.zero_add] at hother
    exact hother a ha

/-- The slots that the operation writes hold its bytes in order. -/
theorem RingOp.read_apply_slot {n : Nat} (h : isRingSize n = true) {q : Ring} (hq : RingOk n q) {op : RingOp} (hfits : op.Fits n q)
    {j : Nat} (hj : j < op.appended.length) :
    memRead (advance (maskOf n) q.w (BitVec.ofNat 8 j)).toNat (op.apply (maskOf n) q).buf = op.appended.getD j 0 := by
  cases op with
  | keep | drop | clear => simp [RingOp.appended] at hj
  | append bytes =>
    obtain ⟨-, -, hslot⟩ := writeFrom_spec h q.w bytes 0 hq.canonical
    have hlen : bytes.length ≤ n := by
      simp only [RingOp.Fits] at hfits
      omega
    simp only [Nat.zero_add] at hslot
    exact hslot (hq.write_lt h) hlen j hj

/-- One byte pushed is a transfer of one byte. -/
theorem pushBytes_singleton {n : Nat} (h : isRingSize n = true) {q : Ring} (hq : RingOk n q) (v : Byte) :
    pushBytes (maskOf n) [v] q = pushByte (maskOf n) v q := by
  rw [pushBytes_cons h hq, pushBytes_nil h (pushByte_ok h hq v)]

/-! ### The operation of each command on the RX ring -/

/-- What a command does to the RX ring before the mode update. -/
def rxOp (i : Instr) (k : Block) : RingOp :=
  match i with
  | .rxpush b => if k.bridge = true ∧ occ (maskRx k) k.rx ≠ maskRx k then .append [b] else .keep
  | .rxpop => if k.rx.w ≠ k.rx.r then .drop 1 else .keep
  | .instep r =>
      if k.bridge = true ∧ r = true ∧ drainDue k (occ (maskRx k) k.rx).toNat = true then .drop (drainCount k) else .keep
  | .ringrst m => if m.getLsbD 0 = true then .clear else .keep
  | .vbusoff => if k.state = .unattached then .keep else .clear
  | .setcfg c => if (k.state = .addressed ∨ k.state = .configured) ∧ c ≠ 0 then .clear else .keep
  | _ => .keep

/-- The rule of a command does its operation to the RX ring. -/
theorem rule_rx {k : Block} (h : isRingSize k.cfg.nRx = true) (hq : RingOk k.cfg.nRx k.rx) (i : Instr) :
    (rule i k).1.rx = (rxOp i k).apply (maskRx k) k.rx := by
  cases i with
  | rxpush b =>
    have hone : pushBytes (maskRx k) [b] k.rx = pushByte (maskRx k) b k.rx := pushBytes_singleton h hq b
    simp only [rule, ruleRxpush, rxOp, isFull]
    split_ifs <;> simp_all [RingOp.apply]
  | rxpop =>
    simp only [rule, ruleRxpop, rxOp, isEmpty]
    split_ifs <;> simp_all [RingOp.apply]
  | instep r =>
    simp only [rule, ruleInstep, rxOp]
    split_ifs <;> simp_all [RingOp.apply]
  | ringrst m =>
    simp only [rule, ruleRingrst_eq, rxOp]
    split_ifs <;> rfl
  | vbusoff =>
    simp only [rule, ruleVbusoff, rxOp]
    split_ifs <;> rfl
  | setcfg c =>
    simp only [rule, ruleSetcfg, rxOp]
    split_ifs <;> simp_all [RingOp.apply]
  | nop | rxocc | txocc | csrrd | ctluns | eorst => rfl
  | tick => simp [rule, ruleTick_eq, rxOp, RingOp.apply]
  | txpush | txpop | outstep =>
    simp only [rule, ruleTxpush, ruleTxpop, ruleOutstep]
    split_ifs <;> rfl
  | vbuson | suspend | wake | addressed =>
    simp only [rule, ruleVbuson, ruleSuspend, ruleWake, ruleAddressed]
    split_ifs <;> rfl
  | getlc | setlc | setcls | sendbrk =>
    simp only [rule, ruleGetlc, ruleSetlc, ruleSetcls, ruleSendbrk]
    split_ifs <;> rfl

/-- The commands that reset the RX ring of themselves (41_ring.md R102). -/
abbrev ClearsRx (i : Instr) : Prop :=
  (∃ m, m.getLsbD 0 = true ∧ i = .ringrst m) ∨ i = .vbusoff ∨ ∃ c, c ≠ 0 ∧ i = .setcfg c

/-- Everything a command can do to the RX ring, and when. -/
theorem rxOp_cases (i : Instr) (k : Block) :
    rxOp i k = .keep
    ∨ (∃ b, i = .rxpush b ∧ k.bridge = true ∧ occ (maskRx k) k.rx ≠ maskRx k ∧ rxOp i k = .append [b])
    ∨ (i = .rxpop ∧ k.rx.w ≠ k.rx.r ∧ rxOp i k = .drop 1)
    ∨ ((∃ r, i = .instep r) ∧ k.bridge = true ∧ rxOp i k = .drop (drainCount k))
    ∨ (ClearsRx i ∧ rxOp i k = .clear) := by
  cases i with
  | rxpush b =>
    by_cases hc : k.bridge = true ∧ occ (maskRx k) k.rx ≠ maskRx k
    · exact .inr (.inl ⟨b, rfl, hc.1, hc.2, if_pos hc⟩)
    · exact .inl (if_neg hc)
  | rxpop =>
    by_cases hc : k.rx.w ≠ k.rx.r
    · exact .inr (.inr (.inl ⟨rfl, hc, if_pos hc⟩))
    · exact .inl (if_neg hc)
  | instep r =>
    by_cases hc : k.bridge = true ∧ r = true ∧ drainDue k (occ (maskRx k) k.rx).toNat = true
    · exact .inr (.inr (.inr (.inl ⟨⟨r, rfl⟩, hc.1, if_pos hc⟩)))
    · exact .inl (if_neg hc)
  | ringrst m =>
    by_cases hc : m.getLsbD 0 = true
    · exact .inr (.inr (.inr (.inr ⟨.inl ⟨m, hc, rfl⟩, if_pos hc⟩)))
    · exact .inl (if_neg hc)
  | vbusoff =>
    by_cases hc : k.state = .unattached
    · exact .inl (if_pos hc)
    · exact .inr (.inr (.inr (.inr ⟨.inr (.inl rfl), if_neg hc⟩)))
  | setcfg c =>
    by_cases hc : (k.state = .addressed ∨ k.state = .configured) ∧ c ≠ 0
    · exact .inr (.inr (.inr (.inr ⟨.inr (.inr ⟨c, hc.2, rfl⟩), if_pos hc⟩)))
    · exact .inl (if_neg hc)
  | _ => exact .inl rfl

/-- The operation on the RX ring is one that the ring can do. -/
theorem rxOp_fits {k : Block} (h : isRingSize k.cfg.nRx = true) (hq : RingOk k.cfg.nRx k.rx) (i : Instr) :
    (rxOp i k).Fits k.cfg.nRx k.rx := by
  obtain hop | ⟨b, -, -, hroom, hop⟩ | ⟨-, hne, hop⟩ | ⟨-, -, hop⟩ | ⟨-, hop⟩ := rxOp_cases i k <;> rw [hop]
  · trivial
  · have hlt := occ_lt h k.rx
    have hnot := mt (isFull_iff h).2 (mt of_decide_eq_true hroom)
    simp only [RingOp.Fits, List.length_singleton]
    omega
  · have hnot := mt (isEmpty_iff h hq).2 (mt of_decide_eq_true hne)
    exact Nat.one_le_iff_ne_zero.2 hnot
  · exact min_le_left _ _
  · trivial

/-! ### The operation of each command on the TX ring -/

/-- What a command does to the TX ring before the mode update. -/
def txOp (i : Instr) (k : Block) : RingOp :=
  match i with
  | .txpush b => if k.bridge = true ∧ occ (maskTx k) k.tx ≠ maskTx k then .append [b] else .keep
  | .outstep bytes => if k.bridge = true ∧ bytes.length ≤ (free (maskTx k) k.tx).toNat then .append bytes else .keep
  | .txpop => if k.tx.w ≠ k.tx.r then .drop 1 else .keep
  | .ringrst m => if m.getLsbD 1 = true then .clear else .keep
  | .vbusoff => if k.state = .unattached then .keep else .clear
  | .setcfg c => if (k.state = .addressed ∨ k.state = .configured) ∧ c ≠ 0 then .clear else .keep
  | .setlc _ fmt parity bits =>
      if acceptsControl k.state = true ∧ validEncoding fmt parity bits = true then .clear else .keep
  | _ => .keep

/-- The rule of a command does its operation to the TX ring. -/
theorem rule_tx {k : Block} (h : isRingSize k.cfg.nTx = true) (hq : RingOk k.cfg.nTx k.tx) (i : Instr) :
    (rule i k).1.tx = (txOp i k).apply (maskTx k) k.tx := by
  cases i with
  | txpush b =>
    have hone : pushBytes (maskTx k) [b] k.tx = pushByte (maskTx k) b k.tx := pushBytes_singleton h hq b
    by_cases hc : k.bridge = true ∧ occ (maskTx k) k.tx ≠ maskTx k
    · simp [rule, txOp, hc, RingOp.apply, ruleTxpush_of_room, hone]
    · have hrefused : k.bridge = false ∨ occ (maskTx k) k.tx = maskTx k := by simpa [imp_iff_not_or] using hc
      rw [rule, ruleTxpush_of_wait_or_full hrefused, txOp, if_neg hc, RingOp.apply]
  | txpop =>
    simp only [rule, ruleTxpop, txOp, isEmpty]
    split_ifs <;> simp_all [RingOp.apply]
  | outstep bytes =>
    simp only [rule, ruleOutstep, txOp]
    split_ifs <;> simp_all [RingOp.apply]
  | ringrst m =>
    simp only [rule, ruleRingrst_eq, txOp]
    split_ifs <;> rfl
  | vbusoff =>
    simp only [rule, ruleVbusoff, txOp]
    split_ifs <;> rfl
  | setcfg c =>
    simp only [rule, ruleSetcfg, txOp]
    split_ifs <;> simp_all [RingOp.apply]
  | setlc baud fmt parity bits =>
    simp only [rule, ruleSetlc, txOp]
    split_ifs <;> simp_all [RingOp.apply]
  | nop | rxocc | txocc | csrrd | ctluns | eorst => rfl
  | tick => simp [rule, ruleTick_eq, txOp, RingOp.apply]
  | rxpush | rxpop | instep =>
    simp only [rule, ruleRxpush, ruleRxpop, ruleInstep]
    split_ifs <;> rfl
  | vbuson | suspend | wake | addressed =>
    simp only [rule, ruleVbuson, ruleSuspend, ruleWake, ruleAddressed]
    split_ifs <;> rfl
  | getlc | setcls | sendbrk =>
    simp only [rule, ruleGetlc, ruleSetcls, ruleSendbrk]
    split_ifs <;> rfl

/-- The commands that reset the TX ring of themselves (41_ring.md R102). -/
abbrev ClearsTx (i : Instr) : Prop :=
  (∃ m, m.getLsbD 1 = true ∧ i = .ringrst m) ∨ i = .vbusoff ∨ (∃ c, c ≠ 0 ∧ i = .setcfg c) ∨ ∃ b f p d, i = .setlc b f p d

/-- Everything a command can do to the TX ring, and when. -/
theorem txOp_cases (i : Instr) (k : Block) :
    txOp i k = .keep
    ∨ (∃ b, i = .txpush b ∧ k.bridge = true ∧ occ (maskTx k) k.tx ≠ maskTx k ∧ txOp i k = .append [b])
    ∨ (∃ bytes, i = .outstep bytes ∧ k.bridge = true ∧ bytes.length ≤ (free (maskTx k) k.tx).toNat
        ∧ txOp i k = .append bytes)
    ∨ (i = .txpop ∧ k.tx.w ≠ k.tx.r ∧ txOp i k = .drop 1)
    ∨ (ClearsTx i ∧ txOp i k = .clear) := by
  cases i with
  | txpush b =>
    by_cases hc : k.bridge = true ∧ occ (maskTx k) k.tx ≠ maskTx k
    · exact .inr (.inl ⟨b, rfl, hc.1, hc.2, if_pos hc⟩)
    · exact .inl (if_neg hc)
  | outstep bytes =>
    by_cases hc : k.bridge = true ∧ bytes.length ≤ (free (maskTx k) k.tx).toNat
    · exact .inr (.inr (.inl ⟨bytes, rfl, hc.1, hc.2, if_pos hc⟩))
    · exact .inl (if_neg hc)
  | txpop =>
    by_cases hc : k.tx.w ≠ k.tx.r
    · exact .inr (.inr (.inr (.inl ⟨rfl, hc, if_pos hc⟩)))
    · exact .inl (if_neg hc)
  | ringrst m =>
    by_cases hc : m.getLsbD 1 = true
    · exact .inr (.inr (.inr (.inr ⟨.inl ⟨m, hc, rfl⟩, if_pos hc⟩)))
    · exact .inl (if_neg hc)
  | vbusoff =>
    by_cases hc : k.state = .unattached
    · exact .inl (if_pos hc)
    · exact .inr (.inr (.inr (.inr ⟨.inr (.inl rfl), if_neg hc⟩)))
  | setcfg c =>
    by_cases hc : (k.state = .addressed ∨ k.state = .configured) ∧ c ≠ 0
    · exact .inr (.inr (.inr (.inr ⟨.inr (.inr (.inl ⟨c, hc.2, rfl⟩)), if_pos hc⟩)))
    · exact .inl (if_neg hc)
  | setlc baud fmt parity bits =>
    by_cases hc : acceptsControl k.state = true ∧ validEncoding fmt parity bits = true
    · exact .inr (.inr (.inr (.inr ⟨.inr (.inr (.inr ⟨baud, fmt, parity, bits, rfl⟩)), if_pos hc⟩)))
    · exact .inl (if_neg hc)
  | _ => exact .inl rfl

/-- The operation on the TX ring is one that the ring can do. -/
theorem txOp_fits {k : Block} (h : isRingSize k.cfg.nTx = true) (hq : RingOk k.cfg.nTx k.tx) (i : Instr) :
    (txOp i k).Fits k.cfg.nTx k.tx := by
  have hlt := occ_lt h k.tx
  obtain hop | ⟨b, -, -, hroom, hop⟩ | ⟨bytes, -, -, hroom, hop⟩ | ⟨-, hne, hop⟩ | ⟨-, hop⟩ := txOp_cases i k <;> rw [hop]
  · trivial
  · have hnot := mt (isFull_iff h).2 (mt of_decide_eq_true hroom)
    simp only [RingOp.Fits, List.length_singleton]
    omega
  · rw [maskTx, free_toNat h] at hroom
    simp only [RingOp.Fits]
    omega
  · have hnot := mt (isEmpty_iff h hq).2 (mt of_decide_eq_true hne)
    exact Nat.one_le_iff_ne_zero.2 hnot
  · trivial

/-! ### How a command ends -/

/-- What a command makes of the block its rule leaves: it leaves BRIDGE with the exit actions, or sets the mode to GATE and nothing else. -/
theorem exec_block_cases {i : Instr} {s t : State} (h : exec i s = .next t) :
    (LeavesBridge s.block t.block ∧ t.block = { exitActions (rule i s.block).1 with bridge := false })
    ∨ (¬LeavesBridge s.block t.block ∧ t.block = { (rule i s.block).1 with bridge := gate (rule i s.block).1 }) := by
  by_cases hleaves : LeavesBridge s.block t.block
  · exact .inl ⟨hleaves, exec_leaving_bridge h hleaves⟩
  · refine .inr ⟨hleaves, ?_⟩
    obtain ⟨hblock, -, -⟩ := exec_next h
    rw [hblock]
    refine gateUpdate_of_not_leaving fun hbridge => ?_
    by_contra hgate
    have hbefore : s.block.bridge = true := (rule_bridge i s.block).symm.trans hbridge
    have hafter : (gateUpdate (rule i s.block).1).bridge = gate (gateUpdate (rule i s.block).1) := gateUpdate_inSync _
    rw [gateUpdate_of_leaving hbridge (Bool.eq_false_of_not_eq_true hgate)] at hafter
    exact hleaves ⟨hbefore, by rw [hblock, gateUpdate_of_leaving hbridge (Bool.eq_false_of_not_eq_true hgate)]⟩

@[simp] theorem gateUpdate_rx_buf (k : Block) : (gateUpdate k).rx.buf = k.rx.buf := by
  obtain ⟨-, -, h⟩ | ⟨-, -, h⟩ | ⟨-, h⟩ := gateUpdate_cases k <;> rw [h]
  rfl

@[simp] theorem gateUpdate_tx_buf (k : Block) : (gateUpdate k).tx.buf = k.tx.buf := by
  obtain ⟨-, -, h⟩ | ⟨-, -, h⟩ | ⟨-, h⟩ := gateUpdate_cases k <;> rw [h]
  rfl

/-! ### The device state -/

/-- The elements that the device-connection state machine writes (42_usb_state.md section 1). -/
def deviceFields (k : Block) : DevState × DevState × Byte × Bool × Bool := (k.state, k.prev, k.config, k.ienSusp, k.ienWake)

theorem deviceFields_eq_iff {k k' : Block} : deviceFields k' = deviceFields k ↔
    k'.state = k.state ∧ k'.prev = k.prev ∧ k'.config = k.config ∧ k'.ienSusp = k.ienSusp ∧ k'.ienWake = k.ienWake := by
  simp [deviceFields]

@[simp] theorem gateUpdate_deviceFields (k : Block) : deviceFields (gateUpdate k) = deviceFields k := by
  obtain ⟨-, -, h⟩ | ⟨-, -, h⟩ | ⟨-, h⟩ := gateUpdate_cases k <;> rw [h] <;> rfl

/-- Only the device events write the device state. -/
theorem rule_deviceFields_of_not_event {i : Instr} (hi : isDeviceEvent i ≠ true) (k : Block) :
    deviceFields (rule i k).1 = deviceFields k := by
  cases i with
  | vbuson | vbusoff | suspend | wake | eorst | addressed | setcfg => exact absurd rfl hi
  | nop | rxocc | txocc | csrrd | ctluns => rfl
  | tick => rw [rule, ruleTick_eq]; rfl
  | rxpush | rxpop | txpush | txpop | ringrst | instep | outstep =>
    simp only [rule, ruleRxpush, ruleRxpop, ruleTxpush, ruleTxpop, ruleRingrst, ruleInstep, ruleOutstep]
    split_ifs <;> rfl
  | getlc | setlc | setcls | sendbrk =>
    simp only [rule, ruleGetlc, ruleSetlc, ruleSetcls, ruleSendbrk]
    split_ifs <;> rfl

/-! ### The line encoding and the control lines -/

/-- The elements that hold the line encoding (10_state.md R33). -/
def lineFields (k : Block) : BitVec 32 × Byte × Byte × Byte := (k.lcBaud, k.lcFmt, k.lcParity, k.lcBits)

theorem lineFields_eq_iff {k k' : Block} : lineFields k' = lineFields k ↔
    k'.lcBaud = k.lcBaud ∧ k'.lcFmt = k.lcFmt ∧ k'.lcParity = k.lcParity ∧ k'.lcBits = k.lcBits := by
  simp [lineFields]

@[simp] theorem gateUpdate_lineFields (k : Block) : lineFields (gateUpdate k) = lineFields k := by
  obtain ⟨-, -, h⟩ | ⟨-, -, h⟩ | ⟨-, h⟩ := gateUpdate_cases k <;> rw [h] <;> rfl

/-- Only a SETLC that is accepted writes the line encoding, and it stores its operands (43_cdc_control.md R126). -/
theorem rule_lineFields_cases (i : Instr) (k : Block) :
    lineFields (rule i k).1 = lineFields k
    ∨ ∃ b f p d, i = .setlc b f p d ∧ validEncoding f p d = true ∧ lineFields (rule i k).1 = (b, f, p, d) := by
  cases i with
  | setlc b f p d =>
    by_cases hc : acceptsControl k.state = true ∧ validEncoding f p d = true
    · refine .inr ⟨b, f, p, d, rfl, hc.2, ?_⟩
      rw [rule, ruleSetlc_of_accepted hc.1 hc.2]
      rfl
    · have hrefused : acceptsControl k.state = false ∨ validEncoding f p d = false := by simpa [imp_iff_not_or] using hc
      exact .inl (by rw [rule, ruleSetlc_of_refused hrefused])
  | nop | rxocc | txocc | csrrd | ctluns | eorst => exact .inl rfl
  | tick => exact .inl (by rw [rule, ruleTick_eq]; rfl)
  | rxpush | rxpop | txpush | txpop | ringrst | instep | outstep =>
    left
    simp only [rule, ruleRxpush, ruleRxpop, ruleTxpush, ruleTxpop, ruleRingrst, ruleInstep, ruleOutstep]
    split_ifs <;> rfl
  | vbusoff | vbuson | suspend | wake | addressed | setcfg =>
    left
    simp only [rule, ruleVbusoff, ruleVbuson, ruleSuspend, ruleWake, ruleAddressed, ruleSetcfg]
    split_ifs <;> rfl
  | getlc | setcls | sendbrk =>
    left
    simp only [rule, ruleGetlc, ruleSetcls, ruleSendbrk]
    split_ifs <;> rfl

@[simp] theorem gateUpdate_cls (k : Block) : (gateUpdate k).cls = k.cls := by
  obtain ⟨-, -, h⟩ | ⟨-, -, h⟩ | ⟨-, h⟩ := gateUpdate_cases k <;> rw [h]
  rfl

/-- Only SETCLS and the two events that end a connection write the control lines (43_cdc_control.md section 3). -/
theorem rule_cls_of_not_writer {i : Instr} (hset : ∀ v, i ≠ .setcls v) (hreset : i ≠ .eorst) (hoff : i ≠ .vbusoff) (k : Block) :
    (rule i k).1.cls = k.cls := by
  cases i with
  | setcls v => exact absurd rfl (hset v)
  | eorst => exact absurd rfl hreset
  | vbusoff => exact absurd rfl hoff
  | nop | rxocc | txocc | csrrd | ctluns => rfl
  | tick => rw [rule, ruleTick_eq]
  | rxpush | rxpop | txpush | txpop | ringrst | instep | outstep =>
    simp only [rule, ruleRxpush, ruleRxpop, ruleTxpush, ruleTxpop, ruleRingrst, ruleInstep, ruleOutstep]
    split_ifs <;> rfl
  | vbuson | suspend | wake | addressed | setcfg =>
    simp only [rule, ruleVbuson, ruleSuspend, ruleWake, ruleAddressed, ruleSetcfg]
    split_ifs <;> rfl
  | getlc | setlc | sendbrk =>
    simp only [rule, ruleGetlc, ruleSetlc, ruleSendbrk]
    split_ifs <;> rfl

/-! ### The timers -/

/-- The flush timer's two elements (10_state.md R29, R31). -/
def flushFields (k : Block) : Byte × Bool := (k.flushCnt, k.flushPend)

/-- Everything a command can do to the flush timer: in BRIDGE a tick counts or elapses and a drain clears the mark, and a configuration
clears both (44_arbiter.md R141, R145; 42_usb_state.md R115). -/
theorem rule_flushFields_cases (i : Instr) (k : Block) :
    flushFields (rule i k).1 = flushFields k
    ∨ (i = .tick ∧ k.bridge = true ∧ k.flushCnt.toNat + 1 = k.cfg.flushTicks ∧ flushFields (rule i k).1 = (0, true))
    ∨ (i = .tick ∧ k.bridge = true ∧ k.flushCnt.toNat + 1 ≠ k.cfg.flushTicks
        ∧ flushFields (rule i k).1 = (k.flushCnt + 1, k.flushPend))
    ∨ ((∃ r, i = .instep r) ∧ k.bridge = true ∧ flushFields (rule i k).1 = (k.flushCnt, false))
    ∨ ((∃ c, c ≠ 0 ∧ i = .setcfg c) ∧ flushFields (rule i k).1 = (0, false)) := by
  cases i with
  | tick =>
    cases hbridge : k.bridge with
    | false => simp [rule, ruleTick_eq, flushFields, hbridge]
    | true =>
      by_cases hperiod : k.flushCnt.toNat + 1 = k.cfg.flushTicks <;> simp [rule, ruleTick_eq, flushFields, hbridge, hperiod]
  | instep r =>
    simp only [rule, ruleInstep]
    split_ifs with hidle
    · exact .inl rfl
    · exact .inr (.inr (.inr (.inl ⟨⟨r, rfl⟩, Bool.eq_true_of_not_eq_false (not_or.1 hidle).1, rfl⟩)))
    · exact .inl rfl
  | setcfg c =>
    simp only [rule, ruleSetcfg]
    split_ifs with hstate hc
    · exact .inr (.inr (.inr (.inr ⟨⟨c, hc, rfl⟩, rfl⟩)))
    · exact .inl rfl
    · exact .inl rfl
  | nop | rxocc | txocc | csrrd | ctluns | eorst => exact .inl rfl
  | rxpush | rxpop | txpush | txpop | ringrst | outstep =>
    left
    simp only [rule, ruleRxpush, ruleRxpop, ruleTxpush, ruleTxpop, ruleRingrst, ruleOutstep]
    split_ifs <;> rfl
  | vbusoff | vbuson | suspend | wake | addressed =>
    left
    simp only [rule, ruleVbusoff, ruleVbuson, ruleSuspend, ruleWake, ruleAddressed]
    split_ifs <;> rfl
  | getlc | setlc | setcls | sendbrk =>
    left
    simp only [rule, ruleGetlc, ruleSetlc, ruleSetcls, ruleSendbrk]
    split_ifs <;> rfl

/-- Everything a command can do to the two pulses: a tick counts them down, a byte read from RX or stored in TX by the scheduler arms its
own (44_arbiter.md R148, R149). -/
theorem rule_pulses_cases (i : Instr) (k : Block) :
    ((rule i k).1.pulseRx = k.pulseRx ∧ (rule i k).1.pulseTx = k.pulseTx)
    ∨ (i = .tick ∧ (rule i k).1.pulseRx = countDown k.pulseRx ∧ (rule i k).1.pulseTx = countDown k.pulseTx)
    ∨ ((i = .rxpop ∨ ∃ r, i = .instep r) ∧ (rule i k).1.pulseRx = pulseLoad k ∧ (rule i k).1.pulseTx = k.pulseTx)
    ∨ (((∃ b, i = .txpush b) ∨ ∃ bytes, i = .outstep bytes)
        ∧ (rule i k).1.pulseRx = k.pulseRx ∧ (rule i k).1.pulseTx = pulseLoad k) := by
  cases i with
  | tick => exact .inr (.inl ⟨rfl, by rw [rule, ruleTick_eq], by rw [rule, ruleTick_eq]⟩)
  | rxpop =>
    simp only [rule, ruleRxpop]
    split_ifs with hempty
    · exact .inl ⟨rfl, rfl⟩
    · exact .inr (.inr (.inl ⟨.inl trivial, rfl, rfl⟩))
  | instep r =>
    simp only [rule, ruleInstep]
    split_ifs with hidle hdue
    · exact .inl ⟨rfl, rfl⟩
    · exact .inr (.inr (.inl ⟨.inr ⟨r, rfl⟩, rfl, rfl⟩))
    · exact .inl ⟨rfl, rfl⟩
  | txpush b =>
    simp only [rule, ruleTxpush]
    split_ifs with hrefused
    · exact .inl ⟨rfl, rfl⟩
    · exact .inr (.inr (.inr ⟨.inl ⟨b, rfl⟩, rfl, rfl⟩))
  | outstep bytes =>
    simp only [rule, ruleOutstep]
    split_ifs with hwait hroom hnone
    · exact .inl ⟨rfl, rfl⟩
    · exact .inl ⟨rfl, rfl⟩
    · exact .inr (.inr (.inr ⟨.inr ⟨bytes, rfl⟩, rfl, rfl⟩))
    · exact .inl ⟨rfl, rfl⟩
  | nop | rxocc | txocc | csrrd | ctluns | eorst => exact .inl ⟨rfl, rfl⟩
  | rxpush | txpop | ringrst =>
    left
    simp only [rule, ruleRxpush, ruleTxpop, ruleRingrst]
    split_ifs <;> exact ⟨rfl, rfl⟩
  | vbusoff | vbuson | suspend | wake | addressed | setcfg =>
    left
    simp only [rule, ruleVbusoff, ruleVbuson, ruleSuspend, ruleWake, ruleAddressed, ruleSetcfg]
    split_ifs <;> exact ⟨rfl, rfl⟩
  | getlc | setlc | setcls | sendbrk =>
    left
    simp only [rule, ruleGetlc, ruleSetlc, ruleSetcls, ruleSendbrk]
    split_ifs <;> exact ⟨rfl, rfl⟩

end Sys2Proof.Machine
end

section
/-!
PROOFS. The invariant of the reachable states (10_state.md sections 3 to 5): it holds after block reset and every step keeps it. It is kept
part by part; each part reads few elements, and a rule that does not write them keeps it for free.
-/
namespace Sys2Proof.Machine

/-! ### The parts of the invariant -/

/-- Both rings are in range and canonical, and empty in WAIT (10_state.md R18, R44). -/
structure RingsInv (k : Block) : Prop where
  rx : RingOk k.cfg.nRx k.rx
  tx : RingOk k.cfg.nTx k.tx
  wait : k.bridge = false → k.rx.w = k.rx.r ∧ k.tx.w = k.tx.r

/-- The timers are in range, and the flush timer is clear in WAIT (10_state.md R31, R32; 44_arbiter.md R138). -/
structure TimersInv (k : Block) : Prop where
  wait : k.bridge = false → k.flushCnt = 0 ∧ k.flushPend = false
  flushBelow : k.flushCnt.toNat < k.cfg.flushTicks
  pulsesBelow : k.pulseRx.toNat ≤ k.cfg.pulseTicks ∧ k.pulseTx.toNat ≤ k.cfg.pulseTicks

/-- The enables and the saved state fit the device state (10_state.md R24, R25, R27). -/
structure DeviceInv (k : Block) : Prop where
  enables : k.ienWake = decide (k.state = .suspended) ∧ k.ienSusp = decide (k.state ≠ .suspended)
  savedState : if k.state = .suspended then isPowered k.prev = true else k.prev = .unattached
  configured : k.state = .configured ∨ k.prev = .configured → k.config ≠ 0

/-- The fault record is one that faults leave (60_exceptions.md R157, R158). -/
structure FaultInv (k : Block) : Prop where
  codes : k.faultCode.toNat ≤ 5
  record : k.faultCode = 0 → k.faultMulti = false ∧ k.faultCmd = 0

/-- The line encoding is the default or a valid one (43_cdc_control.md R125, R126). -/
def EncodingInv (k : Block) : Prop :=
  (k.lcBaud = 0 ∧ k.lcFmt = 0 ∧ k.lcParity = 0 ∧ k.lcBits = 0) ∨ validEncoding k.lcFmt k.lcParity k.lcBits = true

/-- All of the invariant but that the mode is GATE, which no rule but only `gate_update` restores. -/
structure InvButMode (k : Block) : Prop where
  parameters : configOk k.cfg = true
  rings : RingsInv k
  timers : TimersInv k
  device : DeviceInv k
  fault : FaultInv k
  encoding : EncodingInv k

theorem inv_iff {k : Block} : k.Inv ↔ InvButMode k ∧ GateInSync k := by
  constructor
  · rintro ⟨hcfg, hrx, htx, hsync, hwait, htimer, hien, hsaved, hconf, hflush, hpulses, hcodes, hrecord, henc⟩
    exact ⟨⟨hcfg, ⟨hrx, htx, hwait⟩, ⟨htimer, hflush, hpulses⟩, ⟨hien, hsaved, hconf⟩, ⟨hcodes, hrecord⟩, henc⟩, hsync⟩
  · rintro ⟨⟨hcfg, ⟨hrx, htx, hwait⟩, ⟨htimer, hflush, hpulses⟩, ⟨hien, hsaved, hconf⟩, ⟨hcodes, hrecord⟩, henc⟩, hsync⟩
    exact ⟨hcfg, hrx, htx, hsync, hwait, htimer, hien, hsaved, hconf, hflush, hpulses, hcodes, hrecord, henc⟩

/-! ### What well-formed parameters give -/

theorem ringSizes_of_configOk {c : Config} (h : configOk c = true) : isRingSize c.nRx = true ∧ isRingSize c.nTx = true := by
  obtain ⟨hrx, htx, -⟩ := (configOk_iff c).1 h
  exact ⟨hrx, htx⟩

theorem ticks_of_configOk {c : Config} (h : configOk c = true) :
    1 ≤ c.flushTicks ∧ c.flushTicks ≤ 255 ∧ c.pulseTicks ≤ 255 := by
  obtain ⟨-, -, -, -, -, -, -, -, -, -, hlow, hhigh, -, hpulse⟩ := (configOk_iff c).1 h
  exact ⟨hlow, hhigh, hpulse⟩

theorem Block.Inv.rxSize {k : Block} (h : k.Inv) : isRingSize k.cfg.nRx = true := (ringSizes_of_configOk h.parameters).1

theorem Block.Inv.txSize {k : Block} (h : k.Inv) : isRingSize k.cfg.nTx = true := (ringSizes_of_configOk h.parameters).2

/-! ### After block reset -/

theorem Ring.reset_ok (n : Nat) : RingOk n Ring.reset := ⟨Nat.zero_le _, Nat.zero_le _, rfl, rfl⟩

theorem Block.reset_inv {cfg : Config} (h : configOk cfg = true) : (Block.reset cfg).Inv where
  parameters := h
  rxRing := Ring.reset_ok _
  txRing := Ring.reset_ok _
  gateInSync := rfl
  waitRings _ := ⟨rfl, rfl⟩
  waitTimer _ := ⟨rfl, rfl⟩
  enables := ⟨rfl, rfl⟩
  savedState := rfl
  configured := nofun
  flushBelow := (ticks_of_configOk h).1
  pulsesBelow := ⟨Nat.zero_le _, Nat.zero_le _⟩
  faultCodes := Nat.zero_le _
  faultRecord _ := ⟨rfl, rfl⟩
  encoding := .inl ⟨rfl, rfl, rfl, rfl⟩

/-- Settles O13: the block after reset meets each part, with any well-formed parameters and so with those of REF-A. -/
theorem resetHasTheInvariant : Obligations.ResetHasTheInvariant :=
  ⟨fun _ => Block.reset_inv, Block.reset_inv (by decide)⟩

/-! ### The rules keep each part -/

/-- In WAIT with an empty RX ring a command at most resets it. -/
theorem rxOp_of_wait {k : Block} (hwait : k.bridge = false) (hempty : k.rx.w = k.rx.r) (i : Instr) :
    rxOp i k = .keep ∨ rxOp i k = .clear := by
  obtain hop | ⟨b, -, hbridge, -⟩ | ⟨-, hne, -⟩ | ⟨-, hbridge, -⟩ | ⟨-, hop⟩ := rxOp_cases i k
  · exact .inl hop
  · simp [hwait] at hbridge
  · exact absurd hempty hne
  · simp [hwait] at hbridge
  · exact .inr hop

/-- In WAIT with an empty TX ring a command at most resets it. -/
theorem txOp_of_wait {k : Block} (hwait : k.bridge = false) (hempty : k.tx.w = k.tx.r) (i : Instr) :
    txOp i k = .keep ∨ txOp i k = .clear := by
  obtain hop | ⟨b, -, hbridge, -⟩ | ⟨bytes, -, hbridge, -⟩ | ⟨-, hne, -⟩ | ⟨-, hop⟩ := txOp_cases i k
  · exact .inl hop
  · simp [hwait] at hbridge
  · simp [hwait] at hbridge
  · exact absurd hempty hne
  · exact .inr hop

/-- Keeping or resetting a ring with equal cursors leaves it with equal cursors. -/
theorem RingOp.cursors_eq {op : RingOp} (hop : op = .keep ∨ op = .clear) (mask : Byte) {q : Ring} (hempty : q.w = q.r) :
    (op.apply mask q).w = (op.apply mask q).r := by
  obtain rfl | rfl := hop
  · exact hempty
  · rfl

theorem rule_ringsInv {k : Block} (h : k.Inv) (i : Instr) : RingsInv (rule i k).1 where
  rx := by
    rw [rule_cfg, rule_rx h.rxSize h.rxRing]
    exact RingOp.apply_ok h.rxSize h.rxRing (rxOp_fits h.rxSize h.rxRing i)
  tx := by
    rw [rule_cfg, rule_tx h.txSize h.txRing]
    exact RingOp.apply_ok h.txSize h.txRing (txOp_fits h.txSize h.txRing i)
  wait hwait := by
    rw [rule_bridge] at hwait
    obtain ⟨hrx, htx⟩ := h.waitRings hwait
    rw [rule_rx h.rxSize h.rxRing, rule_tx h.txSize h.txRing]
    exact ⟨RingOp.cursors_eq (rxOp_of_wait hwait hrx i) _ hrx, RingOp.cursors_eq (txOp_of_wait hwait htx i) _ htx⟩

theorem flushFields_eq_iff {k : Block} {c : Byte} {p : Bool} : flushFields k = (c, p) ↔ k.flushCnt = c ∧ k.flushPend = p := by
  simp [flushFields]

theorem pulseLoad_toNat {k : Block} (h : configOk k.cfg = true) : (pulseLoad k).toNat = k.cfg.pulseTicks := by
  obtain ⟨-, -, hle⟩ := ticks_of_configOk h
  rw [pulseLoad, BitVec.toNat_ofNat]
  omega

/-- A tick below the period raises the flush count by one. -/
theorem flushCnt_succ {k : Block} (h : k.Inv) : (k.flushCnt + 1).toNat = k.flushCnt.toNat + 1 := by
  obtain ⟨-, hle, -⟩ := ticks_of_configOk h.parameters
  have hbelow := h.flushBelow
  rw [BitVec.toNat_add, show (1 : Byte).toNat = 1 from rfl]
  omega

theorem rule_timersInv {k : Block} (h : k.Inv) (i : Instr) : TimersInv (rule i k).1 where
  wait hwait := by
    rw [rule_bridge] at hwait
    obtain hsame | ⟨-, hbridge, -⟩ | ⟨-, hbridge, -⟩ | ⟨-, hbridge, -⟩ | ⟨-, hclear⟩ := rule_flushFields_cases i k
    · obtain ⟨hcnt, hpend⟩ := flushFields_eq_iff.1 hsame
      rw [hcnt, hpend]
      exact h.waitTimer hwait
    · simp [hwait] at hbridge
    · simp [hwait] at hbridge
    · simp [hwait] at hbridge
    · exact flushFields_eq_iff.1 hclear
  flushBelow := by
    have hbelow := h.flushBelow
    rw [rule_cfg]
    obtain hsame | ⟨-, -, -, hzero⟩ | ⟨-, -, hmore, hcount⟩ | ⟨-, -, hdrain⟩ | ⟨-, hzero⟩ := rule_flushFields_cases i k
    · rw [(flushFields_eq_iff.1 hsame).1]
      exact hbelow
    · rw [(flushFields_eq_iff.1 hzero).1]
      exact (ticks_of_configOk h.parameters).1
    · rw [(flushFields_eq_iff.1 hcount).1, flushCnt_succ h]
      omega
    · rw [(flushFields_eq_iff.1 hdrain).1]
      exact hbelow
    · rw [(flushFields_eq_iff.1 hzero).1]
      exact (ticks_of_configOk h.parameters).1
  pulsesBelow := by
    obtain ⟨hrx, htx⟩ := h.pulsesBelow
    rw [rule_cfg]
    obtain ⟨hprx, hptx⟩ | ⟨-, hprx, hptx⟩ | ⟨-, hprx, hptx⟩ | ⟨-, hprx, hptx⟩ := rule_pulses_cases i k <;> rw [hprx, hptx]
    · exact ⟨hrx, htx⟩
    · rw [countDown_toNat, countDown_toNat]
      omega
    · exact ⟨(pulseLoad_toNat h.parameters).le, htx⟩
    · exact ⟨hrx, (pulseLoad_toNat h.parameters).le⟩

/-- A wake never targets Suspended, and targets Configured from Configured only (42_usb_state.md R105). -/
theorem wakeTarget_of_powered {saved : DevState} (h : isPowered saved = true) :
    wakeTarget saved ≠ .suspended ∧ (wakeTarget saved = .configured → saved = .configured) := by
  cases saved with
  | powered | default | addressed => exact ⟨nofun, nofun⟩
  | configured => exact ⟨nofun, fun _ => rfl⟩
  | unattached | suspended => cases h

/-- Outside Suspended, with no saved state and only suspend detection on, is what every event but SUSPEND leaves. -/
theorem DeviceInv.of_awake {k : Block} (hstate : k.state ≠ .suspended) (hprev : k.prev = .unattached) (hsusp : k.ienSusp = true)
    (hwake : k.ienWake = false) (hconf : k.state = .configured → k.config ≠ 0) : DeviceInv k where
  enables := by simp [hstate, hsusp, hwake]
  savedState := by rw [if_neg hstate, hprev]
  configured := by simpa [hprev] using hconf

/-- Outside Suspended the invariant fixes the saved state and both enables. -/
theorem DeviceInv.awake {k : Block} (h : DeviceInv k) (hstate : k.state ≠ .suspended) :
    k.prev = .unattached ∧ k.ienSusp = true ∧ k.ienWake = false := by
  obtain ⟨⟨hwake, hsusp⟩, hsaved, -⟩ := h
  simp_all

/-- The two states in which SETCFG acts are outside Suspended. -/
theorem ne_suspended_of_addressed_or_configured {d : DevState} (h : d = .addressed ∨ d = .configured) : d ≠ .suspended := by
  obtain rfl | rfl := h <;> exact nofun

theorem rule_deviceInv {k : Block} (h : DeviceInv k) (i : Instr) : DeviceInv (rule i k).1 := by
  by_cases hi : isDeviceEvent i = true
  case neg =>
    obtain ⟨hstate, hprev, hconf, hsusp, hwake⟩ := deviceFields_eq_iff.1 (rule_deviceFields_of_not_event hi k)
    obtain ⟨hen, hsaved, hnum⟩ := h
    exact ⟨by rwa [hstate, hsusp, hwake], by rwa [hstate, hprev], by rwa [hstate, hprev, hconf]⟩
  cases i with
  | vbuson =>
    by_cases hstate : k.state = .unattached
    · obtain ⟨hprev, hsusp, hwake⟩ := h.awake (by simp [hstate])
      rw [rule, ruleVbuson_of_unattached hstate]
      exact .of_awake nofun hprev hsusp hwake nofun
    · rwa [rule, ruleVbuson_of_attached hstate]
  | vbusoff =>
    by_cases hstate : k.state = .unattached
    · rwa [rule, ruleVbusoff_of_unattached hstate]
    · rw [rule, ruleVbusoff_of_attached hstate]
      exact .of_awake nofun rfl rfl rfl nofun
  | suspend =>
    by_cases hon : k.ienSusp = true ∧ isPowered k.state = true
    · rw [rule, ruleSuspend_of_enabled hon.1 hon.2]
      exact ⟨⟨rfl, rfl⟩, hon.2, fun hc => h.configured (.inl (hc.resolve_left nofun))⟩
    · rwa [rule, ruleSuspend, if_neg hon]
  | wake =>
    by_cases hon : k.ienWake = true ∧ k.state = .suspended
    · have hsaved : isPowered k.prev = true := by simpa [hon.2] using h.savedState
      obtain ⟨hawake, htarget⟩ := wakeTarget_of_powered hsaved
      rw [rule, ruleWake_of_suspended hon.1 hon.2]
      exact .of_awake hawake rfl rfl rfl fun hc => h.configured (.inr (htarget hc))
    · rwa [rule, ruleWake, if_neg hon]
  | eorst => exact .of_awake nofun rfl rfl rfl nofun
  | addressed =>
    by_cases hstate : k.state = .default
    · obtain ⟨hprev, hsusp, hwake⟩ := h.awake (by simp [hstate])
      rw [rule, ruleAddressed_of_default hstate]
      exact .of_awake nofun hprev hsusp hwake nofun
    · rwa [rule, ruleAddressed_of_not_default hstate]
  | setcfg c =>
    by_cases hstate : k.state = .addressed ∨ k.state = .configured
    · obtain ⟨hprev, hsusp, hwake⟩ := h.awake (ne_suspended_of_addressed_or_configured hstate)
      by_cases hc : c = 0
      · rw [hc, rule, ruleSetcfg_zero hstate]
        exact .of_awake nofun hprev hsusp hwake nofun
      · rw [rule, ruleSetcfg_of_nonzero hstate hc]
        exact .of_awake nofun hprev hsusp hwake fun _ => hc
    · rwa [rule, ruleSetcfg_of_other hstate]
  | _ => cases hi

theorem FaultInv.of_record_eq {k k' : Block} (h : FaultInv k) (heq : faultRecord k' = faultRecord k) : FaultInv k' := by
  obtain ⟨hcode, hmulti, hcmd⟩ := faultRecord_eq_iff.1 heq
  obtain ⟨hcodes, hrecord⟩ := h
  exact ⟨by rwa [hcode], by rwa [hcode, hmulti, hcmd]⟩

theorem rule_encodingInv {k : Block} (h : EncodingInv k) (i : Instr) : EncodingInv (rule i k).1 := by
  obtain hsame | ⟨b, f, p, d, -, hvalid, hnew⟩ := rule_lineFields_cases i k
  · obtain ⟨hb, hf, hp, hd⟩ := lineFields_eq_iff.1 hsame
    unfold EncodingInv
    rwa [hb, hf, hp, hd]
  · simp only [lineFields, Prod.mk.injEq] at hnew
    obtain ⟨-, hf, hp, hd⟩ := hnew
    exact .inr (by rwa [hf, hp, hd])

/-- Every rule keeps the invariant but for the mode. -/
theorem rule_invButMode {k : Block} (h : k.Inv) (i : Instr) : InvButMode (rule i k).1 where
  parameters := by rw [rule_cfg]; exact h.parameters
  rings := rule_ringsInv h i
  timers := rule_timersInv h i
  device := rule_deviceInv (inv_iff.1 h).1.device i
  fault := (inv_iff.1 h).1.fault.of_record_eq (rule_faultRecord i k)
  encoding := rule_encodingInv h.encoding i

/-! ### The mode update restores the whole invariant -/

/-- The exit actions leave both rings empty and the timers clear, which is what WAIT asks for. -/
theorem exitActions_invButMode {k : Block} (h : InvButMode k) : InvButMode { exitActions k with bridge := false } where
  parameters := h.parameters
  rings := ⟨ringReset_ok h.rings.rx, ringReset_ok h.rings.tx, fun _ => ⟨rfl, rfl⟩⟩
  timers := ⟨fun _ => ⟨rfl, rfl⟩, (ticks_of_configOk h.parameters).1, Nat.zero_le _, Nat.zero_le _⟩
  device := ⟨h.device.enables, h.device.savedState, h.device.configured⟩
  fault := ⟨h.fault.codes, h.fault.record⟩
  encoding := h.encoding

/-- Nothing is asked of BRIDGE that is not asked of WAIT. -/
theorem enterBridge_invButMode {k : Block} (h : InvButMode k) : InvButMode { k with bridge := true } where
  parameters := h.parameters
  rings := ⟨h.rings.rx, h.rings.tx, nofun⟩
  timers := ⟨nofun, h.timers.flushBelow, h.timers.pulsesBelow⟩
  device := ⟨h.device.enables, h.device.savedState, h.device.configured⟩
  fault := ⟨h.fault.codes, h.fault.record⟩
  encoding := h.encoding

theorem gateUpdate_inv {k : Block} (h : InvButMode k) : (gateUpdate k).Inv := by
  refine inv_iff.2 ⟨?_, gateUpdate_inSync k⟩
  obtain ⟨-, -, heq⟩ | ⟨-, -, heq⟩ | ⟨-, heq⟩ := gateUpdate_cases k <;> rw [heq]
  · exact exitActions_invButMode h
  · exact enterBridge_invButMode h
  · exact h

/-! ### Executions and steps -/

/-- Every command keeps the invariant. -/
theorem exec_inv {i : Instr} {s t : State} (hinv : s.Inv) (h : exec i s = .next t) : t.Inv := by
  obtain ⟨hblock, -, -⟩ := exec_next h
  rw [State.Inv, hblock]
  exact gateUpdate_inv (rule_invButMode hinv i)

theorem code_le (e : FaultCode) : e.code.toNat ≤ 5 := by
  cases e <;> decide

/-- Taking a fault writes the fault record only, and leaves there what the invariant allows. -/
theorem recordFault_inv {k : Block} (h : k.Inv) (e : FaultCode) (w : Word) : (recordFault e w k).Inv := by
  by_cases hnone : k.faultCode = 0
  · rw [recordFault_of_none hnone]
    exact { h with faultCodes := code_le e, faultRecord := fun hcode => absurd hcode (code_ne_zero e) }
  · rw [recordFault_of_recorded hnone]
    exact { h with faultRecord := fun hcode => absurd hcode hnone }

/-- Settles O14: waiting keeps the block, reset has the invariant, a fault and a command keep it. -/
theorem stepKeepsTheInvariant : Obligations.StepKeepsTheInvariant := by
  intro s t hinv hstep
  obtain ⟨-, h⟩ | ⟨-, ⟨-, h⟩ | ⟨rest, -, h⟩ | ⟨c, rest, e, -, -, h⟩ | ⟨c, rest, i, -, -, h⟩⟩ := step_cases s <;> rw [h] at hstep
  · cases hstep
  · cases hstep
    exact hinv
  · cases hstep
    exact Block.reset_inv hinv.parameters
  · cases hstep
    exact recordFault_inv hinv e c.word
  · exact exec_inv (s := { s with inbox := rest }) hinv hstep

end Sys2Proof.Machine
end

section
/-!
PROOFS. The rings as queues (41_ring.md sections 1 to 3): which bytes of the arrays a command writes, how many a ring holds, and that both
rings refine queues, command by command and over sequences of pushes and pops.
-/
namespace Sys2Proof.Machine

/-! ### The queues before and after -/

/-- A ring has room exactly while its queue is shorter than `N - 1`. -/
theorem occ_ne_mask_iff {n : Nat} (h : isRingSize n = true) (q : Ring) :
    occ (maskOf n) q ≠ maskOf n ↔ (queue (maskOf n) q).length < n - 1 := by
  have hlt := occ_lt h q
  rw [queue_length, ne_eq, ← decide_eq_true_iff (p := occ (maskOf n) q = maskOf n), ← isFull, isFull_iff h]
  omega

/-- A ring with equal cursors is the empty queue, and only such a ring. -/
theorem queue_eq_nil_iff {n : Nat} (h : isRingSize n = true) {q : Ring} (hq : RingOk n q) :
    queue (maskOf n) q = [] ↔ q.w = q.r := by
  rw [← List.length_eq_zero_iff, queue_length, ← isEmpty_iff h hq, isEmpty, decide_eq_true_iff]

theorem rxQueue_length_le {k : Block} (h : k.Inv) : (rxQueue k).length ≤ k.cfg.nRx - 1 :=
  (queue_length _ _).trans_le (occ_le h.rxSize k.rx)

theorem txQueue_length_le {k : Block} (h : k.Inv) : (txQueue k).length ≤ k.cfg.nTx - 1 :=
  (queue_length _ _).trans_le (occ_le h.txSize k.tx)

/-- The rule of a command does its operation to the RX queue. -/
theorem rxQueue_rule {k : Block} (h : k.Inv) (i : Instr) : rxQueue (rule i k).1 = (rxOp i k).onQueue (rxQueue k) := by
  rw [rxQueue, maskRx, rule_cfg, rule_rx h.rxSize h.rxRing]
  exact RingOp.queue_apply h.rxSize h.rxRing (rxOp_fits h.rxSize h.rxRing i)

/-- The rule of a command does its operation to the TX queue. -/
theorem txQueue_rule {k : Block} (h : k.Inv) (i : Instr) : txQueue (rule i k).1 = (txOp i k).onQueue (txQueue k) := by
  rw [txQueue, maskTx, rule_cfg, rule_tx h.txSize h.txRing]
  exact RingOp.queue_apply h.txSize h.txRing (txOp_fits h.txSize h.txRing i)

/-- A data command leaves the block that its rule leaves. -/
theorem exec_data {i : Instr} {s t : State} (hinv : s.Inv) (hd : isDataCommand i = true) (h : exec i s = .next t) :
    t.block = (rule i s.block).1 := by
  obtain ⟨hblock, -, -⟩ := exec_next h
  rw [hblock, gateUpdate_data hinv.gateInSync hd]

/-- A data command keeps the mode and the parameters. -/
theorem exec_data_bridge_cfg {i : Instr} {s t : State} (hinv : s.Inv) (hd : isDataCommand i = true) (h : exec i s = .next t) :
    t.block.bridge = s.block.bridge ∧ t.block.cfg = s.block.cfg := by
  rw [exec_data hinv hd h]
  exact ⟨rule_bridge i _, rule_cfg i _⟩

theorem exec_data_rxQueue {i : Instr} {s t : State} (hinv : s.Inv) (hd : isDataCommand i = true) (h : exec i s = .next t) :
    rxQueue t.block = (rxOp i s.block).onQueue (rxQueue s.block) := by
  rw [exec_data hinv hd h, rxQueue_rule hinv]

theorem exec_data_txQueue {i : Instr} {s t : State} (hinv : s.Inv) (hd : isDataCommand i = true) (h : exec i s = .next t) :
    txQueue t.block = (txOp i s.block).onQueue (txQueue s.block) := by
  rw [exec_data hinv hd h, txQueue_rule hinv]

/-- After an exit from BRIDGE both queues are empty; otherwise each is what the command's operation makes of it. -/
theorem exec_queues {i : Instr} {s t : State} (hinv : s.Inv) (h : exec i s = .next t) :
    (LeavesBridge s.block t.block ∧ rxQueue t.block = [] ∧ txQueue t.block = [])
    ∨ (¬LeavesBridge s.block t.block ∧ rxQueue t.block = (rxOp i s.block).onQueue (rxQueue s.block)
        ∧ txQueue t.block = (txOp i s.block).onQueue (txQueue s.block)) := by
  obtain ⟨hleaves, hblock⟩ | ⟨hstays, hblock⟩ := exec_block_cases h
  · exact .inl ⟨hleaves, by rw [hblock]; exact ⟨queue_ringReset _ _, queue_ringReset _ _⟩⟩
  · exact .inr ⟨hstays, by rw [← rxQueue_rule hinv, hblock]; rfl, by rw [← txQueue_rule hinv, hblock]; rfl⟩

/-! ### Pushes and transfers on the queues -/

theorem rxOp_rxpush_onQueue {k : Block} (h : k.Inv) (b : Byte) : (rxOp (.rxpush b) k).onQueue (rxQueue k) =
    if k.bridge = true ∧ (rxQueue k).length < k.cfg.nRx - 1 then rxQueue k ++ [b] else rxQueue k := by
  have hroom : occ (maskRx k) k.rx ≠ maskRx k ↔ (rxQueue k).length < k.cfg.nRx - 1 := occ_ne_mask_iff h.rxSize k.rx
  simp only [rxOp, hroom]
  split_ifs <;> rfl

theorem txOp_txpush_onQueue {k : Block} (h : k.Inv) (b : Byte) : (txOp (.txpush b) k).onQueue (txQueue k) =
    if k.bridge = true ∧ (txQueue k).length < k.cfg.nTx - 1 then txQueue k ++ [b] else txQueue k := by
  have hroom : occ (maskTx k) k.tx ≠ maskTx k ↔ (txQueue k).length < k.cfg.nTx - 1 := occ_ne_mask_iff h.txSize k.tx
  simp only [txOp, hroom]
  split_ifs <;> rfl

/-- Free space is what the queue leaves of the `N - 1` bytes. -/
theorem free_tx_toNat {k : Block} (h : k.Inv) : (free (maskTx k) k.tx).toNat = k.cfg.nTx - 1 - (txQueue k).length := by
  rw [maskTx, free_toNat h.txSize, txQueue, queue_length, maskTx]

theorem txOp_outstep_onQueue {k : Block} (h : k.Inv) (bytes : List Byte) : (txOp (.outstep bytes) k).onQueue (txQueue k) =
    if k.bridge = true ∧ (txQueue k).length + bytes.length ≤ k.cfg.nTx - 1 then txQueue k ++ bytes else txQueue k := by
  have hle := txQueue_length_le h
  have hroom : bytes.length ≤ (free (maskTx k) k.tx).toNat ↔ (txQueue k).length + bytes.length ≤ k.cfg.nTx - 1 := by
    rw [free_tx_toNat h]
    omega
  simp only [txOp, hroom]
  split_ifs <;> rfl

/-! ### Pops -/

/-- The answer of a pop from a queue (41_ring.md R94, R98). -/
def popAnswer : List Byte → Answer
  | [] => answerNo
  | v :: _ => answerValue v

/-- A ring whose cursors differ answers the head of its queue. -/
theorem popAnswer_of_ne {n : Nat} (h : isRingSize n = true) {q : Ring} (hq : RingOk n q) (hne : q.w ≠ q.r) :
    popAnswer (queue (maskOf n) q) = answerValue (headByte q) := by
  have hpos : 0 < (occ (maskOf n) q).toNat := Nat.pos_of_ne_zero (mt (isEmpty_iff h hq).2 (mt of_decide_eq_true hne))
  obtain ⟨tail, hqueue⟩ := List.head?_eq_some_iff.1 (headByte_eq h hq hpos)
  rw [hqueue, popAnswer]

theorem ruleRxpop_answer {k : Block} (h : k.Inv) : (ruleRxpop k).2 = popAnswer (rxQueue k) := by
  by_cases hne : k.rx.w = k.rx.r
  · rw [ruleRxpop_of_empty hne, rxQueue, queue_of_cursors_eq hne, popAnswer]
  · rw [ruleRxpop_of_nonempty hne]
    exact (popAnswer_of_ne h.rxSize h.rxRing hne).symm

theorem ruleTxpop_answer {k : Block} (h : k.Inv) : (ruleTxpop k).2 = popAnswer (txQueue k) := by
  by_cases hne : k.tx.w = k.tx.r
  · rw [ruleTxpop_of_empty hne, txQueue, queue_of_cursors_eq hne, popAnswer]
  · rw [ruleTxpop_of_nonempty hne]
    exact (popAnswer_of_ne h.txSize h.txRing hne).symm

theorem rxOp_rxpop_onQueue {k : Block} (h : k.Inv) : (rxOp .rxpop k).onQueue (rxQueue k) = (rxQueue k).tail := by
  have hnil := queue_eq_nil_iff h.rxSize h.rxRing
  simp only [rxOp]
  split_ifs with hempty
  · exact List.drop_one
  · rw [not_not, ← hnil] at hempty
    rw [rxQueue, maskRx, hempty, RingOp.onQueue, List.tail_nil]

theorem txOp_txpop_onQueue {k : Block} (h : k.Inv) : (txOp .txpop k).onQueue (txQueue k) = (txQueue k).tail := by
  have hnil := queue_eq_nil_iff h.txSize h.txRing
  simp only [txOp]
  split_ifs with hempty
  · exact List.drop_one
  · rw [not_not, ← hnil] at hempty
    rw [txQueue, maskTx, hempty, RingOp.onQueue, List.tail_nil]

/-- The response of a pop from a queue, on the port `p`. -/
def popResponse (p : BitVec 3) (bytes : List Byte) : Response :=
  match bytes with
  | [] => ⟨p, 0x1000, []⟩
  | v :: _ => ⟨p, 0x0100 + v.setWidth 16, []⟩

theorem popResponse_eq (p : BitVec 3) (bytes : List Byte) :
    ⟨p, responseWord (popAnswer bytes), (popAnswer bytes).payload⟩ = popResponse p bytes := by
  cases bytes with
  | nil => rfl
  | cons v _ => rw [popAnswer, responseWord_value]; rfl

/-! ### Drains -/

/-- The number of bytes an INSTEP drains: none where no drain is due (44_arbiter.md R139 to R141). -/
def instepCount (r : Bool) (k : Block) : Nat :=
  if k.bridge = true ∧ r = true ∧ drainDue k (occ (maskRx k) k.rx).toNat = true then drainCount k else 0

/-- The answer of an INSTEP that drains `n` bytes of a queue. -/
def instepAnswer (n : Nat) (bytes : List Byte) : Answer :=
  if n = 0 then answerNo else answerPayload (BitVec.ofNat 8 n) (bytes.take n)

theorem rxOp_instep_onQueue (r : Bool) (k : Block) :
    (rxOp (.instep r) k).onQueue (rxQueue k) = (rxQueue k).drop (instepCount r k) := by
  simp only [rxOp, instepCount]
  split_ifs <;> rfl

/-- A due drain moves a byte at least: the threshold and the endpoint size are at least 1 (00_scope.md R7). -/
theorem drainCount_pos {k : Block} (h : k.Inv) (hdue : drainDue k (occ (maskRx k) k.rx).toNat = true) : 0 < drainCount k := by
  obtain ⟨-, -, hthresh, -, -, hsize, -⟩ := (configOk_iff _).1 h.parameters
  have hpos : 0 < (occ (maskRx k) k.rx).toNat := by
    obtain hfull | ⟨-, hsome⟩ := drainDue_iff.1 hdue <;> omega
  exact lt_min hpos hsize

theorem ruleInstep_answer {k : Block} (h : k.Inv) (r : Bool) :
    (ruleInstep r k).2 = instepAnswer (instepCount r k) (rxQueue k) := by
  by_cases hdue : k.bridge = true ∧ r = true ∧ drainDue k (occ (maskRx k) k.rx).toNat = true
  · obtain ⟨hbridge, rfl, hdrain⟩ := hdue
    have hpos := (drainCount_pos h hdrain).ne'
    have htake : oldestBytes (maskRx k) (drainCount k) k.rx = (rxQueue k).take (drainCount k) :=
      oldestBytes_eq_take (min_le_left _ _)
    rw [ruleInstep_of_due hbridge hdrain, instepCount, if_pos ⟨hbridge, rfl, hdrain⟩, instepAnswer, if_neg hpos, htake]
  · have hnot : k.bridge = false ∨ r = false ∨ drainDue k (occ (maskRx k) k.rx).toNat ≠ true := by
      simpa [imp_iff_not_or] using hdue
    rw [ruleInstep_of_not_due hnot, instepCount, if_neg hdue, instepAnswer, if_pos rfl]

/-- The drained count in terms of the queue. -/
theorem instepCount_eq (r : Bool) (k : Block) : instepCount r k =
    if k.bridge = true ∧ r = true ∧ (k.cfg.thresh ≤ (rxQueue k).length ∨ k.flushPend = true ∧ rxQueue k ≠ [])
    then min (rxQueue k).length k.cfg.epInSize else 0 := by
  simp only [instepCount, drainDue_iff, drainCount, ← List.length_pos_iff, rxQueue, queue_length]

theorem instepCount_lt (r : Bool) (k : Block) : instepCount r k < 256 := by
  unfold instepCount
  split_ifs
  · exact drainCount_lt k
  · decide

theorem instepAnswer_response {n : Nat} (hn : n < 256) (p : BitVec 3) (bytes : List Byte) :
    (⟨p, responseWord (instepAnswer n bytes), (instepAnswer n bytes).payload⟩ : Response) =
      ⟨p, if n = 0 then 0x1000 else 0x0100 + BitVec.ofNat 16 n, bytes.take n⟩ := by
  unfold instepAnswer
  split_ifs with hzero
  · subst hzero
    rfl
  · rw [responseWord_payload_count hn]
    rfl

/-! ### The refinements -/

/-- Settles O27: each command's operation on the RX queue and its answer, from the lemmas above; every command but three keeps the
queue or empties it. -/
theorem rxRingIsAQueue : Obligations.RxRingIsAQueue := by
  intro s hinv
  refine ⟨fun b => ?push, ?pop, fun r => ?drain, fun i t hpush hpop hdrain h => ?others⟩
  case push =>
    refine ⟨_, exec_eq _ s, ?_⟩
    rw [exec_data_rxQueue hinv rfl (exec_eq _ s), rxOp_rxpush_onQueue hinv]
  case pop =>
    refine ⟨_, exec_eq _ s, ?_, ?_⟩
    · rw [exec_data_rxQueue hinv rfl (exec_eq _ s), rxOp_rxpop_onQueue hinv]
    · show s.responses ++ [⟨2, responseWord (ruleRxpop s.block).2, (ruleRxpop s.block).2.payload⟩] = _
      rw [ruleRxpop_answer hinv, popResponse_eq]
      rfl
  case drain =>
    refine ⟨_, instepCount r s.block, exec_eq _ s, instepCount_eq r s.block, ?_, ?_⟩
    · rw [exec_data_rxQueue hinv rfl (exec_eq _ s), rxOp_instep_onQueue]
    · show s.responses ++ [⟨2, responseWord (ruleInstep r s.block).2, (ruleInstep r s.block).2.payload⟩] = _
      rw [ruleInstep_answer hinv, instepAnswer_response (instepCount_lt r s.block)]
  case others =>
    obtain ⟨-, hnil, -⟩ | ⟨-, hqueue, -⟩ := exec_queues hinv h
    · exact .inr hnil
    · obtain hop | ⟨b, hi, -⟩ | ⟨hi, -⟩ | ⟨⟨r, hi⟩, -⟩ | ⟨-, hop⟩ := rxOp_cases i s.block
      · exact .inl (by rw [hqueue, hop, RingOp.onQueue])
      · exact absurd hi (hpush b)
      · exact absurd hi hpop
      · exact absurd hi (hdrain r)
      · exact .inr (by rw [hqueue, hop, RingOp.onQueue])

/-- Settles O28: as for the RX ring, with OUTSTEP in place of INSTEP. -/
theorem txRingIsAQueue : Obligations.TxRingIsAQueue := by
  intro s hinv
  refine ⟨fun b => ?push, fun bytes => ?transfer, ?pop, fun i t hpush htransfer hpop h => ?others⟩
  case push =>
    refine ⟨_, exec_eq _ s, ?_⟩
    rw [exec_data_txQueue hinv rfl (exec_eq _ s), txOp_txpush_onQueue hinv]
  case transfer =>
    refine ⟨_, exec_eq _ s, ?_⟩
    rw [exec_data_txQueue hinv rfl (exec_eq _ s), txOp_outstep_onQueue hinv]
  case pop =>
    refine ⟨_, exec_eq _ s, ?_, ?_⟩
    · rw [exec_data_txQueue hinv rfl (exec_eq _ s), txOp_txpop_onQueue hinv]
    · show s.responses ++ [⟨1, responseWord (ruleTxpop s.block).2, (ruleTxpop s.block).2.payload⟩] = _
      rw [ruleTxpop_answer hinv, popResponse_eq]
      rfl
  case others =>
    obtain ⟨-, -, hnil⟩ | ⟨-, -, hqueue⟩ := exec_queues hinv h
    · exact .inr hnil
    · obtain hop | ⟨b, hi, -⟩ | ⟨bytes, hi, -⟩ | ⟨hi, -⟩ | ⟨-, hop⟩ := txOp_cases i s.block
      · exact .inl (by rw [hqueue, hop, RingOp.onQueue])
      · exact absurd hi (hpush b)
      · exact absurd hi (htransfer bytes)
      · exact absurd hi hpop
      · exact .inr (by rw [hqueue, hop, RingOp.onQueue])

/-! ### Capacity -/

/-- Settles O20: a push with room lengthens the queue, so it cannot leave the ring as it was; one without room leaves it. -/
theorem capacityLaw : Obligations.CapacityLaw := by
  intro s hinv
  refine ⟨rxQueue_length_le hinv, txQueue_length_le hinv, fun b t h hbridge => ?rx, fun b t h hbridge => ?tx⟩
  case rx =>
    have hle := rxQueue_length_le hinv
    have hblock := exec_data hinv rfl h
    constructor
    · intro hfull
      have hocc : occ (maskRx s.block) s.block.rx = maskRx s.block :=
        not_not.1 (mt (occ_ne_mask_iff hinv.rxSize s.block.rx).1 hfull.not_lt)
      rw [hblock, rule, ruleRxpush_of_full hbridge hocc]
    · intro hsame
      by_contra hroom
      have hkept : rxQueue t.block = rxQueue s.block := by
        rw [rxQueue, maskRx, (exec_data_bridge_cfg hinv rfl h).2, hsame, rxQueue, maskRx]
      have hlonger : rxQueue t.block = rxQueue s.block ++ [b] := by
        rw [exec_data_rxQueue hinv rfl h, rxOp_rxpush_onQueue hinv, if_pos ⟨hbridge, by omega⟩]
      simp [hkept] at hlonger
  case tx =>
    have hle := txQueue_length_le hinv
    have hblock := exec_data hinv rfl h
    constructor
    · intro hfull
      have hocc : occ (maskTx s.block) s.block.tx = maskTx s.block :=
        not_not.1 (mt (occ_ne_mask_iff hinv.txSize s.block.tx).1 hfull.not_lt)
      rw [hblock, rule, ruleTxpush_of_wait_or_full (.inr hocc)]
    · intro hsame
      by_contra hroom
      have hkept : txQueue t.block = txQueue s.block := by
        rw [txQueue, maskTx, (exec_data_bridge_cfg hinv rfl h).2, hsame, txQueue, maskTx]
      have hlonger : txQueue t.block = txQueue s.block ++ [b] := by
        rw [exec_data_txQueue hinv rfl h, txOp_txpush_onQueue hinv, if_pos ⟨hbridge, by omega⟩]
      simp [hkept] at hlonger

/-! ### The bytes of the arrays -/

/-- A byte of the RX array outside the slots a command writes reads as before. -/
theorem exec_rx_read_other {i : Instr} {s t : State} (hinv : s.Inv) (h : exec i s = .next t) {a : Nat}
    (ha : ∀ j, j < (rxOp i s.block).appended.length → a ≠ (advance (maskRx s.block) s.block.rx.w (BitVec.ofNat 8 j)).toNat) :
    memRead a t.block.rx.buf = memRead a s.block.rx.buf := by
  obtain ⟨hblock, -, -⟩ := exec_next h
  rw [hblock, gateUpdate_rx_buf, rule_rx hinv.rxSize hinv.rxRing]
  exact RingOp.read_apply_other hinv.rxSize hinv.rxRing ha

/-- A slot of the RX array that a command writes reads as the byte written. -/
theorem exec_rx_read_slot {i : Instr} {s t : State} (hinv : s.Inv) (h : exec i s = .next t) {j : Nat}
    (hj : j < (rxOp i s.block).appended.length) :
    memRead (advance (maskRx s.block) s.block.rx.w (BitVec.ofNat 8 j)).toNat t.block.rx.buf
      = (rxOp i s.block).appended.getD j 0 := by
  obtain ⟨hblock, -, -⟩ := exec_next h
  rw [hblock, gateUpdate_rx_buf, rule_rx hinv.rxSize hinv.rxRing]
  exact RingOp.read_apply_slot hinv.rxSize hinv.rxRing
    (rxOp_fits hinv.rxSize hinv.rxRing i) hj

/-- A byte of the TX array outside the slots a command writes reads as before. -/
theorem exec_tx_read_other {i : Instr} {s t : State} (hinv : s.Inv) (h : exec i s = .next t) {a : Nat}
    (ha : ∀ j, j < (txOp i s.block).appended.length → a ≠ (advance (maskTx s.block) s.block.tx.w (BitVec.ofNat 8 j)).toNat) :
    memRead a t.block.tx.buf = memRead a s.block.tx.buf := by
  obtain ⟨hblock, -, -⟩ := exec_next h
  rw [hblock, gateUpdate_tx_buf, rule_tx hinv.txSize hinv.txRing]
  exact RingOp.read_apply_other hinv.txSize hinv.txRing ha

/-- A slot of the TX array that a command writes reads as the byte written. -/
theorem exec_tx_read_slot {i : Instr} {s t : State} (hinv : s.Inv) (h : exec i s = .next t) {j : Nat}
    (hj : j < (txOp i s.block).appended.length) :
    memRead (advance (maskTx s.block) s.block.tx.w (BitVec.ofNat 8 j)).toNat t.block.tx.buf
      = (txOp i s.block).appended.getD j 0 := by
  obtain ⟨hblock, -, -⟩ := exec_next h
  rw [hblock, gateUpdate_tx_buf, rule_tx hinv.txSize hinv.txRing]
  exact RingOp.read_apply_slot hinv.txSize hinv.txRing
    (txOp_fits hinv.txSize hinv.txRing i) hj

/-- The first slot that a command writes is the one at the write cursor. -/
theorem RingOk.advance_write_zero {n : Nat} {q : Ring} (hq : RingOk n q) (h : isRingSize n = true) :
    advance (maskOf n) q.w (BitVec.ofNat 8 0) = q.w :=
  advance_zero h (hq.write_lt h)

/-- Settles O18: the slots written are those of the bytes that the command's operation appends, which only a push or a transfer that is
accepted does. -/
theorem ringArraysFrame : Obligations.RingArraysFrame := by
  intro i s t hinv h
  have hrxFirst : advance (maskRx s.block) s.block.rx.w (BitVec.ofNat 8 0) = s.block.rx.w :=
    hinv.rxRing.advance_write_zero hinv.rxSize
  have htxFirst : advance (maskTx s.block) s.block.tx.w (BitVec.ofNat 8 0) = s.block.tx.w :=
    hinv.txRing.advance_write_zero hinv.txSize
  refine ⟨fun a ha => exec_rx_read_other hinv h ?rxOther, fun b hi hbridge hroom => ?rxSlot,
    fun a hpush htransfer => exec_tx_read_other hinv h ?txOther, fun b hi hbridge hroom => ?txSlot,
    fun bytes j hi hbridge hroom hj => ?transferSlot⟩
  case rxOther =>
    intro j hj
    obtain hop | ⟨b, hi, hbridge, hroom, hop⟩ | ⟨-, -, hop⟩ | ⟨-, -, hop⟩ | ⟨-, hop⟩ := rxOp_cases i s.block <;>
      rw [hop] at hj <;> simp only [RingOp.appended, List.length_singleton, List.length_nil, Nat.lt_one_iff, Nat.not_lt_zero] at hj
    rw [hj, hrxFirst]
    exact ha b hi hbridge hroom
  case rxSlot =>
    subst hi
    have hop : rxOp (.rxpush b) s.block = .append [b] := if_pos ⟨hbridge, hroom⟩
    have hslot := exec_rx_read_slot hinv h (j := 0) (by rw [hop]; exact Nat.one_pos)
    rwa [hop, hrxFirst] at hslot
  case txOther =>
    intro j hj
    obtain hop | ⟨b, hi, hbridge, hroom, hop⟩ | ⟨bytes, hi, hbridge, hroom, hop⟩ | ⟨-, -, hop⟩ | ⟨-, hop⟩ :=
      txOp_cases i s.block <;>
      rw [hop] at hj <;> simp only [RingOp.appended, List.length_singleton, List.length_nil, Nat.lt_one_iff, Nat.not_lt_zero] at hj
    · rw [hj, htxFirst]
      exact hpush b hi hbridge hroom
    · rw [free_toNat_sub] at hroom
      exact htransfer bytes j hi hbridge hroom hj
  case txSlot =>
    subst hi
    have hop : txOp (.txpush b) s.block = .append [b] := if_pos ⟨hbridge, hroom⟩
    have hslot := exec_tx_read_slot hinv h (j := 0) (by rw [hop]; exact Nat.one_pos)
    rwa [hop, htxFirst] at hslot
  case transferSlot =>
    subst hi
    rw [← free_toNat_sub] at hroom
    have hop : txOp (.outstep bytes) s.block = .append bytes := if_pos ⟨hbridge, hroom⟩
    have hslot := exec_tx_read_slot hinv h (j := j) (by rw [hop]; exact hj)
    rwa [hop] at hslot

/-! ### Sequences of pushes and pops -/

/-- A sequence of instructions after another. -/
theorem runAll_append (as bs : List Instr) (s : State) : runAll (as ++ bs) s = (runAll as s).bind (runAll bs) := by
  induction as generalizing s with
  | nil => rfl
  | cons i as ih => rw [List.cons_append, runAll_next (exec_eq i s), runAll_next (exec_eq i s), ih]

/-- What a push does, over a sequence of them: `P s l` says that in `s` the queue is `l`, and holds of no more than `room` bytes. -/
theorem runAll_pushes {P : State → List Byte → Prop} {push : Byte → Instr} {pushed : Response} {room : Nat}
    (hpush : ∀ s l b, P s l → l.length < room →
      ∃ t, exec (push b) s = .next t ∧ P t (l ++ [b]) ∧ t.responses = s.responses ++ [pushed])
    (bytes : List Byte) {s : State} {l : List Byte} (h : P s l) (hlen : l.length + bytes.length ≤ room) :
    ∃ u, runAll (bytes.map push) s = some u ∧ P u (l ++ bytes)
      ∧ u.responses = s.responses ++ bytes.map fun _ => pushed := by
  induction bytes generalizing s l with
  | nil => exact ⟨s, rfl, by simpa using h, by simp⟩
  | cons b bytes ih =>
    simp only [List.length_cons] at hlen
    obtain ⟨t, hexec, ht, hresp⟩ := hpush s l b h (by omega)
    obtain ⟨u, hrun, hu, hresp'⟩ := ih ht (by simp only [List.length_append, List.length_singleton]; omega)
    exact ⟨u, by rwa [List.map_cons, runAll_next hexec], by simpa using hu, by simp [hresp', hresp]⟩

/-- What a pop does, over as many pops as the queue has bytes. -/
theorem runAll_pops {P : State → List Byte → Prop} {pop : Instr} {popped : Byte → Response}
    (hpop : ∀ s v l, P s (v :: l) → ∃ t, exec pop s = .next t ∧ P t l ∧ t.responses = s.responses ++ [popped v])
    (bytes : List Byte) {s : State} (h : P s bytes) :
    ∃ u, runAll (List.replicate bytes.length pop) s = some u ∧ P u [] ∧ u.responses = s.responses ++ bytes.map popped := by
  induction bytes generalizing s with
  | nil => exact ⟨s, rfl, h, by simp⟩
  | cons v bytes ih =>
    obtain ⟨t, hexec, ht, hresp⟩ := hpop s v bytes h
    obtain ⟨u, hrun, hu, hresp'⟩ := ih ht
    exact ⟨u, by rwa [List.length_cons, List.replicate_succ, runAll_next hexec], hu, by simp [hresp', hresp]⟩

/-- In a bridging state with the invariant and a ring size `n`, the RX queue is `l`. -/
structure RxHolds (n : Nat) (s : State) (l : List Byte) : Prop where
  inv : s.Inv
  bridge : s.block.bridge = true
  size : s.block.cfg.nRx = n
  queue : rxQueue s.block = l

/-- In a bridging state with the invariant and a ring size `n`, the TX queue is `l`. -/
structure TxHolds (n : Nat) (s : State) (l : List Byte) : Prop where
  inv : s.Inv
  bridge : s.block.bridge = true
  size : s.block.cfg.nTx = n
  queue : txQueue s.block = l

theorem RxHolds.of_data {n : Nat} {s t : State} {l l' : List Byte} (h : RxHolds n s l) {i : Instr} (hd : isDataCommand i = true)
    (hexec : exec i s = .next t) (hqueue : (rxOp i s.block).onQueue l = l') : RxHolds n t l' := by
  obtain ⟨hbridge, hcfg⟩ := exec_data_bridge_cfg h.inv hd hexec
  exact ⟨exec_inv h.inv hexec, hbridge.trans h.bridge, by rw [hcfg, h.size],
    by rw [exec_data_rxQueue h.inv hd hexec, h.queue, hqueue]⟩

theorem TxHolds.of_data {n : Nat} {s t : State} {l l' : List Byte} (h : TxHolds n s l) {i : Instr} (hd : isDataCommand i = true)
    (hexec : exec i s = .next t) (hqueue : (txOp i s.block).onQueue l = l') : TxHolds n t l' := by
  obtain ⟨hbridge, hcfg⟩ := exec_data_bridge_cfg h.inv hd hexec
  exact ⟨exec_inv h.inv hexec, hbridge.trans h.bridge, by rw [hcfg, h.size],
    by rw [exec_data_txQueue h.inv hd hexec, h.queue, hqueue]⟩

/-- An accepted RXPUSH. -/
theorem RxHolds.push {n : Nat} {s : State} {l : List Byte} (h : RxHolds n s l) (b : Byte) (hroom : l.length < n - 1) :
    ∃ t, exec (.rxpush b) s = .next t ∧ RxHolds n t (l ++ [b]) ∧ t.responses = s.responses ++ [⟨0, 0x0000, []⟩] := by
  have hlen : (rxQueue s.block).length < s.block.cfg.nRx - 1 := by rwa [h.queue, h.size]
  have hocc : occ (maskRx s.block) s.block.rx ≠ maskRx s.block := (occ_ne_mask_iff h.inv.rxSize s.block.rx).2 hlen
  have hdone : CompletesWith (.rxpush b) s _ 0 0x0000 [] := completesWith_ok (ruleRxpush_of_room h.bridge hocc b) h.inv.gateInSync
  refine ⟨_, hdone, h.of_data rfl hdone ?_, rfl⟩
  rw [← h.queue, rxOp_rxpush_onQueue h.inv, if_pos ⟨h.bridge, hlen⟩]

/-- An RXPOP of a byte. -/
theorem RxHolds.pop {n : Nat} {s : State} {v : Byte} {l : List Byte} (h : RxHolds n s (v :: l)) :
    ∃ t, exec .rxpop s = .next t ∧ RxHolds n t l ∧ t.responses = s.responses ++ [⟨2, 0x0100 + v.setWidth 16, []⟩] := by
  obtain ⟨-, ⟨t, hexec, -, hresp⟩, -⟩ := rxRingIsAQueue s h.inv
  rw [h.queue] at hresp
  refine ⟨t, hexec, h.of_data rfl hexec ?_, hresp⟩
  rw [← h.queue, rxOp_rxpop_onQueue h.inv, h.queue, List.tail_cons]

/-- An accepted TXPUSH. -/
theorem TxHolds.push {n : Nat} {s : State} {l : List Byte} (h : TxHolds n s l) (b : Byte) (hroom : l.length < n - 1) :
    ∃ t, exec (.txpush b) s = .next t ∧ TxHolds n t (l ++ [b]) ∧ t.responses = s.responses ++ [⟨2, 0x0000, []⟩] := by
  have hlen : (txQueue s.block).length < s.block.cfg.nTx - 1 := by rwa [h.queue, h.size]
  have hocc : occ (maskTx s.block) s.block.tx ≠ maskTx s.block := (occ_ne_mask_iff h.inv.txSize s.block.tx).2 hlen
  have hdone : CompletesWith (.txpush b) s _ 2 0x0000 [] := completesWith_ok (ruleTxpush_of_room h.bridge hocc b) h.inv.gateInSync
  refine ⟨_, hdone, h.of_data rfl hdone ?_, rfl⟩
  rw [← h.queue, txOp_txpush_onQueue h.inv, if_pos ⟨h.bridge, hlen⟩]

/-- A TXPOP of a byte. -/
theorem TxHolds.pop {n : Nat} {s : State} {v : Byte} {l : List Byte} (h : TxHolds n s (v :: l)) :
    ∃ t, exec .txpop s = .next t ∧ TxHolds n t l ∧ t.responses = s.responses ++ [⟨1, 0x0100 + v.setWidth 16, []⟩] := by
  obtain ⟨-, -, ⟨t, hexec, -, hresp⟩, -⟩ := txRingIsAQueue s h.inv
  rw [h.queue] at hresp
  refine ⟨t, hexec, h.of_data rfl hexec ?_, hresp⟩
  rw [← h.queue, txOp_txpop_onQueue h.inv, h.queue, List.tail_cons]

/-- An accepted OUTSTEP. -/
theorem TxHolds.transfer {n : Nat} {s : State} {l : List Byte} (h : TxHolds n s l) (bytes : List Byte)
    (hroom : l.length + bytes.length ≤ n - 1) :
    ∃ t, exec (.outstep bytes) s = .next t ∧ TxHolds n t (l ++ bytes)
      ∧ t.responses = s.responses ++ [⟨2, 0x0100 + BitVec.ofNat 16 bytes.length, []⟩] := by
  have hlen : (txQueue s.block).length + bytes.length ≤ s.block.cfg.nTx - 1 := by rwa [h.queue, h.size]
  have hfree : bytes.length ≤ (free (maskTx s.block) s.block.tx).toNat := by
    rw [free_tx_toNat h.inv]
    omega
  obtain ⟨-, haccepted, -⟩ := outstepAcceptsOrPends bytes s h.inv.gateInSync
  have hdone := haccepted h.bridge (by rwa [← free_toNat_sub])
  refine ⟨_, hdone, h.of_data rfl hdone ?_, rfl⟩
  rw [← h.queue, txOp_outstep_onQueue h.inv, if_pos ⟨h.bridge, hlen⟩]

/-- Settles O26: the pushes, or the transfer, fill the empty queue with the bytes, and the pops take them out again. -/
theorem pushesPopInOrder : Obligations.PushesPopInOrder := by
  refine ⟨fun bytes s hinv hbridge hempty hlen => ?rx, fun bytes s hinv hbridge hempty hlen => ⟨?tx, ?transfer⟩⟩
  case rx =>
    have hstart : RxHolds s.block.cfg.nRx s [] := ⟨hinv, hbridge, rfl, hempty⟩
    obtain ⟨t, hpushes, ht, hresp⟩ := runAll_pushes (fun _ _ b h => h.push b) bytes hstart (by simpa using hlen)
    obtain ⟨u, hpops, hu, hresp'⟩ := runAll_pops (fun _ _ _ h => h.pop) bytes ht
    exact ⟨u, by rw [runAll_append, hpushes, Option.bind_some, hpops], hu.queue, by rw [hresp', hresp]⟩
  case tx =>
    have hstart : TxHolds s.block.cfg.nTx s [] := ⟨hinv, hbridge, rfl, hempty⟩
    obtain ⟨t, hpushes, ht, hresp⟩ := runAll_pushes (fun _ _ b h => h.push b) bytes hstart (by simpa using hlen)
    obtain ⟨u, hpops, hu, hresp'⟩ := runAll_pops (fun _ _ _ h => h.pop) bytes ht
    exact ⟨u, by rw [runAll_append, hpushes, Option.bind_some, hpops], hu.queue, by rw [hresp', hresp]⟩
  case transfer =>
    have hstart : TxHolds s.block.cfg.nTx s [] := ⟨hinv, hbridge, rfl, hempty⟩
    obtain ⟨t, hexec, ht, hresp⟩ := hstart.transfer bytes (by simpa using hlen)
    obtain ⟨u, hpops, hu, hresp'⟩ := runAll_pops (fun _ _ _ h => h.pop) bytes ht
    exact ⟨u, by rw [runAll_next hexec, hpops], hu.queue, by rw [hresp', hresp]⟩

end Sys2Proof.Machine
end

section
/-!
PROOFS. The laws of the arbiter over sequences of commands (44_arbiter.md section 5): FLUSH_TICKS ticks make waiting bytes drain, and a
transfer that finds no room stays pending until enough bytes have drained.
-/
namespace Sys2Proof.Machine

/-! ### The flush timer over a sequence of ticks -/

/-- A tick in BRIDGE: the timer counts or elapses, and the RX ring is left alone. -/
theorem exec_tick_flush {s t : State} (hinv : s.Inv) (hbridge : s.block.bridge = true) (h : exec .tick s = .next t) :
    t.block.rx = s.block.rx
    ∧ if s.block.flushCnt.toNat + 1 = s.block.cfg.flushTicks then t.block.flushCnt = 0 ∧ t.block.flushPend = true
      else t.block.flushCnt.toNat = s.block.flushCnt.toNat + 1 ∧ t.block.flushPend = s.block.flushPend := by
  have hblock := exec_data hinv rfl h
  rw [rule, ruleTick_eq] at hblock
  rw [hblock]
  refine ⟨rfl, ?_⟩
  by_cases hperiod : s.block.flushCnt.toNat + 1 = s.block.cfg.flushTicks
  · simp only [hbridge, hperiod, and_self, if_true]
  · simp only [hbridge, hperiod, and_false, if_false, if_true, flushCnt_succ hinv, and_self]

/-- The flush timer of `t` is the one of `s` after `j` ticks, at most a period's, and the rest that a drain depends on is the same. -/
structure Ticked (j : Nat) (s t : State) : Prop where
  inv : t.Inv
  bridge : t.block.bridge = true
  cfg : t.block.cfg = s.block.cfg
  rx : t.block.rx = s.block.rx
  timer :
    if s.block.flushCnt.toNat + j < s.block.cfg.flushTicks then
      t.block.flushCnt.toNat = s.block.flushCnt.toNat + j ∧ t.block.flushPend = s.block.flushPend
    else t.block.flushCnt.toNat = s.block.flushCnt.toNat + j - s.block.cfg.flushTicks ∧ t.block.flushPend = true

/-- In BRIDGE, `j` ticks advance the flush timer `j` times; within a period it elapses at most once. -/
theorem runAll_ticks_flush (j : Nat) {s t : State} (hinv : s.Inv) (hbridge : s.block.bridge = true)
    (hj : j ≤ s.block.cfg.flushTicks) (h : runAll (List.replicate j .tick) s = some t) : Ticked j s t := by
  induction j generalizing s with
  | zero =>
    cases h
    have hbelow := hinv.flushBelow
    exact ⟨hinv, hbridge, rfl, rfl, by simp [hbelow]⟩
  | succ j ih =>
    obtain ⟨v, hfirst, hrest⟩ := runAll_cons h
    obtain ⟨hmode, hcfg⟩ := exec_data_bridge_cfg hinv rfl hfirst
    obtain ⟨hrx, hstep⟩ := exec_tick_flush hinv hbridge hfirst
    obtain ⟨htinv, htbridge, htcfg, htrx, htimer⟩ := ih (exec_inv hinv hfirst) (hmode.trans hbridge) (by rw [hcfg]; omega) hrest
    refine ⟨htinv, htbridge, htcfg.trans hcfg, htrx.trans hrx, ?_⟩
    have hbelow := hinv.flushBelow
    rw [hcfg] at htimer
    by_cases hperiod : s.block.flushCnt.toNat + 1 = s.block.cfg.flushTicks
    · -- the timer elapses at the first tick and counts the others from 0
      obtain ⟨hzero, hpend⟩ := (if_pos hperiod).mp hstep
      rw [hzero, hpend, show (0 : Byte).toNat = 0 from rfl, if_pos (by omega)] at htimer
      rw [if_neg (by omega)]
      exact ⟨by omega, htimer.2⟩
    · obtain ⟨hcount, hpend⟩ := (if_neg hperiod).mp hstep
      rw [hcount, hpend] at htimer
      rwa [show s.block.flushCnt.toNat + (j + 1) = s.block.flushCnt.toNat + 1 + j by omega]

/-- An INSTEP that drains clears the mark of the flush timer (44_arbiter.md R141). -/
theorem exec_instep_flushPend {s t : State} (hinv : s.Inv) (hbridge : s.block.bridge = true)
    (hdue : drainDue s.block (occ (maskRx s.block) s.block.rx).toNat = true) (h : exec (.instep true) s = .next t) :
    t.block.flushPend = false := by
  rw [exec_data hinv rfl h, rule, ruleInstep_of_due hbridge hdue]
  rfl

/-- Settles O52: a period of ticks brings the count back and leaves the mark set, which makes the next INSTEP due. -/
theorem latencyLaw : Obligations.LatencyLaw := by
  intro s hinv hbridge hqueue
  obtain ⟨t, hrun⟩ := exists_runAll (List.replicate s.block.cfg.flushTicks .tick) s
  obtain ⟨htinv, htbridge, htcfg, htrx, htimer⟩ := runAll_ticks_flush _ hinv hbridge le_rfl hrun
  rw [if_neg (by omega), Nat.add_sub_cancel] at htimer
  obtain ⟨hcount, hpend⟩ := htimer
  have hsame : rxQueue t.block = rxQueue s.block := by rw [rxQueue, maskRx, htcfg, htrx, rxQueue, maskRx]
  have hlen : 0 < (rxQueue t.block).length := by rwa [hsame, List.length_pos_iff]
  have hdue : drainDue t.block (occ (maskRx t.block) t.block.rx).toNat = true :=
    drainDue_iff.2 (.inr ⟨hpend, by rwa [rxQueue, queue_length] at hlen⟩)
  obtain ⟨-, -, hdrain, -⟩ := rxRingIsAQueue t htinv
  obtain ⟨u, n, hexec, hn, hafter, hresp⟩ := hdrain true
  rw [if_pos ⟨htbridge, rfl, .inr ⟨hpend, List.length_pos_iff.1 hlen⟩⟩] at hn
  have hsize : 1 ≤ t.block.cfg.epInSize := by
    obtain ⟨-, -, -, -, -, hsize, -⟩ := (configOk_iff _).1 htinv.parameters
    exact hsize
  have hpos : 0 < n := by omega
  have hle : n ≤ s.block.cfg.epInSize := by
    rw [← htcfg]
    omega
  rw [hsame] at hafter hresp
  rw [if_neg hpos.ne'] at hresp
  exact ⟨t, u, n, hrun, hpend, BitVec.eq_of_toNat_eq hcount, hsame, hexec, hpos, hle, hafter,
    exec_instep_flushPend htinv htbridge hdue hexec, hresp⟩

/-! ### Free space over a sequence of data commands -/

/-- A data command takes at most one byte from the TX queue, and only as a TXPOP. -/
theorem exec_data_txQueue_length {i : Instr} {s t : State} (hinv : s.Inv) (hd : isDataCommand i = true)
    (h : exec i s = .next t) :
    (txQueue s.block).length ≤ (txQueue t.block).length + if i = .txpop then 1 else 0 := by
  rw [exec_data_txQueue hinv hd h]
  obtain hop | ⟨b, -, -, -, hop⟩ | ⟨bytes, -, -, -, hop⟩ | ⟨hi, -, hop⟩ | ⟨hclears, -⟩ := txOp_cases i s.block
  · simp [hop, RingOp.onQueue]
  · simp [hop, RingOp.onQueue, add_assoc]
  · simp [hop, RingOp.onQueue, add_assoc]
  · rw [hop, if_pos hi, RingOp.onQueue, List.length_drop]
    omega
  · obtain ⟨m, -, rfl⟩ | rfl | ⟨c, -, rfl⟩ | ⟨b, f, p, d, rfl⟩ := hclears <;> cases hd

/-- A sequence of data commands keeps the invariant, the mode and the parameters, and takes at most as many bytes from the TX queue as it
has TXPOPs. -/
theorem runAll_data_txQueue_length {is : List Instr} {s t : State} (hinv : s.Inv) (hdata : ∀ i ∈ is, isDataCommand i = true)
    (h : runAll is s = some t) :
    t.Inv ∧ t.block.bridge = s.block.bridge ∧ t.block.cfg = s.block.cfg
      ∧ (txQueue s.block).length ≤ (txQueue t.block).length + is.count .txpop := by
  induction is generalizing s with
  | nil => cases h; exact ⟨hinv, rfl, rfl, le_rfl⟩
  | cons i is ih =>
    obtain ⟨hd, hdata⟩ := List.forall_mem_cons.1 hdata
    obtain ⟨v, hfirst, hrest⟩ := runAll_cons h
    obtain ⟨hbridge, hcfg⟩ := exec_data_bridge_cfg hinv hd hfirst
    have hone := exec_data_txQueue_length hinv hd hfirst
    obtain ⟨htinv, htbridge, htcfg, hothers⟩ := ih (exec_inv hinv hfirst) hdata hrest
    refine ⟨htinv, htbridge.trans hbridge, htcfg.trans hcfg, ?_⟩
    rw [List.count_cons]
    simp only [beq_iff_eq]
    omega

/-- Settles O53: the free space grows by one with each TXPOP at most, so it stays below the length of the transfer. -/
theorem backpressureLaw : Obligations.BackpressureLaw := by
  intro bytes s t is hinv hbridge hpending hdata hpops hrun
  obtain ⟨htinv, htbridge, htcfg, hlen⟩ := runAll_data_txQueue_length hinv hdata hrun
  have hle := txQueue_length_le hinv
  have hshort : (free (maskTx t.block) t.block.tx).toNat < bytes.length := by
    rw [free_tx_toNat hinv] at hpending hpops
    rw [free_tx_toNat htinv, htcfg]
    omega
  refine ⟨free (maskTx t.block) t.block.tx, hshort, rfl, ?_⟩
  rw [← responseWord_pending]
  exact completesWith_of_rule (i := .outstep bytes) (ruleOutstep_of_no_room (htbridge.trans hbridge) hshort) htinv.gateInSync

end Sys2Proof.Machine
end

section
/-!
PROOFS. The ring bytes outside the occupied slots cannot be observed (10_state.md R21): a rule reads the arrays only for the bytes that it
answers, and those are in the queues.
-/
namespace Sys2Proof.Machine

/-! ### The block without its arrays -/

/-- The block with both ring arrays blank. -/
def blank (k : Block) : Block := { k with rx := { k.rx with buf := [] }, tx := { k.tx with buf := [] } }

@[simp] theorem blank_bridge (k : Block) : (blank k).bridge = k.bridge := rfl
@[simp] theorem blank_gate (k : Block) : gate (blank k) = gate k := rfl

/-- Blocks that differ at most in invisible ring bytes have the same queues and are the same without their arrays. -/
theorem sameVisible_iff {a b : Block} :
    SameVisible a b ↔ rxQueue a = rxQueue b ∧ txQueue a = txQueue b ∧ blank a = blank b := by
  refine and_congr_right fun _ => and_congr_right fun _ => ⟨fun h => (congrArg blank h : _), fun h => ?_⟩
  calc { a with rx := { a.rx with buf := b.rx.buf }, tx := { a.tx with buf := b.tx.buf } }
    _ = { blank a with rx := { (blank a).rx with buf := b.rx.buf }, tx := { (blank a).tx with buf := b.tx.buf } } := rfl
    _ = { blank b with rx := { (blank b).rx with buf := b.rx.buf }, tx := { (blank b).tx with buf := b.tx.buf } } := by rw [h]
    _ = b := rfl

/-! ### What the arrays have no part in -/

theorem gateUpdate_blank (k : Block) : blank (gateUpdate k) = gateUpdate (blank k) := by
  obtain ⟨hbridge, hgate, h⟩ | ⟨hwait, hgate, h⟩ | ⟨hsync, h⟩ := gateUpdate_cases k <;> rw [h]
  · exact (gateUpdate_of_leaving (k := blank k) hbridge hgate).symm
  · rw [gateUpdate_of_wait (k := blank k) hwait, blank_gate, hgate]
    rfl
  · exact (gateUpdate_of_sync (k := blank k) hsync).symm

/-- What a rule does to the rest of the block does not depend on the arrays: its tests read the same without them, and so does what it
writes but the arrays themselves. -/
theorem rule_blank (i : Instr) (k : Block) : blank (rule i k).1 = blank (rule i (blank k)).1 := by
  cases i with
  | nop | rxocc | txocc | csrrd | ctluns | eorst => rfl
  | tick => simp only [rule, ruleTick_eq]; rfl
  | ringrst =>
    simp only [rule, ruleRingrst]
    split_ifs <;> rfl
  | rxpush | rxpop | txpush | txpop | instep | outstep =>
    simp only [rule, ruleRxpush, ruleRxpop, ruleTxpush, ruleTxpop, ruleInstep, ruleOutstep, apply_ite Prod.fst, apply_ite blank]
    rfl
  | vbusoff | vbuson | suspend | wake | addressed | setcfg =>
    simp only [rule, ruleVbusoff, ruleVbuson, ruleSuspend, ruleWake, ruleAddressed, ruleSetcfg, apply_ite Prod.fst,
      apply_ite blank]
    rfl
  | getlc | setlc | setcls | sendbrk =>
    simp only [rule, ruleGetlc, ruleSetlc, ruleSetcls, ruleSendbrk, apply_ite Prod.fst, apply_ite blank]
    rfl

/-- What a command does to the RX ring does not depend on the arrays. -/
theorem rxOp_blank (i : Instr) (k : Block) : rxOp i (blank k) = rxOp i k := by
  cases i <;> rfl

/-- What a command does to the TX ring does not depend on the arrays. -/
theorem txOp_blank (i : Instr) (k : Block) : txOp i (blank k) = txOp i k := by
  cases i <;> rfl

/-! ### The answers -/

/-- The commands that answer with bytes of a ring. -/
abbrev ReadsRing (i : Instr) : Prop := i = .rxpop ∨ i = .txpop ∨ ∃ r, i = .instep r

/-- No other command's answer depends on the arrays. -/
theorem rule_answer_blank {i : Instr} (hi : ¬ReadsRing i) (k : Block) : (rule i k).2 = (rule i (blank k)).2 := by
  cases i with
  | rxpop => exact absurd (.inl rfl) hi
  | txpop => exact absurd (.inr (.inl rfl)) hi
  | instep r => exact absurd (.inr (.inr ⟨r, rfl⟩)) hi
  | nop | rxocc | txocc | csrrd | ctluns | eorst | tick | ringrst => rfl
  | rxpush | txpush | outstep =>
    simp only [rule, ruleRxpush, ruleTxpush, ruleOutstep, apply_ite Prod.snd]
    rfl
  | vbusoff | vbuson | suspend | wake | addressed | setcfg =>
    simp only [rule, ruleVbusoff, ruleVbuson, ruleSuspend, ruleWake, ruleAddressed, ruleSetcfg, apply_ite Prod.snd]
    rfl
  | getlc | setlc | setcls | sendbrk =>
    simp only [rule, ruleGetlc, ruleSetlc, ruleSetcls, ruleSendbrk, apply_ite Prod.snd]
    rfl

theorem instepCount_blank (r : Bool) (k : Block) : instepCount r (blank k) = instepCount r k := rfl

/-- Every answer is made of the queues and the block without its arrays. -/
theorem rule_answer_eq_of_sameVisible {a b : Block} (ha : a.Inv) (hb : b.Inv) (h : SameVisible a b) (i : Instr) :
    (rule i a).2 = (rule i b).2 := by
  obtain ⟨hrx, htx, hblank⟩ := sameVisible_iff.1 h
  by_cases hi : ReadsRing i
  · obtain rfl | rfl | ⟨r, rfl⟩ := hi
    · exact (ruleRxpop_answer ha).trans (hrx ▸ (ruleRxpop_answer hb).symm)
    · exact (ruleTxpop_answer ha).trans (htx ▸ (ruleTxpop_answer hb).symm)
    · have hcount : instepCount r a = instepCount r b := by rw [← instepCount_blank, hblank, instepCount_blank]
      exact (ruleInstep_answer ha r).trans (hcount ▸ hrx ▸ (ruleInstep_answer hb r).symm)
  · rw [rule_answer_blank hi a, rule_answer_blank hi b, hblank]

/-- Settles O29: without the arrays the two machines are the same machine, which stays so; the queues see the same operation, and the
answers are made of what is the same. -/
theorem unoccupiedBytesAreUnobservable : Obligations.UnoccupiedBytesAreUnobservable := by
  intro i s t s' t' hs ht hsame hresp hexec hexec'
  obtain ⟨hrx, htx, hblank⟩ := sameVisible_iff.1 hsame
  obtain ⟨hblock, -, hanswer⟩ := exec_next hexec
  obtain ⟨hblock', -, hanswer'⟩ := exec_next hexec'
  have hafter : blank s'.block = blank t'.block := by
    rw [hblock, hblock', gateUpdate_blank, gateUpdate_blank, rule_blank i s.block, rule_blank i t.block, hblank]
  have hrxOp : rxOp i s.block = rxOp i t.block := by rw [← rxOp_blank, hblank, rxOp_blank]
  have htxOp : txOp i s.block = txOp i t.block := by rw [← txOp_blank, hblank, txOp_blank]
  have hleaves : LeavesBridge s.block s'.block ↔ LeavesBridge t.block t'.block := by
    rw [LeavesBridge, LeavesBridge, ← blank_bridge s.block, ← blank_bridge s'.block, hblank, hafter]
    rfl
  have hqueues : rxQueue s'.block = rxQueue t'.block ∧ txQueue s'.block = txQueue t'.block := by
    obtain ⟨hleave, hrxs, htxs⟩ | ⟨hstay, hrxs, htxs⟩ := exec_queues hs hexec <;>
      obtain ⟨hleave', hrxt, htxt⟩ | ⟨hstay', hrxt, htxt⟩ := exec_queues ht hexec'
    · rw [hrxs, hrxt, htxs, htxt]
      exact ⟨rfl, rfl⟩
    · exact absurd (hleaves.1 hleave) hstay'
    · exact absurd (hleaves.2 hleave') hstay
    · rw [hrxs, hrxt, htxs, htxt, hrxOp, htxOp, hrx, htx]
      exact ⟨rfl, rfl⟩
  refine ⟨sameVisible_iff.2 ⟨hqueues.1, hqueues.2, hafter⟩, ?_⟩
  rw [hanswer, hanswer', hresp, rule_answer_eq_of_sameVisible hs ht hsame]

end Sys2Proof.Machine
end

section
/-!
PROOFS. The device-connection state machine as a whole (42_usb_state.md section 3): its transition table, the suspend-wake law, and the ways
into Configured.
-/
namespace Sys2Proof.Machine

/-! ### The table, event by event -/

theorem port_of_isDeviceEvent {i : Instr} (hi : isDeviceEvent i = true) : i.port = .dev := by
  cases i with
  | vbuson | vbusoff | suspend | wake | eorst | addressed | setcfg => rfl
  | _ => cases hi

/-- What a device event does in the terms of the table: with an entry it enters that state, saving the old one when it suspends; without
one it is ignored. -/
def EventOutcome (k : Block) (entry : Option DevState) (done : Block × Answer) : Prop :=
  match entry with
  | some d => done.2 = answerOk ∧ done.1.state = d ∧ done.1.prev = if d = .suspended then k.state else .unattached
  | none => done = (k, answerIgnored)

/-- The states that are neither Unattached nor Suspended are the powered ones (42_usb_state.md R105). -/
theorem isPowered_of_ne {d : DevState} (hun : d ≠ .unattached) (hsus : d ≠ .suspended) : isPowered d = true := by
  cases d with
  | unattached => exact absurd rfl hun
  | suspended => exact absurd rfl hsus
  | _ => rfl

theorem vbuson_outcome {k : Block} (h : DeviceInv k) : EventOutcome k (specTransition k.state k.prev .vbuson) (ruleVbuson k) := by
  by_cases hstate : k.state = .unattached
  · rw [ruleVbuson_of_unattached hstate, hstate]
    exact ⟨rfl, rfl, (h.awake (by simp [hstate])).1⟩
  · rw [ruleVbuson_of_attached hstate]
    cases hd : k.state with
    | unattached => exact absurd hd hstate
    | _ => rfl

theorem vbusoff_outcome (k : Block) : EventOutcome k (specTransition k.state k.prev .vbusoff) (ruleVbusoff k) := by
  by_cases hstate : k.state = .unattached
  · rw [ruleVbusoff_of_unattached hstate, hstate]
    rfl
  · rw [ruleVbusoff_of_attached hstate]
    cases hd : k.state with
    | unattached => exact absurd hd hstate
    | _ => exact ⟨rfl, rfl, rfl⟩

theorem suspend_outcome {k : Block} (h : DeviceInv k) : EventOutcome k (specTransition k.state k.prev .suspend) (ruleSuspend k) := by
  by_cases hpowered : isPowered k.state = true
  · have hawake : k.state ≠ .suspended := fun hstate => by rw [hstate] at hpowered; cases hpowered
    rw [ruleSuspend_of_enabled (h.awake hawake).2.1 hpowered]
    cases hd : k.state with
    | unattached | suspended => rw [hd] at hpowered; cases hpowered
    | _ => exact ⟨rfl, rfl, hd.symm⟩
  · rw [ruleSuspend_of_disabled (.inr hpowered)]
    cases hd : k.state with
    | unattached | suspended => rfl
    | _ => rw [hd] at hpowered; exact absurd rfl hpowered

theorem wake_outcome {k : Block} (h : DeviceInv k) : EventOutcome k (specTransition k.state k.prev .wake) (ruleWake k) := by
  obtain ⟨⟨hwake, -⟩, hsaved, -⟩ := h
  by_cases hstate : k.state = .suspended
  · rw [if_pos hstate] at hsaved
    rw [ruleWake_of_suspended (by simpa [hstate] using hwake) hstate, hstate]
    cases hprev : k.prev with
    | unattached | suspended => rw [hprev] at hsaved; cases hsaved
    | _ => exact ⟨rfl, rfl, rfl⟩
  · rw [ruleWake_of_disabled (.inr hstate)]
    cases hd : k.state with
    | suspended => exact absurd hd hstate
    | _ => rfl

theorem eorst_outcome (k : Block) : EventOutcome k (specTransition k.state k.prev .eorst) (ruleEorst k) := by
  rw [ruleEorst_eq]
  cases k.state <;> exact ⟨rfl, rfl, rfl⟩

theorem addressed_outcome {k : Block} (h : DeviceInv k) :
    EventOutcome k (specTransition k.state k.prev .addressed) (ruleAddressed k) := by
  by_cases hstate : k.state = .default
  · rw [ruleAddressed_of_default hstate, hstate]
    exact ⟨rfl, rfl, (h.awake (by simp [hstate])).1⟩
  · rw [ruleAddressed_of_not_default hstate]
    cases hd : k.state with
    | default => exact absurd hd hstate
    | _ => rfl

theorem setcfg_outcome {k : Block} (h : DeviceInv k) (c : Byte) :
    EventOutcome k (specTransition k.state k.prev (.setcfg c)) (ruleSetcfg c k) := by
  by_cases hstate : k.state = .addressed ∨ k.state = .configured
  · have hentry : specTransition k.state k.prev (.setcfg c) = if c = 0 then some .addressed else some .configured := by
      rcases hstate with hstate | hstate <;> rw [hstate] <;> rfl
    have hprev := (h.awake (ne_suspended_of_addressed_or_configured hstate)).1
    rw [hentry]
    by_cases hc : c = 0
    · subst hc
      rw [ruleSetcfg_zero hstate]
      exact ⟨rfl, rfl, hprev⟩
    · rw [if_neg hc, ruleSetcfg_of_nonzero hstate hc]
      exact ⟨rfl, rfl, hprev⟩
  · rw [ruleSetcfg_of_other hstate]
    cases hd : k.state with
    | addressed => exact absurd (.inl hd) hstate
    | configured => exact absurd (.inr hd) hstate
    | _ => rfl

/-- The rule of every device event follows the table. -/
theorem event_outcome {k : Block} (h : DeviceInv k) {i : Instr} (hi : isDeviceEvent i = true) :
    EventOutcome k (specTransition k.state k.prev i) (rule i k) := by
  cases i with
  | vbuson => exact vbuson_outcome h
  | vbusoff => exact vbusoff_outcome k
  | suspend => exact suspend_outcome h
  | wake => exact wake_outcome h
  | eorst => exact eorst_outcome k
  | addressed => exact addressed_outcome h
  | setcfg c => exact setcfg_outcome h c
  | _ => cases hi

/-! ### The table with the mode -/

theorem Block.Inv.device {k : Block} (h : k.Inv) : DeviceInv k := (inv_iff.1 h).1.device

/-- The device state of the next block is the one the rule leaves. -/
theorem exec_deviceFields {i : Instr} {s t : State} (h : exec i s = .next t) :
    deviceFields t.block = deviceFields (rule i s.block).1 := by
  obtain ⟨hblock, -, -⟩ := exec_next h
  rw [hblock, gateUpdate_deviceFields]

/-- A command that enters another state than Configured leaves the block in WAIT, with empty queues if it was in BRIDGE. -/
theorem exec_wait_of_state_ne {i : Instr} {s t : State} (hinv : s.Inv) (h : exec i s = .next t) (hstate : t.block.state ≠ .configured) :
    t.block.bridge = false ∧ (s.block.bridge = true → rxQueue t.block = [] ∧ txQueue t.block = []) := by
  have hwait : t.block.bridge = false := (exec_inv hinv h).gateInSync.wait_of_state_ne hstate
  refine ⟨hwait, fun hbridge => ?_⟩
  obtain ⟨-, hrx, htx⟩ | ⟨hstays, -⟩ := exec_queues hinv h
  · exact ⟨hrx, htx⟩
  · exact absurd ⟨hbridge, hwait⟩ hstays

/-- Settles O37: the rule follows the table, and the mode update keeps the device state. -/
theorem fullTransitionTable : Obligations.FullTransitionTable := by
  intro i s hinv hi
  obtain ⟨t, hexec⟩ : ∃ t, exec i s = .next t := ⟨_, exec_eq i s⟩
  obtain ⟨hblock, -, hresp⟩ := exec_next hexec
  have houtcome := event_outcome hinv.device hi
  refine ⟨t, _, hexec, hresp, ?_⟩
  rw [port_of_isDeviceEvent hi]
  cases hentry : specTransition s.block.state s.block.prev i with
  | none =>
    rw [hentry] at houtcome
    obtain ⟨hsame, hanswer⟩ := Prod.ext_iff.1 (houtcome : rule i s.block = (s.block, answerIgnored))
    dsimp only at hsame hanswer
    rw [hanswer]
    exact ⟨by rw [hblock, hsame, gateUpdate_of_sync hinv.gateInSync], rfl⟩
  | some d =>
    rw [hentry] at houtcome
    obtain ⟨hanswer, hstate, hprev⟩ := houtcome
    obtain ⟨hstate', hprev', -⟩ := deviceFields_eq_iff.1 (exec_deviceFields hexec)
    rw [hanswer]
    exact ⟨hstate'.trans hstate, rfl, hprev'.trans hprev,
      fun _ hd => exec_wait_of_state_ne hinv hexec (by rw [hstate', hstate]; exact hd)⟩

/-! ### Suspend and wake -/

theorem ienMask_eq {k : Block} {susp wake : Bool} (hsusp : k.ienSusp = susp) (hwake : k.ienWake = wake) :
    ienMask k = BitVec.ofBool true ++ BitVec.ofBool wake ++ BitVec.ofBool susp ++ BitVec.ofBool true := by
  rw [ienMask, hsusp, hwake]

/-- The wake target of a powered state (42_usb_state.md R105). -/
theorem wakeTarget_eq {d : DevState} (h : isPowered d = true) : wakeTarget d = if d = .default then .powered else d := by
  cases d with
  | powered | default | addressed | configured => rfl
  | unattached | suspended => cases h

/-- Settles O38: SUSPEND saves the state and swaps the enables, WAKE undoes both; the mode follows the state and the baud rate, which stays. -/
theorem suspendThenWakeKeepsEnables : Obligations.SuspendThenWakeKeepsEnables := by
  intro s hinv hun hsus
  obtain ⟨-, hsusp, hwake⟩ := hinv.device.awake hsus
  have hpowered := isPowered_of_ne hun hsus
  -- SUSPEND
  have hrule := ruleSuspend_of_enabled hsusp hpowered
  obtain ⟨t, ht⟩ : ∃ t, exec .suspend s = .next t := ⟨_, exec_eq _ s⟩
  have htdevice := exec_deviceFields ht
  rw [rule, hrule] at htdevice
  obtain ⟨htstate, htprev, -, htsusp, htwake⟩ := deviceFields_eq_iff.1 htdevice
  have htline : lineFields t.block = lineFields s.block := by
    rw [(exec_next ht).1, gateUpdate_lineFields, rule, hrule]
    rfl
  obtain ⟨htbaud, -⟩ := lineFields_eq_iff.1 htline
  -- WAKE
  have hu := completesWith_wake (exec_inv hinv ht).gateInSync htwake htstate
  have htarget := wakeTarget_of_powered hpowered
  have hconf : wakeTarget s.block.state = .configured ↔ s.block.state = .configured := ⟨htarget.2, fun h => by rw [h]; rfl⟩
  refine ⟨t, _, ht, hu, ienMask_eq hsusp hwake, ienMask_eq (susp := false) (wake := true) htsusp htwake,
    ienMask_eq (susp := true) (wake := false) rfl rfl, htstate, ?_, ?_, ?_, ?_⟩
  · exact decide_eq_true htstate
  · rw [htprev]
    exact decide_eq_false htarget.1
  · rw [htprev]
    exact wakeTarget_eq hpowered
  · rw [htprev, htbaud, hinv.gateInSync, gate_eq_decide]
    simp only [hconf]

/-! ### The ways into Configured -/

/-- The two kinds of entry of the table that lead into Configured from another state. -/
theorem specTransition_eq_configured {d prev : DevState} {i : Instr} (h : specTransition d prev i = some .configured)
    (hd : d ≠ .configured) :
    (∃ c, c ≠ 0 ∧ i = .setcfg c ∧ d = .addressed) ∨ (i = .wake ∧ d = .suspended ∧ prev = .configured) := by
  cases i with
  | setcfg c =>
    cases d with
    | addressed =>
      have hentry : (if c = 0 then some DevState.addressed else some .configured) = some .configured := h
      split_ifs at hentry with hc
      · cases hentry
      · exact .inl ⟨c, hc, rfl, rfl⟩
    | configured => exact absurd rfl hd
    | _ => cases h
  | wake =>
    cases d with
    | suspended =>
      cases prev with
      | configured => exact .inr ⟨rfl, rfl, rfl⟩
      | _ => cases h
    | _ => cases h
  | _ => cases d <;> cases h

/-- Settles O39: a command that changes the device state is an event of the table, which enters Configured by two kinds of entry. -/
theorem configuredIsEnteredOnlyTwoWays : Obligations.ConfiguredIsEnteredOnlyTwoWays := by
  intro i s t hinv hexec hbefore hafter
  obtain ⟨hstate, -⟩ := deviceFields_eq_iff.1 (exec_deviceFields hexec)
  rw [hstate] at hafter
  by_cases hi : isDeviceEvent i = true
  · have houtcome := event_outcome hinv.device hi
    cases hentry : specTransition s.block.state s.block.prev i with
    | none =>
      rw [hentry] at houtcome
      have hsame : rule i s.block = (s.block, answerIgnored) := houtcome
      rw [hsame] at hafter
      exact absurd hafter hbefore
    | some d =>
      rw [hentry] at houtcome
      obtain ⟨-, hd, -⟩ := houtcome
      obtain rfl : d = .configured := hd.symm.trans hafter
      exact specTransition_eq_configured hentry hbefore
  · obtain ⟨hsame, -⟩ := deviceFields_eq_iff.1 (rule_deviceFields_of_not_event hi s.block)
    exact absurd (hsame.symm.trans hafter) hbefore

end Sys2Proof.Machine
end

section
/-!
PROOFS. Which commands can change which state (60_exceptions.md section 3), and the laws that follow over sequences of commands: the line
encoding and the control lines read as last accepted (43_cdc_control.md section 3), and observations change nothing (45_system.md).
-/
namespace Sys2Proof.Machine

/-! ### The cursors -/

/-- What happens to the RX cursors: a reset with its cause, a push, a pop or a drain, or nothing. -/
theorem exec_rx_cursors {i : Instr} {s t : State} (hinv : s.Inv) (h : exec i s = .next t) :
    (t.block.rx.w = 0 ∧ t.block.rx.r = 0 ∧ ResetsRx i s.block t.block)
    ∨ ((∃ b, i = .rxpush b) ∧ t.block.rx.r = s.block.rx.r)
    ∨ ((i = .rxpop ∨ ∃ r, i = .instep r) ∧ t.block.rx.w = s.block.rx.w)
    ∨ (t.block.rx.w = s.block.rx.w ∧ t.block.rx.r = s.block.rx.r) := by
  obtain ⟨hleaves, hblock⟩ | ⟨-, hblock⟩ := exec_block_cases h
  · exact .inl ⟨by rw [hblock]; rfl, by rw [hblock]; rfl, .inr (.inr (.inr hleaves))⟩
  have hrx : t.block.rx = (rxOp i s.block).apply (maskRx s.block) s.block.rx := by
    rw [hblock]
    exact rule_rx hinv.rxSize hinv.rxRing i
  obtain hop | ⟨b, hi, -, -, hop⟩ | ⟨hi, -, hop⟩ | ⟨hi, -, hop⟩ | ⟨hcause, hop⟩ := rxOp_cases i s.block <;> rw [hrx, hop]
  · exact .inr (.inr (.inr ⟨rfl, rfl⟩))
  · exact .inr (.inl ⟨⟨b, hi⟩, rfl⟩)
  · exact .inr (.inr (.inl ⟨.inl hi, rfl⟩))
  · exact .inr (.inr (.inl ⟨.inr hi, rfl⟩))
  · refine .inl ⟨rfl, rfl, ?_⟩
    obtain hm | hoff | hcfg := hcause
    · exact .inl hm
    · exact .inr (.inl hoff)
    · exact .inr (.inr (.inl hcfg))

/-- What happens to the TX cursors: a reset with its cause, a push or a transfer, a pop, or nothing. -/
theorem exec_tx_cursors {i : Instr} {s t : State} (hinv : s.Inv) (h : exec i s = .next t) :
    (t.block.tx.w = 0 ∧ t.block.tx.r = 0 ∧ ResetsTx i s.block t.block)
    ∨ (((∃ b, i = .txpush b) ∨ ∃ bytes, i = .outstep bytes) ∧ t.block.tx.r = s.block.tx.r)
    ∨ (i = .txpop ∧ t.block.tx.w = s.block.tx.w)
    ∨ (t.block.tx.w = s.block.tx.w ∧ t.block.tx.r = s.block.tx.r) := by
  obtain ⟨hleaves, hblock⟩ | ⟨-, hblock⟩ := exec_block_cases h
  · exact .inl ⟨by rw [hblock]; rfl, by rw [hblock]; rfl, .inr (.inr (.inr (.inr hleaves)))⟩
  have htx : t.block.tx = (txOp i s.block).apply (maskTx s.block) s.block.tx := by
    rw [hblock]
    exact rule_tx hinv.txSize hinv.txRing i
  obtain hop | ⟨b, hi, -, -, hop⟩ | ⟨bytes, hi, -, -, hop⟩ | ⟨hi, -, hop⟩ | ⟨hcause, hop⟩ := txOp_cases i s.block <;>
    rw [htx, hop]
  · exact .inr (.inr (.inr ⟨rfl, rfl⟩))
  · exact .inr (.inl ⟨.inl ⟨b, hi⟩, rfl⟩)
  · exact .inr (.inl ⟨.inr ⟨bytes, hi⟩, rfl⟩)
  · exact .inr (.inr (.inl ⟨hi, rfl⟩))
  · refine .inl ⟨rfl, rfl, ?_⟩
    obtain hm | hoff | hcfg | hset := hcause
    · exact .inl hm
    · exact .inr (.inl hoff)
    · exact .inr (.inr (.inl hcfg))
    · exact .inr (.inr (.inr (.inl hset)))

/-! ### The other elements -/

/-- The line encoding of the next block is the old one, or the operands of an accepted SETLC. -/
theorem exec_lineFields_cases {i : Instr} {s t : State} (h : exec i s = .next t) :
    lineFields t.block = lineFields s.block
    ∨ ∃ b f p d, i = .setlc b f p d ∧ validEncoding f p d = true ∧ lineFields t.block = (b, f, p, d) := by
  obtain ⟨hblock, -, -⟩ := exec_next h
  rw [hblock, gateUpdate_lineFields]
  exact rule_lineFields_cases i s.block

theorem exec_cls_of_not_writer {i : Instr} {s t : State} (h : exec i s = .next t) (hset : ∀ v, i ≠ .setcls v) (hreset : i ≠ .eorst)
    (hoff : i ≠ .vbusoff) : t.block.cls = s.block.cls := by
  obtain ⟨hblock, -, -⟩ := exec_next h
  rw [hblock, gateUpdate_cls, rule_cls_of_not_writer hset hreset hoff]

/-- A timer that no exit from BRIDGE clears is the one the rule leaves. -/
theorem exec_timers_cases {i : Instr} {s t : State} (h : exec i s = .next t) :
    LeavesBridge s.block t.block
    ∨ (flushFields t.block = flushFields (rule i s.block).1 ∧ t.block.pulseRx = (rule i s.block).1.pulseRx
        ∧ t.block.pulseTx = (rule i s.block).1.pulseTx) := by
  obtain ⟨hleaves, -⟩ | ⟨-, hblock⟩ := exec_block_cases h
  · exact .inl hleaves
  · rw [hblock]
    exact .inr ⟨rfl, rfl, rfl⟩

/-- GATE goes off with the device state or with the baud rate (10_state.md R42), so an exit from BRIDGE is made by a device event or by a
SETLC with baud rate 0. -/
theorem leavesBridge_cause {i : Instr} {s t : State} (hinv : s.Inv) (h : exec i s = .next t) (hleaves : LeavesBridge s.block t.block) :
    isDeviceEvent i = true ∨ ∃ f p d, i = .setlc 0 f p d := by
  by_contra hnot
  obtain ⟨hevent, hsetlc⟩ := not_or.1 hnot
  obtain ⟨hbefore, hafter⟩ := hleaves
  obtain ⟨hconf, hbaud⟩ := hinv.gateInSync.of_bridge hbefore
  have hoff : gate t.block = false := (exec_inv hinv h).gateInSync.symm.trans hafter
  refine gate_eq_false_iff.1 hoff ⟨?_, ?_⟩
  · obtain ⟨hstate, -⟩ := deviceFields_eq_iff.1 ((exec_deviceFields h).trans (rule_deviceFields_of_not_event hevent s.block))
    exact hstate.trans hconf
  · obtain hsame | ⟨b, f, p, d, rfl, -, hnew⟩ := exec_lineFields_cases h
    · rw [(lineFields_eq_iff.1 hsame).1]
      exact hbaud
    · intro hzero
      have hb : t.block.lcBaud = b := congrArg Prod.fst hnew
      exact hsetlc ⟨f, p, d, by rw [← hb, hzero]⟩

/-! ### The single-writer map -/

/-- Settles O40: each element's clause from the lemma that says what can happen to it. -/
theorem singleWriterMap : Obligations.SingleWriterMap := by
  intro i s t hinv h
  have hrx := exec_rx_cursors hinv h
  have htx := exec_tx_cursors hinv h
  refine ⟨fun hw => ?rxW, fun hr => ?rxR, fun hw => ?txW, fun hr => ?txR, fun hchange => ?device, fun hchange => ?line,
    fun hchange => ?cls, fun hchange => ?flushCnt, fun hchange => ?flushPend, fun hchange => ?pulseRx, fun hchange => ?pulseTx,
    leavesBridge_cause hinv h⟩
  case rxW =>
    obtain hreset | ⟨hpush, -⟩ | ⟨-, hsame⟩ | ⟨hsame, -⟩ := hrx
    · exact .inr hreset
    · exact .inl hpush
    · exact absurd hsame hw
    · exact absurd hsame hw
  case rxR =>
    obtain hreset | ⟨-, hsame⟩ | ⟨hpop | hdrain, -⟩ | ⟨-, hsame⟩ := hrx
    · exact .inr (.inr hreset)
    · exact absurd hsame hr
    · exact .inl hpop
    · exact .inr (.inl hdrain)
    · exact absurd hsame hr
  case txW =>
    obtain hreset | ⟨hpush | htransfer, -⟩ | ⟨-, hsame⟩ | ⟨hsame, -⟩ := htx
    · exact .inr (.inr hreset)
    · exact .inl hpush
    · exact .inr (.inl htransfer)
    · exact absurd hsame hw
    · exact absurd hsame hw
  case txR =>
    obtain hreset | ⟨-, hsame⟩ | ⟨hpop, -⟩ | ⟨-, hsame⟩ := htx
    · exact .inr hreset
    · exact absurd hsame hr
    · exact .inl hpop
    · exact absurd hsame hr
  case device =>
    by_contra hnot
    have hevent : isDeviceEvent i ≠ true := fun hi => hnot ⟨hi, port_of_isDeviceEvent hi⟩
    obtain ⟨hstate, hprev, hconf, hsusp, hwake⟩ :=
      deviceFields_eq_iff.1 ((exec_deviceFields h).trans (rule_deviceFields_of_not_event hevent s.block))
    simp [hstate, hprev, hconf, hsusp, hwake] at hchange
  case line =>
    obtain hsame | ⟨b, f, p, d, hi, -⟩ := exec_lineFields_cases h
    · obtain ⟨hb, hf, hp, hd⟩ := lineFields_eq_iff.1 hsame
      simp [hb, hf, hp, hd] at hchange
    · exact ⟨b, f, p, d, hi⟩
  case cls =>
    by_contra hnot
    obtain ⟨hset, hoff, hreset⟩ : (∀ v, i ≠ .setcls v) ∧ i ≠ .vbusoff ∧ i ≠ .eorst := by simpa [not_or] using hnot
    exact hchange (exec_cls_of_not_writer h hset hreset hoff)
  case flushCnt =>
    obtain hleaves | ⟨hflush, -⟩ := exec_timers_cases h
    · exact .inr (.inr hleaves)
    obtain hsame | ⟨hi, -⟩ | ⟨hi, -⟩ | ⟨-, -, hdrain⟩ | ⟨hi, -⟩ := rule_flushFields_cases i s.block
    · exact absurd (congrArg Prod.fst (hflush.trans hsame)) hchange
    · exact .inl hi
    · exact .inl hi
    · exact absurd (congrArg Prod.fst (hflush.trans hdrain)) hchange
    · exact .inr (.inl hi)
  case flushPend =>
    obtain hleaves | ⟨hflush, -⟩ := exec_timers_cases h
    · exact .inr (.inr (.inr hleaves))
    obtain hsame | ⟨hi, -⟩ | ⟨hi, -⟩ | ⟨hi, -⟩ | ⟨hi, -⟩ := rule_flushFields_cases i s.block
    · exact absurd (congrArg Prod.snd (hflush.trans hsame)) hchange
    · exact .inl hi
    · exact .inl hi
    · exact .inr (.inl hi)
    · exact .inr (.inr (.inl hi))
  case pulseRx =>
    obtain hleaves | ⟨-, hpulse, -⟩ := exec_timers_cases h
    · exact .inr (.inr (.inr hleaves))
    obtain ⟨hsame, -⟩ | ⟨hi, -⟩ | ⟨hpop | hdrain, -⟩ | ⟨-, hsame, -⟩ := rule_pulses_cases i s.block
    · exact absurd (hpulse.trans hsame) hchange
    · exact .inl hi
    · exact .inr (.inl hpop)
    · exact .inr (.inr (.inl hdrain))
    · exact absurd (hpulse.trans hsame) hchange
  case pulseTx =>
    obtain hleaves | ⟨-, -, hpulse⟩ := exec_timers_cases h
    · exact .inr (.inr (.inr hleaves))
    obtain ⟨-, hsame⟩ | ⟨hi, -⟩ | ⟨-, -, hsame⟩ | ⟨hpush | htransfer, -⟩ := rule_pulses_cases i s.block
    · exact absurd (hpulse.trans hsame) hchange
    · exact .inl hi
    · exact absurd (hpulse.trans hsame) hchange
    · exact .inr (.inl hpush)
    · exact .inr (.inr (.inl htransfer))

/-! ### What a sequence of commands keeps -/

/-- What each command of a sequence keeps, the sequence keeps. -/
theorem runAll_induction {P : State → Prop} {is : List Instr} (hstep : ∀ i ∈ is, ∀ s t, P s → exec i s = .next t → P t)
    {s u : State} (h : P s) (hrun : runAll is s = some u) : P u := by
  induction is generalizing s with
  | nil => cases hrun; exact h
  | cons i is ih =>
    obtain ⟨hi, his⟩ := List.forall_mem_cons.1 hstep
    obtain ⟨t, hfirst, hrest⟩ := runAll_cons hrun
    exact ih his (hi s t h hfirst) hrest

/-- After every command the block is in step with GATE. -/
theorem exec_gateInSync {i : Instr} {s t : State} (h : exec i s = .next t) : GateInSync t.block := by
  obtain ⟨hblock, -, -⟩ := exec_next h
  rw [hblock]
  exact gateUpdate_inSync _

/-- Settles O46: an accepted SETLC stores its operands, no command but another one changes them, and GETLC answers them. -/
theorem getlcIsVerbatim : Obligations.GetlcIsVerbatim := by
  intro baud fmt parity bits s t u is haccepts hvalid hset hothers hrun haccepts'
  have hstored : lineFields t.block = (baud, fmt, parity, bits) := by
    rw [(exec_next hset).1, gateUpdate_lineFields, rule, ruleSetlc_of_accepted haccepts hvalid]
    rfl
  have hkept : GateInSync u.block ∧ lineFields u.block = (baud, fmt, parity, bits) := by
    refine runAll_induction (P := fun v => GateInSync v.block ∧ lineFields v.block = (baud, fmt, parity, bits))
      (fun i hi v w hv hexec => ⟨exec_gateInSync hexec, ?_⟩) ⟨exec_gateInSync hset, hstored⟩ hrun
    obtain hsame | ⟨b, f, p, d, rfl, hvalid', -⟩ := exec_lineFields_cases hexec
    · rw [hsame, hv.2]
    · rw [hothers b f p d hi] at hvalid'
      cases hvalid'
  obtain ⟨hsync, hline⟩ := hkept
  simp only [lineFields, Prod.mk.injEq] at hline
  obtain ⟨hb, hf, hp, hd⟩ := hline
  have hdone := completesWith_getlc hsync haccepts'
  rwa [lineEncoding, hb, hf, hp, hd] at hdone

/-- Settles O47: an accepted SETCLS stores its value, and no command but the three excluded ones writes it. -/
theorem resetLineFollowsDtr : Obligations.ResetLineFollowsDtr := by
  intro v s t u is haccepts hset hno hreset hoff hrun
  have hstored : t.block.cls = v := by
    rw [(exec_next hset).1, gateUpdate_cls, rule, ruleSetcls_of_accepted haccepts]
  have hkept : u.block.cls = v := by
    refine runAll_induction (P := fun w => w.block.cls = v) (fun i hi w x hw hexec => ?_) hstored hrun
    have hcls := exec_cls_of_not_writer hexec (fun w hw => hno w (hw ▸ hi)) (fun hw => hreset (hw ▸ hi)) (fun hw => hoff (hw ▸ hi))
    rw [hcls, hw]
  rw [resetLine, hkept]

/-! ### Observations -/

/-- Machines with the same block run a sequence to the same block, and add the same responses to those they had. -/
theorem runAll_of_block_eq (is : List Instr) {s v u : State} (hblock : v.block = s.block) (h : runAll is s = some u) :
    ∃ w answers, runAll is v = some w ∧ w.block = u.block
      ∧ u.responses = s.responses ++ answers ∧ w.responses = v.responses ++ answers := by
  induction is generalizing s v with
  | nil =>
    cases h
    exact ⟨v, [], rfl, hblock, by simp, by simp⟩
  | cons i is ih =>
    obtain ⟨s', hexec, hrest⟩ := runAll_cons h
    obtain ⟨hsblock, -, hsresp⟩ := exec_next hexec
    obtain ⟨v', hvexec⟩ : ∃ v', exec i v = .next v' := ⟨_, exec_eq i v⟩
    obtain ⟨hvblock, -, hvresp⟩ := exec_next hvexec
    obtain ⟨w, answers, hrun, hw, huresp, hwresp⟩ := ih (by rw [hvblock, hblock, hsblock]) hrest
    rw [hsresp, List.append_assoc] at huresp
    rw [hvresp, hblock, List.append_assoc] at hwresp
    exact ⟨w, _, (runAll_next hvexec is).trans hrun, hw, huresp, hwresp⟩

/-- Observations leave the block as it is and answer once each (45_system.md R154). -/
theorem runAll_observations {seen : List Instr} (hseen : ∀ i ∈ seen, isObservation i = true) {s : State}
    (hsync : GateInSync s.block) :
    ∃ v answers, runAll seen s = some v ∧ v.block = s.block ∧ answers.length = seen.length
      ∧ v.responses = s.responses ++ answers := by
  induction seen generalizing s with
  | nil => exact ⟨s, [], rfl, rfl, rfl, by simp⟩
  | cons i seen ih =>
    obtain ⟨hi, hseen⟩ := List.forall_mem_cons.1 hseen
    obtain ⟨t, hexec⟩ : ∃ t, exec i s = .next t := ⟨_, exec_eq i s⟩
    obtain ⟨hblock, -, hresp⟩ := exec_next hexec
    have hrule : (rule i s.block).1 = s.block := by
      cases i with
      | nop | csrrd => rfl
      | _ => cases hi
    rw [hrule, gateUpdate_of_sync hsync] at hblock
    obtain ⟨v, answers, hrun, hv, hlen, hvresp⟩ := ih hseen (s := t) (by rw [hblock]; exact hsync)
    rw [hresp, List.append_assoc] at hvresp
    exact ⟨v, _, (runAll_next hexec seen).trans hrun, hv.trans hblock, congrArg (· + 1) hlen, hvresp⟩

/-- Settles O56: the observations leave the block as it was, and the rest of the run depends on the block alone. -/
theorem observationLaw : Obligations.ObservationLaw := by
  intro seen is s u hsync hseen hrun
  obtain ⟨v, answers, hobserved, hblock, hlen, hresp⟩ := runAll_observations hseen hsync
  obtain ⟨w, rest, hthen, hw, huresp, hwresp⟩ := runAll_of_block_eq is hblock hrun
  have hrest : u.responses.drop s.responses.length = rest := by rw [huresp, List.drop_left]
  refine ⟨w, answers, by rw [runAll_append, hobserved, Option.bind_some, hthen], hw, hlen, ?_, ?_⟩
  · rw [hrest, huresp]
  · rw [hrest, hwresp, hresp]

end Sys2Proof.Machine
end
